-- ==== Sys2Proof/Word.lean ====
section
/-! DEFINITION. The bit-vector types of the model (00_scope.md R6, 10_state.md R13). -/

namespace Sys2Proof

/-- A byte: 8 bits (R10, R24). -/
abbrev Byte := BitVec 8

/-- A 64-bit register, offset or linear address (R13, R37). -/
abbrev Word := BitVec 64

end Sys2Proof
end

