-- ==== Sys2Proof/Syntax.lean ====
section
/-! DEFINITION. The instructions of the family, one constructor per row of spec/opcode_table.json, and the
names their encodings are made of (30_encoding.md). -/

namespace Sys2Proof

/-- The five operating modes, R4. -/
inductive Mode where
  /-- Real-address mode. -/
  | real
  /-- Protected mode. -/
  | prot
  /-- Virtual-8086 mode. -/
  | v86
  /-- Compatibility mode. -/
  | compat
  /-- 64-bit mode. -/
  | long64
  deriving DecidableEq, Repr

/-- The six segment registers, R23. -/
inductive SegReg where
  | cs
  | ss
  | ds
  | es
  | fs
  | gs
  deriving DecidableEq, Repr

/-- `OpSize`, R9: the size of an element. -/
inductive OpSize where
  | byte
  | word
  | dword
  | qword
  deriving DecidableEq, Repr

/-- `AddrSize`, R9: the address-size attribute. -/
inductive AddrSize where
  | a16
  | a32
  | a64
  deriving DecidableEq, Repr

/-- A legacy prefix byte, R56. -/
inductive LegacyPfx where
  | lock
  | rep
  | repne
  | seg (r : SegReg)
  | opSize
  | addrSize
  deriving DecidableEq, Repr

/-- The prefix groups of R56 (LOCK has one of its own, R57). -/
inductive PfxGroup where
  | gL
  | g1
  | g2
  | g3
  | g4
  deriving DecidableEq, Repr

/-- The prefixes an instruction is spelled with, R53: legacy prefixes in the order of their bytes, then
the low four bits `W R X B` of the REX byte if there is one (R59). -/
structure Spelling where
  legacy : List LegacyPfx
  rex : Option (BitVec 4)
  deriving DecidableEq, Repr

/-- What the decoder reads besides the bytes, R69: `Mode`, `DefaultSize16`, and the parameter
`SsOverride64Honoured` of R60. -/
structure CodeCtx where
  mode : Mode
  default16 : Bool
  ssHonoured : Bool
  deriving DecidableEq, Repr

/-- The twelve rows of the opcode table, R73. No operand is encoded (R55): an instruction is its row and
its prefixes. -/
inductive Instr where
  /-- R80. -/
  | movsM8M8 (p : Spelling)
  /-- R81. -/
  | movsM16M16 (p : Spelling)
  /-- R82. -/
  | movsM32M32 (p : Spelling)
  /-- R83. -/
  | movsM64M64 (p : Spelling)
  /-- R76. -/
  | movsb (p : Spelling)
  /-- R77. -/
  | movsw (p : Spelling)
  /-- R78. -/
  | movsd (p : Spelling)
  /-- R79. -/
  | movsq (p : Spelling)
  /-- R94. -/
  | repMovsb (p : Spelling)
  /-- R95. -/
  | repMovsw (p : Spelling)
  /-- R96. -/
  | repMovsd (p : Spelling)
  /-- R97. -/
  | repMovsq (p : Spelling)
  deriving DecidableEq, Repr

/-- The prefixes of an instruction. -/
def Instr.spelling : Instr → Spelling
  | .movsM8M8 p => p
  | .movsM16M16 p => p
  | .movsM32M32 p => p
  | .movsM64M64 p => p
  | .movsb p => p
  | .movsw p => p
  | .movsd p => p
  | .movsq p => p
  | .repMovsb p => p
  | .repMovsw p => p
  | .repMovsd p => p
  | .repMovsq p => p

/-- The element size a row stands for, R73. -/
def Instr.size : Instr → OpSize
  | .movsM8M8 _ => .byte
  | .movsM16M16 _ => .word
  | .movsM32M32 _ => .dword
  | .movsM64M64 _ => .qword
  | .movsb _ => .byte
  | .movsw _ => .word
  | .movsd _ => .dword
  | .movsq _ => .qword
  | .repMovsb _ => .byte
  | .repMovsw _ => .word
  | .repMovsd _ => .dword
  | .repMovsq _ => .qword

/-- Whether a row is a REP form, R73. -/
def Instr.isRep : Instr → Bool
  | .movsM8M8 _ => false
  | .movsM16M16 _ => false
  | .movsM32M32 _ => false
  | .movsM64M64 _ => false
  | .movsb _ => false
  | .movsw _ => false
  | .movsd _ => false
  | .movsq _ => false
  | .repMovsb _ => true
  | .repMovsw _ => true
  | .repMovsd _ => true
  | .repMovsq _ => true

/-- The no-operands form with the same bytes, which is the one the decoder answers: an explicit-operands
form differs in its assembler spelling only (R70, R80 to R83). -/
def Instr.noOperands : Instr → Instr
  | .movsM8M8 p => .movsb p
  | .movsM16M16 p => .movsw p
  | .movsM32M32 p => .movsd p
  | .movsM64M64 p => .movsq p
  | .movsb p => .movsb p
  | .movsw p => .movsw p
  | .movsd p => .movsd p
  | .movsq p => .movsq p
  | .repMovsb p => .repMovsb p
  | .repMovsw p => .repMovsw p
  | .repMovsd p => .repMovsd p
  | .repMovsq p => .repMovsq p

end Sys2Proof
end

