-- ==== Sys2Proof/Machine/Operands.lean ====
section
/-! DEFINITION. The decoded attributes of an instruction (00_scope.md R9), each a function of the prefixes
and of what the code segment and the mode fix: `OpSize` (30_encoding.md R62), `AddrSize` (R58), `SrcSeg`
(R60), `Len` (R67). -/

namespace Sys2Proof

/-- The number of bytes of an element: `n = OpSize / 8`, R8. -/
def OpSize.bytes : OpSize → Nat
  | .byte => 1
  | .word => 2
  | .dword => 4
  | .qword => 8

/-- The number of bits `A` of an address size, R9. -/
def AddrSize.bits : AddrSize → Nat
  | .a16 => 16
  | .a32 => 32
  | .a64 => 64

/-- Whether a legacy prefix is among an instruction's prefixes. -/
def Spelling.has (p : Spelling) (q : LegacyPfx) : Bool :=
  p.legacy.contains q

/-- Whether a REX byte with `W = 1` is present: `W` is bit 3, R59. -/
def Spelling.rexW (p : Spelling) : Bool :=
  match p.rex with
  | none => false
  | some b => b.getLsbD 3

/-- The segment the first group-2 prefix of a list names, R60. -/
def segOverride : List LegacyPfx → Option SegReg
  | [] => none
  | .seg r :: _ => some r
  | .lock :: rest => segOverride rest
  | .rep :: rest => segOverride rest
  | .repne :: rest => segOverride rest
  | .opSize :: rest => segOverride rest
  | .addrSize :: rest => segOverride rest

/-- `Len`, R67: the prefix bytes and the opcode byte. -/
def Spelling.len (p : Spelling) : Nat :=
  p.legacy.length + (match p.rex with | none => 0 | some _ => 1) + 1

/-- The operand-size attribute of opcode A5, R62. -/
def opSizeA5 (c : CodeCtx) (p : Spelling) : OpSize :=
  match c.mode with
  | .long64 => if p.rexW then .qword else if p.has .opSize then .word else .dword
  | .real | .prot | .v86 | .compat =>
    if c.default16 != p.has .opSize then .word else .dword

/-- The address-size attribute, R58. -/
def addrSizeOf (c : CodeCtx) (p : Spelling) : AddrSize :=
  match c.mode with
  | .long64 => if p.has .addrSize then .a32 else .a64
  | .real | .prot | .v86 | .compat =>
    if c.default16 != p.has .addrSize then .a16 else .a32

/-- The source segment, R60. In 64-bit mode only the FS and GS overrides are honoured, and the SS override
if the parameter `SsOverride64Honoured` says so. -/
def srcSegOf (c : CodeCtx) (p : Spelling) : SegReg :=
  match segOverride p.legacy with
  | none => .ds
  | some r =>
    match c.mode with
    | .real | .prot | .v86 | .compat => r
    | .long64 =>
      match r with
      | .fs => .fs
      | .gs => .gs
      | .ss => if c.ssHonoured then .ss else .ds
      | .cs | .ds | .es => .ds

end Sys2Proof
end

