-- ==== Sys2Proof/WellFormed.lean ====
section
/-! DEFINITION. Which instructions exist under given code attributes: the admitted prefix combinations
(30_encoding.md R57, R59, R65) and the prefix condition of each row of the opcode table (R73). -/

namespace Sys2Proof

/-- The group of a legacy prefix, R56. -/
def LegacyPfx.group : LegacyPfx → PfxGroup
  | .lock => .gL
  | .rep => .g1
  | .repne => .g1
  | .seg _ => .g2
  | .opSize => .g3
  | .addrSize => .g4

/-- At most one prefix from each group, in any order, R57. -/
def distinctGroups : List LegacyPfx → Bool
  | [] => true
  | q :: rest => rest.all (fun r => r.group != q.group) && distinctGroups rest

/-- The prefixes alone are admitted: R57, and a REX byte in 64-bit mode only (R59). -/
def Spelling.wf (c : CodeCtx) (p : Spelling) : Bool :=
  distinctGroups p.legacy && (p.rex.isNone || c.mode == .long64)

/-- The element size a row stands for is the one its bytes have, R62: opcode A4 is the byte move whatever
the prefixes, opcode A5 has the size of its attribute. -/
def Instr.sizeOk (c : CodeCtx) (i : Instr) : Bool :=
  i.size == .byte || i.size == opSizeA5 c i.spelling

/-- The row is a REP form exactly when the REP prefix is present (R64), and the prefix 0xF2 stands only
beside LOCK, whose #UD comes first (R65, R69). -/
def Instr.repOk (i : Instr) : Bool :=
  (i.isRep == i.spelling.has .rep) && (!i.spelling.has .repne || i.spelling.has .lock)

/-- An instruction that exists under the code attributes `c`. -/
def Instr.wf (c : CodeCtx) (i : Instr) : Bool :=
  i.spelling.wf c && i.sizeOk c && i.repOk

end Sys2Proof
end

