-- ==== Sys2Proof/Decode.lean ====
section
/-! DEFINITION. The decoder (30_encoding.md R69), total on byte strings, and the encoder (R53, R56, R73).

Section order: the byte values of R56, the decoder, the encoder, the words of the opcode table. -/

namespace Sys2Proof

/-- What the decoder answers, R69. -/
inductive Decoded where
  /-- An instruction of the family. One with a LOCK prefix is the `Insn(UD)` of R69: its meaning is #UD. -/
  | insn (i : Instr)
  /-- `Refuse(U4)`: a prefix spelling outside R57. -/
  | badSpelling
  /-- `Refuse(U3)`: the prefix 0xF2 without LOCK, R65. -/
  | repne
  /-- `NotInScope`: not an instruction of the family, R12, R66. -/
  | notInScope
  /-- The byte string ends before the opcode byte. -/
  | truncated
  deriving DecidableEq, Repr

/-- The legacy prefix bytes, R56. -/
def legacyTable : List (Byte × LegacyPfx) :=
  [ (0xF0, .lock), (0xF3, .rep), (0xF2, .repne),
    (0x2E, .seg .cs), (0x36, .seg .ss), (0x3E, .seg .ds), (0x26, .seg .es), (0x64, .seg .fs), (0x65, .seg .gs),
    (0x66, .opSize), (0x67, .addrSize) ]

/-- The legacy prefix a byte is, if it is one. -/
def legacyOf (b : Byte) : Option LegacyPfx :=
  (legacyTable.find? (fun e => e.1 == b)).map (fun e => e.2)

/-- A REX byte is `0100 W R X B`, R59. -/
def isRex (b : Byte) : Bool :=
  b.extractLsb' 4 4 == 0x4

/-- Opcode byte of the byte move, R54. -/
def opcodeA4 : Byte := 0xA4

/-- Opcode byte of the word, doubleword and quadword moves, R54. -/
def opcodeA5 : Byte := 0xA5

/-- The row that an element size and the REP prefix select, in its no-operands form (R73 rows 5 to 12). -/
def rowOf (z : OpSize) (rep : Bool) (p : Spelling) : Instr :=
  match z, rep with
  | .byte, false => .movsb p
  | .word, false => .movsw p
  | .dword, false => .movsd p
  | .qword, false => .movsq p
  | .byte, true => .repMovsb p
  | .word, true => .repMovsw p
  | .dword, true => .repMovsd p
  | .qword, true => .repMovsq p

/-- The end of R69: the opcode byte and what the prefixes make of it. -/
def decodeOpcode (c : CodeCtx) (p : Spelling) (b : Byte) : Decoded :=
  if b = opcodeA4 ∨ b = opcodeA5 then
    if p.has .repne ∧ ¬ p.has .lock then .repne
    else .insn (rowOf (if b = opcodeA4 then .byte else opSizeA5 c p) (p.has .rep) p)
  else .notInScope

/-- The middle of R69: after the legacy prefixes `seen`, a REX byte in 64-bit mode, then the opcode byte. -/
def decodeTail (c : CodeCtx) (seen : List LegacyPfx) (b : Byte) (rest : List Byte) : Decoded :=
  if c.mode = .long64 ∧ isRex b then
    match rest with
    | [] => .truncated
    | b' :: _ =>
      if (legacyOf b').isSome ∨ isRex b' then .badSpelling
      else decodeOpcode c ⟨seen, some (b.extractLsb' 0 4)⟩ b'
  else decodeOpcode c ⟨seen, none⟩ b

/-- The loop of R69 over the legacy prefixes; `seen` are those already read, in order. -/
def decodeFrom (c : CodeCtx) (seen : List LegacyPfx) : List Byte → Decoded
  | [] => .truncated
  | b :: rest =>
    match legacyOf b with
    | some q =>
      if seen.any (fun r => r.group == q.group) then .badSpelling
      else decodeFrom c (seen ++ [q]) rest
    | none => decodeTail c seen b rest

/-- `Decode` of R69 on the bytes at `pc`. Bytes after the opcode byte are not looked at (R74). -/
def decode (c : CodeCtx) (bytes : List Byte) : Decoded :=
  decodeFrom c [] bytes

/-- The byte of a legacy prefix, R56. -/
def LegacyPfx.byte : LegacyPfx → Byte
  | .lock => 0xF0
  | .rep => 0xF3
  | .repne => 0xF2
  | .seg .cs => 0x2E
  | .seg .ss => 0x36
  | .seg .ds => 0x3E
  | .seg .es => 0x26
  | .seg .fs => 0x64
  | .seg .gs => 0x65
  | .opSize => 0x66
  | .addrSize => 0x67

/-- The REX byte with low bits `W R X B`, R59. -/
def rexByte (b : BitVec 4) : Byte :=
  (0x4 : BitVec 4) ++ b

/-- The prefix bytes of a spelling, R53. -/
def Spelling.encode (p : Spelling) : List Byte :=
  p.legacy.map LegacyPfx.byte ++ (match p.rex with | none => [] | some b => [rexByte b])

/-- The opcode byte of a row, R54, R73. -/
def Instr.opcode (i : Instr) : Byte :=
  match i.size with
  | .byte => opcodeA4
  | .word => opcodeA5
  | .dword => opcodeA5
  | .qword => opcodeA5

/-- The bytes of an instruction: prefixes, then the opcode byte, R53. -/
def encode (i : Instr) : List Byte :=
  i.spelling.encode ++ [i.opcode]

/-- The most bytes an admitted instruction has: five legacy prefixes, REX, opcode (R57). -/
def maxInsnBytes : Nat := 7

/-- The `k` low bytes of a number, the byte of bits 7..0 first. -/
def bytesOfNat : Nat → Nat → List Byte
  | 0, _ => []
  | k + 1, w => BitVec.ofNat 8 w :: bytesOfNat k (w / 256)

/-- The bytes an instruction word of the opcode table is stored as: its first byte is bits 7..0, and every
bit from `nbits` up to the longest instruction is 0. -/
def tableBytes (nbits w : Nat) : List Byte :=
  bytesOfNat maxInsnBytes (w % 2 ^ nbits)

/-- The code attributes under which the opcode table spells its rows: 64-bit mode (its encoding strings are
"the shortest 64-bit-mode spelling"), with the default of `SsOverride64Honoured` (log entry 4). -/
def tableCtx : CodeCtx := ⟨.long64, false, false⟩

/-- The instruction the decoder reads from a word of the opcode table. -/
def decodeTableWord (nbits w : Nat) : Option Instr :=
  match decode tableCtx (tableBytes nbits w) with
  | .insn i => some i
  | .badSpelling => none
  | .repne => none
  | .notInScope => none
  | .truncated => none

end Sys2Proof
end

