-- ==== Sys2Proof/Config.lean ====
section
/-! DEFINITION. What the environment fixes for a run (00_scope.md R5, 10_state.md R26, the list of open
parameters of 92_eei_decisions.md) and the one free value of the model (60_exceptions.md R119).

The open parameters are plain data held in `State.cfg`, which no step writes, so a statement about every
state holds for every value of every parameter. -/

namespace Sys2Proof

/-- `VA_BITS`, R5 and R40: the number of implemented linear-address bits. -/
inductive VaBits where
  | v48
  | v57
  deriving DecidableEq, Repr

/-- The kind of a data access, R42 and R44. -/
inductive AccessKind where
  | read
  | write
  deriving DecidableEq, Repr

/-- What `Translate` answers for one byte address, R44: a physical byte address, or a page fault with
its code. -/
inductive Translation where
  | phys (a : Nat)
  | pageFault (code : BitVec 32)
  deriving DecidableEq, Repr

/-- One range of linear byte addresses `first .. last` with the answer of `Translate` there, for one
access kind and one privilege level. A `phys b` answer maps `first` to `b`, `first + 1` to `b + 1` and so
on. Every function on the linear addresses can be listed this way (log entry 7). -/
structure TransRange where
  first : Nat
  last : Nat
  kind : AccessKind
  cpl : BitVec 2
  result : Translation
  deriving DecidableEq, Repr

/-- A range of physical byte addresses. -/
structure AddrRange where
  first : Nat
  last : Nat
  deriving DecidableEq, Repr

/-- The open parameters of R5 and of 92_eei_decisions.md. -/
structure Params where
  /-- `VA_BITS`, R40, D11. -/
  vaBits : VaBits
  /-- `SsOverride64Honoured`, R60, R115, D5. -/
  ssOverride64Honoured : Bool
  /-- `Translate`, R44, D12: the first range that matches answers, an address in none translates to
  itself. -/
  translate : List TransRange
  /-- The part of the platform's address map (R43, D26) that is not plain memory (R45, U12). -/
  devices : List AddrRange
  deriving DecidableEq, Repr

/-- Which of several exceptions that apply at once is reported: R119 item 3 fixes only that it is some
member of the set. A FREE VALUE (log entry 6): an opaque constant, applied to `State.freeIndex`. -/
opaque Config.faultChoice : Nat → Nat

end Sys2Proof
end

