-- ==== Sys2Proof/Machine/State.lean ====
section
/-! DEFINITION. The state of the machine (10_state.md), the faults and the refusals (60_exceptions.md,
93_implementation_defined.md), and the state after reset. -/

namespace Sys2Proof.Machine

/-- One segment register, the record of R23. -/
structure SegState where
  /-- Added to the offset to give the linear address, R36 and R37. -/
  base : Word
  /-- The effective limit in bytes. -/
  limit : BitVec 32
  /-- An expand-down data segment: valid offsets lie above the limit. -/
  expandDown : Bool
  /-- The upper bound of an expand-down segment: 0xFFFFFFFF (true) or 0xFFFF (false). -/
  big : Bool
  /-- Loaded with a NULL selector. -/
  null : Bool
  /-- A data segment with write permission. -/
  writable : Bool
  /-- False only for an execute-only code segment. -/
  readable : Bool
  deriving DecidableEq, Repr

/-- The six segment registers, R23. -/
structure SegFile where
  cs : SegState
  ss : SegState
  ds : SegState
  es : SegState
  fs : SegState
  gs : SegState
  deriving DecidableEq, Repr

/-- The general registers that no rule reads or writes, R16. -/
structure OtherRegs where
  rax : Word
  rbx : Word
  rdx : Word
  rbp : Word
  rsp : Word
  r8 : Word
  r9 : Word
  r10 : Word
  r11 : Word
  r12 : Word
  r13 : Word
  r14 : Word
  r15 : Word
  deriving DecidableEq, Repr

/-- The machine. INVENTORY.md lists every field with its rule and its reset value. -/
structure State where
  /-- RSI, R13. -/
  rsi : Word
  /-- RDI, R13. -/
  rdi : Word
  /-- RCX, R13. -/
  rcx : Word
  /-- The other general registers, R16. -/
  other : OtherRegs
  /-- The instruction pointer: an offset in the code segment, R19. -/
  pc : Word
  /-- EFLAGS: DF at bit 10 (R20), and every other flag (R21). -/
  eflags : BitVec 32
  /-- `Mode`, R4, R22. -/
  mode : Mode
  /-- `CPL`, R22; read through `State.effCpl`. -/
  cpl : BitVec 2
  /-- `AlignCheckEnabled`, R22. -/
  alignCheckEnabled : Bool
  /-- `DefaultSize16`, R22; read through `State.default16`. -/
  codeDefault16 : Bool
  /-- The segment registers, R23. -/
  seg : SegFile
  /-- Memory, R24: physical byte addresses and their bytes, in the canonical form of `Memory.wf`. -/
  mem : List Host.Cell
  /-- The environment's parameters, R5 and R26. -/
  cfg : Params
  /-- The MODEL's own: the physical addresses stored to so far, strictly rising, for refusal U11 (R50). -/
  stored : List Nat
  /-- The MODEL's own: the counter the free value of R119 is applied to (log entry 6). -/
  freeIndex : Nat
  deriving DecidableEq, Repr

/-- The exceptions, R104, with what each records (R120). Every one ends the step with the state as it was
before the instruction (R118); stopping there is SAFE (log entry 5). -/
inductive Fault where
  /-- #UD, no error code: an instruction with a LOCK prefix (R105). Raised by every form. Safe. -/
  | ud
  /-- #GP with error code 0, or with none in real-address mode: segment type, NULL selector, limit,
  non-canonical address (R111, R112, R113, R115). Raised by the checks of an access. Safe. -/
  | gp (code : Option (BitVec 32))
  /-- #SS with error code 0, or with none in real-address mode: limit or non-canonical address through SS
  (R114, R115). Raised by the checks of the source read. Safe. -/
  | ss (code : Option (BitVec 32))
  /-- #AC with error code 0: an unaligned access while alignment is checked (R117). Raised by the checks of
  an access. Safe. -/
  | ac (code : BitVec 32)
  /-- #PF with the code `Translate` answers and the lowest faulting linear address (R116). Raised by the
  checks of an access. Safe. -/
  | pf (code : BitVec 32) (addr : Word)
  deriving DecidableEq, Repr

/-- The situations the spec tells the model to refuse by name (R11, R12, section 1 of
93_implementation_defined.md). Each refusal is SAFE: it only leaves claims unprovable. -/
inductive Refusal where
  /-- An arm of `exec` without a meaning. Raised by no arm of this model. Safe. -/
  | notModelled (mnemonic : String)
  /-- The bytes at `pc` are not an instruction of the family (R12, R66). Raised by `step`. Safe. -/
  | notInScope
  /-- U4: a prefix spelling outside R57. Raised by `step`. Safe. -/
  | badSpelling
  /-- U3: the prefix 0xF2 (R65). Raised by `step`. Safe. -/
  | repnePrefix
  /-- U9: an instruction byte cannot be fetched: code-segment limit, non-canonical `pc`, page fault (R50).
  Raised by `step`. Safe. -/
  | fetchFault
  /-- U9: `pc + Len` passes the instruction-pointer width or the code-segment limit, or is not canonical
  (R19). Raised by every form. Safe. -/
  | pcOverflow
  /-- U1: a quadword form outside 64-bit mode (R66). Raised by the quadword forms only; no bytes decode to
  one there. Safe. -/
  | quadOutsideLong64
  /-- U10: an access that runs past the top of the offset space or of the linear address space (R41).
  Raised by the checks of an access. Safe. -/
  | offsetWrap
  /-- U11: a destination range, over all iterations, that meets the bytes of the instruction itself, or the execution
  of bytes that the run has stored to (R50). Raised by an element move, and by `step`. Safe. -/
  | storeIntoCode
  /-- U12: device memory in the range of a launch (R45). Raised by an element move. Safe. -/
  | deviceMemory
  deriving DecidableEq, Repr

/-- A data or stack segment after reset (log entries 1 and 2). -/
def SegState.reset : SegState :=
  { base := 0, limit := 0xFFFF, expandDown := false, big := false, null := false, writable := true, readable := true }

/-- The machine right after reset. The source gives no reset value (R27, R129): these are the values R27
names for orientation (PRESUMED, log entry 1), the defaults of the open parameters (log entries 7, 8, 14),
and zero for the rest (DESIGN CHOICE, log entries 2, 3, 6, 13). -/
def State.reset : State :=
  { rsi := 0
    rdi := 0
    rcx := 0
    other :=
      { rax := 0, rbx := 0, rdx := 0, rbp := 0, rsp := 0, r8 := 0, r9 := 0, r10 := 0, r11 := 0, r12 := 0, r13 := 0, r14 := 0, r15 := 0 }
    pc := 0xFFF0
    eflags := 0x00000002
    mode := .real
    cpl := 0
    alignCheckEnabled := false
    codeDefault16 := true
    seg :=
      { cs := { SegState.reset with base := 0xFFFF0000 }
        ss := SegState.reset
        ds := SegState.reset
        es := SegState.reset
        fs := SegState.reset
        gs := SegState.reset }
    mem := []
    cfg := { vaBits := .v48, ssOverride64Honoured := false, translate := [], devices := [] }
    stored := []
    freeIndex := 0 }

end Sys2Proof.Machine
end

