-- ==== Sys2Proof/Machine/Flags.lean ====
section
/-! DEFINITION. The flags (10_state.md section 3). The family reads DF and writes no flag (R20, R21, R84):
there is no operation here that writes `eflags`. -/

namespace Sys2Proof.Machine

/-- DF, the direction flag: bit 10 of EFLAGS, R20. -/
def State.df (s : State) : Bool :=
  s.eflags.getLsbD 10

end Sys2Proof.Machine
end

