-- ==== Sys2Proof/Machine/Ops.lean ====
section
/-! DEFINITION. The shared operations: index registers (10_state.md R17, R18), memory and byte order
(20_memory.md R30), translation (R44), address formation and its checks (R36 to R42), raising an exception
(60_exceptions.md R118, R119), the instruction pointer (10_state.md R19). -/

namespace Sys2Proof.Machine

/-! ### What the mode fixes -/

/-- `CPL` as the rules read it: 3 in virtual-8086 mode, 0 in real-address mode (R22, R125). -/
def State.effCpl (s : State) : BitVec 2 :=
  match s.mode with
  | .v86 => 3
  | .real => 0
  | .prot | .compat | .long64 => s.cpl

/-- `DefaultSize16` as the rules read it: true in real-address and virtual-8086 mode (R5, R22). -/
def State.default16 (s : State) : Bool :=
  match s.mode with
  | .real | .v86 => true
  | .prot | .compat | .long64 => s.codeDefault16

/-- The code attributes the decoder reads, R69. -/
def State.codeCtx (s : State) : CodeCtx :=
  ⟨s.mode, s.default16, s.cfg.ssOverride64Honoured⟩

/-! ### Index and count registers -/

/-- The low `A` bits of a value, zero-extended: `zext_64(v[A-1:0])`. -/
def lowBits (A : AddrSize) (v : Word) : Word :=
  match A with
  | .a16 => (v.setWidth 16).setWidth 64
  | .a32 => (v.setWidth 32).setWidth 64
  | .a64 => v

/-- The register `old` after `SetIdx(r, A, v)`, R18. -/
def setLow (m : Mode) (A : AddrSize) (old v : Word) : Word :=
  match A with
  | .a64 => v
  | .a32 =>
    match m with
    | .long64 => (v.setWidth 32).setWidth 64
    | .real | .prot | .v86 | .compat => old.extractLsb' 32 32 ++ v.extractLsb' 0 32
  | .a16 => old.extractLsb' 16 48 ++ v.extractLsb' 0 16

/-- `Idx(RSI, A)`, R17. -/
def State.idxRsi (s : State) (A : AddrSize) : Word := lowBits A s.rsi

/-- `Idx(RDI, A)`, R17. -/
def State.idxRdi (s : State) (A : AddrSize) : Word := lowBits A s.rdi

/-- `Idx(RCX, A)`, R17, R98. -/
def State.idxRcx (s : State) (A : AddrSize) : Word := lowBits A s.rcx

/-- `SetIdx(RSI, A, v)`, R18. -/
def State.setRsi (s : State) (A : AddrSize) (v : Word) : State :=
  { s with rsi := setLow s.mode A s.rsi v }

/-- `SetIdx(RDI, A, v)`, R18. -/
def State.setRdi (s : State) (A : AddrSize) (v : Word) : State :=
  { s with rdi := setLow s.mode A s.rdi v }

/-- `SetIdx(RCX, A, v)`, R18. -/
def State.setRcx (s : State) (A : AddrSize) (v : Word) : State :=
  { s with rcx := setLow s.mode A s.rcx v }

/-- The index update of R75 and R85: plus `n` when DF is 0, minus `n` when it is 1, modulo `2^A`. -/
def stepIndex (A : AddrSize) (df : Bool) (n : Nat) (idx : Word) : Word :=
  lowBits A (if df then idx - BitVec.ofNat 64 n else idx + BitVec.ofNat 64 n)

/-- An index `k` elements further on, in the direction of DF, modulo `2^A` (R85, R102). -/
def indexAfter (A : AddrSize) (df : Bool) (n : Nat) (idx : Word) (k : Nat) : Word :=
  lowBits A (if df then idx - BitVec.ofNat 64 (k * n) else idx + BitVec.ofNat 64 (k * n))

/-- The number of the first element of a block that can have offset `off`, R102: how many elements of `n` bytes lie
between the block's index and `off`, modulo `2^A`. -/
def elementNo (A : AddrSize) (df : Bool) (n : Nat) (idx off : Word) : Nat :=
  (lowBits A (if df then idx - off else off - idx)).toNat / n

/-! ### Memory -/

/-- What an address that memory does not list reads as (DESIGN CHOICE, log entry 3). -/
def defaultByte : Byte := 0x00

/-- The byte at a physical address. -/
def Memory.read : List Host.Cell → Nat → Byte
  | [], _ => defaultByte
  | (x, b) :: rest, a => if a = x then b else Memory.read rest a

/-- Memory with one byte stored, in canonical form: an entry equal to what an unlisted address reads as is
left out. -/
def Memory.write : List Host.Cell → Nat → Byte → List Host.Cell
  | [], a, v => if v = defaultByte then [] else [(a, v)]
  | (x, b) :: rest, a, v =>
    if a < x then
      if v = defaultByte then (x, b) :: rest else (a, v) :: (x, b) :: rest
    else if a = x then
      if v = defaultByte then rest else (a, v) :: rest
    else (x, b) :: Memory.write rest a v

/-- The canonical form of memory: addresses strictly rising, no entry equal to what an unlisted address
reads as. -/
def Memory.wf : List Host.Cell → Bool
  | [] => true
  | (x, b) :: rest => b != defaultByte && rest.all (fun c => x < c.1) && Memory.wf rest

/-- The bytes at a list of physical addresses. -/
def Memory.readAll (m : List Host.Cell) (as : List Nat) : List Byte :=
  as.map (Memory.read m)

/-- Stores bytes at a list of physical addresses, the first first. -/
def Memory.writeAll (m : List Host.Cell) : List Nat → List Byte → List Host.Cell
  | a :: as, b :: bs => Memory.writeAll (Memory.write m a b) as bs
  | [], _ => m
  | _ :: _, [] => m

/-- A value from its bytes, the byte at the lowest address least significant, R30. -/
def leValue : List Byte → Nat
  | [] => 0
  | b :: bs => b.toNat + 256 * leValue bs

/-- The `n` bytes of a value, the least significant first, R30. -/
def leBytes : Nat → Nat → List Byte
  | 0, _ => []
  | n + 1, v => BitVec.ofNat 8 v :: leBytes n (v / 256)

/-- A strictly rising list of addresses with one more address in it. -/
def insertAddr (a : Nat) : List Nat → List Nat
  | [] => [a]
  | x :: xs => if a < x then a :: x :: xs else if a = x then x :: xs else x :: insertAddr a xs

/-! ### Translation -/

/-- Whether a range answers for an address, an access kind and a privilege level. -/
def rangeMatches (t : TransRange) (a : Nat) (k : AccessKind) (cpl : BitVec 2) : Bool :=
  t.first ≤ a && a ≤ t.last && t.kind == k && t.cpl == cpl

/-- The answer of a list of ranges: the first that matches; an address in none translates to itself. -/
def translateIn : List TransRange → Nat → AccessKind → BitVec 2 → Translation
  | [], a, _, _ => .phys a
  | t :: ts, a, k, cpl =>
    if rangeMatches t a k cpl then
      match t.result with
      | .phys b => .phys (b + (a - t.first))
      | .pageFault c => .pageFault c
    else translateIn ts a k cpl

/-- The linear addresses that can translate to a physical address: itself, and its place in each range. -/
def preimages (ts : List TransRange) (x : Nat) : List Nat :=
  x :: ts.filterMap fun t =>
    match t.result with
    | .phys b => if b ≤ x then some (t.first + (x - b)) else none
    | .pageFault _ => none

/-- `Translate(a, kind, CPL)`, R44: the identity in real-address mode. -/
def State.translate (s : State) (a : Word) (k : AccessKind) : Translation :=
  match s.mode with
  | .real => .phys a.toNat
  | .prot | .v86 | .compat | .long64 => translateIn s.cfg.translate a.toNat k s.effCpl

/-- The physical address of a translation, if it has one. -/
def physOf : Translation → Option Nat
  | .phys a => some a
  | .pageFault _ => none

/-- The `n` consecutive linear byte addresses from `a`, R33. -/
def linBytes (a : Word) : Nat → List Word
  | 0 => []
  | n + 1 => a :: linBytes (a + 1) n

/-- The physical addresses of a list of linear addresses, or the page fault of the first that faults,
with that address (R33, R44, R116). -/
def State.translateAll (s : State) (k : AccessKind) : List Word → Except (BitVec 32 × Word) (List Nat)
  | [] => .ok []
  | a :: as =>
    match s.translate a k with
    | .pageFault c => .error (c, a)
    | .phys b =>
      match s.translateAll k as with
      | .error e => .error e
      | .ok bs => .ok (b :: bs)

/-! ### Address formation -/

/-- `Seg[r]`, R23. -/
def State.segOf (s : State) : SegReg → SegState
  | .cs => s.seg.cs
  | .ss => s.seg.ss
  | .ds => s.seg.ds
  | .es => s.seg.es
  | .fs => s.seg.fs
  | .gs => s.seg.gs

/-- The base a segment counts with in 64-bit mode, R37. -/
def State.base64 (s : State) : SegReg → Word
  | .cs => 0
  | .ss => 0
  | .ds => 0
  | .es => 0
  | .fs => s.seg.fs.base
  | .gs => s.seg.gs.base

/-- `Lin(s, off)`: base plus offset, modulo 2^32 outside 64-bit mode (R36), modulo 2^64 in it (R37). -/
def State.lin (s : State) (r : SegReg) (off : Word) : Word :=
  match s.mode with
  | .long64 => s.base64 r + off
  | .real | .prot | .v86 | .compat =>
    ((s.segOf r).base.setWidth 32 + off.setWidth 32).setWidth 64

/-- The offset whose linear address through a segment is the given one, `State.lin` turned round. -/
def State.offsetOf (s : State) (r : SegReg) (a : Word) : Word :=
  match s.mode with
  | .long64 => a - s.base64 r
  | .real | .prot | .v86 | .compat => (a.setWidth 32 - (s.segOf r).base.setWidth 32).setWidth 64

/-- `TopBound(s)`, R41. -/
def SegState.topBound (d : SegState) : Nat :=
  if d.expandDown then (if d.big then 0xFFFFFFFF else 0xFFFF) else d.limit.toNat

/-- `InLimit(s, off, n)`, R38, with `off + n - 1` computed unbounded. -/
def SegState.inLimit (d : SegState) (off n : Nat) : Bool :=
  if d.expandDown then d.limit.toNat < off && off + n - 1 ≤ d.topBound
  else off + n - 1 ≤ d.topBound

/-- The number of linear-address bits, R40. -/
def vaBitsOf : VaBits → Nat
  | .v48 => 48
  | .v57 => 57

/-- `Canonical(a)`: bits `63 : VA_BITS-1` are all equal, R40. -/
def canonical (v : VaBits) (a : Word) : Bool :=
  a.toNat / 2 ^ (vaBitsOf v - 1) == 0
    || a.toNat / 2 ^ (vaBitsOf v - 1) == 2 ^ (65 - vaBitsOf v) - 1

/-- Every byte of an `n`-byte access from `a` is canonical, R40. -/
def canonicalAccess (v : VaBits) (a : Word) (n : Nat) : Bool :=
  (linBytes a n).all (canonical v)

/-- An offset-wrapping access, R41: past `2^A`, or past the top of the linear address space. -/
def State.wraps (s : State) (A : AddrSize) (r : SegReg) (off : Word) (n : Nat) : Bool :=
  2 ^ A.bits ≤ off.toNat + n - 1
    || (match s.mode with
        | .long64 => 2 ^ 64 ≤ (s.lin r off).toNat + n - 1
        | .real | .prot | .v86 | .compat => 2 ^ 32 ≤ (s.lin r off).toNat + n - 1)

/-- The case of R41, second item: the access runs past 2^32 in a segment whose upper bound is 2^32 - 1. -/
def State.wraps4G (s : State) (r : SegReg) (off : Word) (n : Nat) : Bool :=
  s.mode != .long64 && 2 ^ 32 ≤ off.toNat + n - 1 && (s.segOf r).topBound == 0xFFFFFFFF

/-- `Unaligned(a, n)`, R32. -/
def unaligned (a : Word) (n : Nat) : Bool :=
  a.toNat % n != 0

/-! ### The checks of an access -/

/-- The error code of a #GP or #SS: none in real-address mode, 0 otherwise (R112, R114, R120). -/
def State.segCode (s : State) : Option (BitVec 32) :=
  match s.mode with
  | .real => none
  | .prot | .v86 | .compat | .long64 => some 0

/-- #SS for an access through SS, #GP for any other (R112, R114, R115). -/
def State.segFault (s : State) (r : SegReg) : Fault :=
  match r with
  | .ss => .ss s.segCode
  | .cs | .ds | .es | .fs | .gs => .gp s.segCode

/-- `NullSeg` counts for DS, ES, FS and GS only, R39. -/
def State.nullSeg (s : State) (r : SegReg) : Bool :=
  match r with
  | .ds | .es | .fs | .gs => (s.segOf r).null
  | .cs | .ss => false

/-- The segment type forbids the access: `NonWritable` for a write, `NonReadable` for a read (R39, R111). -/
def State.wrongType (s : State) (r : SegReg) (k : AccessKind) : Bool :=
  match k with
  | .write => !(s.segOf r).writable
  | .read => !(s.segOf r).readable

/-- The NULL-selector and segment-type exceptions, protected and compatibility mode only (R39, R111, R113). -/
def State.typeFaults (s : State) (r : SegReg) (k : AccessKind) : List Fault :=
  match s.mode with
  | .prot | .compat => if s.nullSeg r || s.wrongType r k then [.gp (some 0)] else []
  | .real | .v86 | .long64 => []

/-- The limit exception outside 64-bit mode (R112, R114), the canonical-form exception in it (R115). -/
def State.rangeFaults (s : State) (r : SegReg) (off : Word) (n : Nat) : List Fault :=
  match s.mode with
  | .long64 => if canonicalAccess s.cfg.vaBits (s.lin r off) n then [] else [s.segFault r]
  | .real | .prot | .v86 | .compat =>
    if (s.segOf r).inLimit off.toNat n then [] else [s.segFault r]

/-- The alignment-check exception, R117. -/
def State.alignFaults (s : State) (a : Word) (n : Nat) : List Fault :=
  if s.alignCheckEnabled && unaligned a n then
    match s.mode with
    | .real => []
    | .v86 => [.ac 0]
    | .prot | .compat | .long64 => if s.effCpl = 3 then [.ac 0] else []
  else []

/-- What the checks of one access answer (R42, R119): the physical addresses of its bytes; the exceptions
it would raise, at least one; or the refusal of R41. -/
inductive Access where
  | ok (phys : List Nat)
  | raises (f : Fault) (more : List Fault)
  | refused
  deriving DecidableEq, Repr

/-- The exceptions of `gs` that are not among `fs`. -/
def newFaults (fs gs : List Fault) : List Fault :=
  gs.filter (fun g => !fs.contains g)

/-- `Check` of R42 on the access of `n` bytes through `r` at offset `off`, with every exception the access
alone would raise (R119): the segment-level ones exclude #AC and #PF; #AC and #PF exclude neither. -/
def State.check (s : State) (A : AddrSize) (r : SegReg) (off : Word) (n : Nat) (k : AccessKind) : Access :=
  let tf := s.typeFaults r k
  if s.wraps4G r off n then
    match tf with
    | [] => .refused
    | f :: fs => .raises f fs
  else
    match tf ++ newFaults tf (s.rangeFaults r off n) with
    | f :: fs => .raises f fs
    | [] =>
      if s.wraps A r off n then .refused
      else
        match s.translateAll k (linBytes (s.lin r off) n), s.alignFaults (s.lin r off) n with
        | .ok phys, [] => .ok phys
        | .ok _, f :: fs => .raises f fs
        | .error (c, a), [] => .raises (.pf c a) []
        | .error (c, a), f :: fs => .raises f (fs ++ [.pf c a])

/-- The physical addresses of the bytes of an access that translate. -/
def State.physBytes (s : State) (r : SegReg) (off : Word) (n : Nat) (k : AccessKind) : List Nat :=
  (linBytes (s.lin r off) n).filterMap fun a => physOf (s.translate a k)

/-- The bytes an access reaches, R45: those that translate, where its linear address is formed, that is, where
no segment-level exception stops it (R119 item 2) and it does not wrap (R41); none otherwise (log entry 14). -/
def State.reached (s : State) (A : AddrSize) (r : SegReg) (off : Word) (n : Nat) (k : AccessKind) : List Nat :=
  if s.typeFaults r k = [] ∧ s.rangeFaults r off n = [] ∧ s.wraps A r off n = false then s.physBytes r off n k else []

/-- The exceptions of an access. -/
def Access.faults : Access → List Fault
  | .ok _ => []
  | .raises f fs => f :: fs
  | .refused => []

/-! ### Raising an exception -/

/-- RAISING AN EXCEPTION, R118: the step ends with the exception, and the state is the one before the
instruction. Delivery is outside the spec (R3 item 4). -/
def raiseFault (f : Fault) : Host.Outcome State Fault Refusal :=
  .fault f

/-- The exception reported when those of the list `f :: fs` all apply, R119 item 3: some member, by the
free value `Config.faultChoice`. One exception is reported as it is. -/
def State.chooseFault (s : State) (f : Fault) (fs : List Fault) : Fault :=
  match fs with
  | [] => f
  | g :: gs => (f :: g :: gs).getD (Config.faultChoice s.freeIndex % (gs.length + 2)) f

/-! ### The instruction pointer and instruction bytes -/

/-- The width of the instruction pointer, R19. -/
def State.ipBits (s : State) : Nat :=
  match s.mode with
  | .long64 => 64
  | .real | .prot | .v86 | .compat => if s.default16 then 16 else 32

/-- The part of `pc` that is used as the offset of the instruction, R19. -/
def State.ipOffset (s : State) : Nat :=
  s.pc.toNat % 2 ^ s.ipBits

/-- Whether an offset of the code segment is one an instruction byte may have: within the limit of CS, or
canonical in 64-bit mode (R50, U9). -/
def State.codeOffsetOk (s : State) (off : Nat) : Bool :=
  off < 2 ^ s.ipBits
    && (match s.mode with
        | .long64 => canonical s.cfg.vaBits (BitVec.ofNat 64 off)
        | .real | .prot | .v86 | .compat => s.seg.cs.inLimit off 1)

/-- `pc + Len`, R67, R90; none where it passes the instruction-pointer width or the code-segment limit, or
is not canonical (R19, U9). -/
def State.nextPc (s : State) (len : Nat) : Option Word :=
  if s.codeOffsetOk (s.ipOffset + len) then some (s.pc + BitVec.ofNat 64 len) else none

/-- `pc <- v`, R8. -/
def State.setPc (s : State) (v : Word) : State :=
  { s with pc := v }

/-- The physical address of the instruction byte `i` bytes after the first one, R50: none where it cannot
be fetched (U9). The fetch is translated as a read (log entry 7). -/
def State.codeAddr (s : State) (i : Nat) : Option Nat :=
  if s.codeOffsetOk (s.ipOffset + i) then
    physOf (s.translate (s.lin .cs (BitVec.ofNat 64 (s.ipOffset + i))) .read)
  else none

/-- The physical addresses of the instruction bytes number `i` to `i + k - 1`, up to the first that cannot
be fetched. -/
def State.codeAddrsFrom (s : State) (i : Nat) : Nat → List Nat
  | 0 => []
  | k + 1 =>
    match s.codeAddr i with
    | none => []
    | some a => a :: s.codeAddrsFrom (i + 1) k

/-- The physical addresses of the first `k` bytes of the instruction at `pc`. -/
def State.codeAddrs (s : State) (k : Nat) : List Nat :=
  s.codeAddrsFrom 0 k

/-! ### Address ranges -/

/-- Whether two lists of addresses share one. -/
def overlaps (as bs : List Nat) : Bool :=
  as.any (fun a => bs.contains a)

/-- Whether a list of physical addresses meets device memory, R45. -/
def State.onDevice (s : State) (as : List Nat) : Bool :=
  as.any (fun a => s.cfg.devices.any (fun d => d.first ≤ a && a ≤ d.last))

/-! ### The elements of a block

An instruction has `c` elements still to move: the count of a REP form, one without REP. R45 and R50 refuse the launch
for every one of them, whatever an element before it raises (log entries 14, 27, 29). -/

/-- Whether some number below a bound has a property. -/
def anyBelow : Nat → (Nat → Bool) → Bool
  | 0, _ => false
  | k + 1, f => f k || anyBelow k f

/-- The bytes that the source read of element `j` reaches. -/
def State.srcElement (s : State) (z : OpSize) (A : AddrSize) (r : SegReg) (j : Nat) : List Nat :=
  s.reached A r (indexAfter A s.df z.bytes (s.idxRsi A) j) z.bytes .read

/-- The bytes that the destination write of element `j` reaches. -/
def State.dstElement (s : State) (z : OpSize) (A : AddrSize) (j : Nat) : List Nat :=
  s.reached A .es (indexAfter A s.df z.bytes (s.idxRdi A) j) z.bytes .write

/-- Whether the source or destination range of the `c` elements is on a device, R45. -/
def State.blockOnDevice (s : State) (z : OpSize) (A : AddrSize) (r : SegReg) (c : Nat) : Bool :=
  !s.cfg.devices.isEmpty && anyBelow c fun j => s.onDevice (s.srcElement z A r j) || s.onDevice (s.dstElement z A j)

/-- Whether the destination range of the `c` elements has the physical address `x`. Only the elements that can
have it are looked at, so that a long block costs no more than a short one: byte `b` of an element at each linear
address that can translate to `x`. `blockStoresTo_iff` says that none is missed. -/
def State.blockStoresTo (s : State) (z : OpSize) (A : AddrSize) (c x : Nat) : Bool :=
  (preimages s.cfg.translate x).any fun a =>
    (List.range z.bytes).any fun b =>
      let j := elementNo A s.df z.bytes (s.idxRdi A) (s.offsetOf .es (BitVec.ofNat 64 a - BitVec.ofNat 64 b))
      decide (j < c) && (s.dstElement z A j).contains x

/-- Whether the destination range of the `c` elements meets the bytes of the instruction of length `len` itself, R50. -/
def State.blockOnOwnBytes (s : State) (z : OpSize) (A : AddrSize) (c len : Nat) : Bool :=
  (s.codeAddrs len).any (s.blockStoresTo z A c)

/-! ### Storing -/

/-- Stores bytes and notes where (R46, R50). -/
def State.store (s : State) (as : List Nat) (bs : List Byte) : State :=
  { s with mem := Memory.writeAll s.mem as bs, stored := as.foldr insertAddr s.stored }

end Sys2Proof.Machine
end

