-- ==== Sys2Proof/Machine/Movs.lean ====
section
/-! DEFINITION. The move-string instructions without REP (40_movs.md). -/

namespace Sys2Proof.Machine

/-- One element, both accesses admitted, R46 and R75: it is read, written, and the index registers are stepped. -/
def moveElement (z : OpSize) (A : AddrSize) (src dst : List Nat) (s : State) : State :=
  let t := leValue (Memory.readAll s.mem src)
  let s' := s.store dst (leBytes z.bytes t)
  (s'.setRsi A (stepIndex A s.df z.bytes (s.idxRsi A))).setRdi A (stepIndex A s.df z.bytes (s.idxRdi A))

/-- `MovsElement(OpSize, AddrSize, SrcSeg)`, R75, of an instruction of `len` bytes with `c` elements still to move.
A launch whose ranges, over all these elements, reach device memory (R45, U12) or whose destination range meets
the instruction's own bytes (R50, U11) is refused, before any exception of its elements is looked at (DESIGN CHOICE,
log entries 14, 27, 29). Then both accesses are checked in the unchanged state; if exceptions apply, one of
them is raised (R119). Where one access is one that R41 refuses and the other raises, the order is the model's
choice (DESIGN CHOICE, log entry 12). -/
def movsElement (z : OpSize) (A : AddrSize) (r : SegReg) (len c : Nat) (s : State) :
    Host.Outcome State Fault Refusal :=
  if s.blockOnDevice z A r c then .refused .deviceMemory
  else if s.blockOnOwnBytes z A c len then .refused .storeIntoCode
  else
    match s.check A r (s.idxRsi A) z.bytes .read with
    | .refused => .refused .offsetWrap
    | .raises f fs =>
      raiseFault (s.chooseFault f (fs ++ newFaults (f :: fs) (s.check A .es (s.idxRdi A) z.bytes .write).faults))
    | .ok src =>
      match s.check A .es (s.idxRdi A) z.bytes .write with
      | .refused => .refused .offsetWrap
      | .raises f fs => raiseFault (s.chooseFault f fs)
      | .ok dst => .next (moveElement z A src dst s)

/-- What every form does before its operands are looked at: #UD for a LOCK prefix (R63, R105); no quadword
form outside 64-bit mode (R66); the address of the following instruction (R19, R67). -/
def begin (z : OpSize) (p : Spelling) (s : State) : Host.Outcome Word Fault Refusal :=
  if p.has .lock then .fault .ud
  else if z = .qword ∧ s.mode ≠ .long64 then .refused .quadOutsideLong64
  else
    match s.nextPc p.len with
    | none => .refused .pcOverflow
    | some pc => .next pc

/-- A form without REP: one element, then `pc + Len`, R90. -/
def movsOnce (z : OpSize) (p : Spelling) (s : State) : Host.Outcome State Fault Refusal :=
  match begin z p s with
  | .fault f => raiseFault f
  | .refused e => .refused e
  | .next pc =>
    match movsElement z (addrSizeOf s.codeCtx p) (srcSegOf s.codeCtx p) p.len 1 s with
    | .fault f => raiseFault f
    | .refused e => .refused e
    | .next s' => .next (s'.setPc pc)

/-- MOVS m8, m8, R80. -/
def execMovsM8M8 (p : Spelling) (s : State) : Host.Outcome State Fault Refusal := movsOnce .byte p s

/-- MOVS m16, m16, R81. -/
def execMovsM16M16 (p : Spelling) (s : State) : Host.Outcome State Fault Refusal := movsOnce .word p s

/-- MOVS m32, m32, R82. -/
def execMovsM32M32 (p : Spelling) (s : State) : Host.Outcome State Fault Refusal := movsOnce .dword p s

/-- MOVS m64, m64, R83. -/
def execMovsM64M64 (p : Spelling) (s : State) : Host.Outcome State Fault Refusal := movsOnce .qword p s

/-- MOVSB, R76. -/
def execMovsb (p : Spelling) (s : State) : Host.Outcome State Fault Refusal := movsOnce .byte p s

/-- MOVSW, R77. -/
def execMovsw (p : Spelling) (s : State) : Host.Outcome State Fault Refusal := movsOnce .word p s

/-- MOVSD, R78. -/
def execMovsd (p : Spelling) (s : State) : Host.Outcome State Fault Refusal := movsOnce .dword p s

/-- MOVSQ, R79. -/
def execMovsq (p : Spelling) (s : State) : Host.Outcome State Fault Refusal := movsOnce .qword p s

end Sys2Proof.Machine
end

