-- ==== Sys2Proof/Machine/RepMovs.lean ====
section
/-! DEFINITION. The REP forms (41_rep_movs.md): one step is at most one element. -/

namespace Sys2Proof.Machine

/-- `RepMovs(OpSize, AddrSize, SrcSeg)`, R93, one step. A zero count completes the instruction without an
operand check (R99); an exception leaves the state of the completed iterations (R100). What R45 and R50 refuse is
looked for in all the iterations left, so the launch is refused before its first one. -/
def repMovs (z : OpSize) (p : Spelling) (s : State) : Host.Outcome State Fault Refusal :=
  match begin z p s with
  | .fault f => raiseFault f
  | .refused e => .refused e
  | .next pc =>
    let A := addrSizeOf s.codeCtx p
    let c := s.idxRcx A
    if c = 0 then .next (s.setPc pc)
    else
      match movsElement z A (srcSegOf s.codeCtx p) p.len c.toNat s with
      | .fault f => raiseFault f
      | .refused e => .refused e
      | .next s' =>
        let s'' := s'.setRcx A (c - 1)
        if c - 1 = 0 then .next (s''.setPc pc) else .next s''

/-- REP MOVSB, R94. -/
def execRepMovsb (p : Spelling) (s : State) : Host.Outcome State Fault Refusal := repMovs .byte p s

/-- REP MOVSW, R95. -/
def execRepMovsw (p : Spelling) (s : State) : Host.Outcome State Fault Refusal := repMovs .word p s

/-- REP MOVSD, R96. -/
def execRepMovsd (p : Spelling) (s : State) : Host.Outcome State Fault Refusal := repMovs .dword p s

/-- REP MOVSQ, R97. -/
def execRepMovsq (p : Spelling) (s : State) : Host.Outcome State Fault Refusal := repMovs .qword p s

end Sys2Proof.Machine
end

