-- ==== Sys2Proof/Machine/Dispatch.lean ====
section
/-! DEFINITION. Every instruction's meaning, one arm per constructor of Instr. -/

namespace Sys2Proof.Machine

/-- The meaning of an instruction, 40_movs.md and 41_rep_movs.md. -/
def exec (i : Instr) (s : State) : Host.Outcome State Fault Refusal :=
  match i with
  | .movsM8M8 p => Sys2Proof.Machine.execMovsM8M8 p s
  | .movsM16M16 p => Sys2Proof.Machine.execMovsM16M16 p s
  | .movsM32M32 p => Sys2Proof.Machine.execMovsM32M32 p s
  | .movsM64M64 p => Sys2Proof.Machine.execMovsM64M64 p s
  | .movsb p => Sys2Proof.Machine.execMovsb p s
  | .movsw p => Sys2Proof.Machine.execMovsw p s
  | .movsd p => Sys2Proof.Machine.execMovsd p s
  | .movsq p => Sys2Proof.Machine.execMovsq p s
  | .repMovsb p => Sys2Proof.Machine.execRepMovsb p s
  | .repMovsw p => Sys2Proof.Machine.execRepMovsw p s
  | .repMovsd p => Sys2Proof.Machine.execRepMovsd p s
  | .repMovsq p => Sys2Proof.Machine.execRepMovsq p s

end Sys2Proof.Machine
end

