-- ==== Sys2Proof/Machine/Fetch.lean ====
section
/-! DEFINITION. Fetching an instruction's bytes (20_memory.md R50) and decoding them under the code
attributes of the state (30_encoding.md R69). -/

namespace Sys2Proof.Machine

/-- The bytes at `CS:pc`, read from the same memory as data (R50): up to the longest admitted instruction,
ending before the first byte that cannot be fetched. -/
def State.fetchBytes (s : State) : List Byte :=
  Memory.readAll s.mem (s.codeAddrs maxInsnBytes)

/-- The decoder's answer for the bytes at `CS:pc`, R11, R69. -/
def State.fetchDecode (s : State) : Decoded :=
  decode s.codeCtx s.fetchBytes

/-- Whether the run has stored to a byte of the instruction at `pc`, R50. -/
def State.storedCode (s : State) (i : Instr) : Bool :=
  overlaps (s.codeAddrs i.spelling.len) s.stored

/-- The model's counter of the free value advances (log entry 6). -/
def State.tick (s : State) : State :=
  { s with freeIndex := s.freeIndex + 1 }

/-- The state with bytes placed at `CS:pc` from outside the machine, as a loader does. -/
def State.loadCode (s : State) (bytes : List Byte) : State :=
  { s with
    mem := Memory.writeAll s.mem (s.codeAddrs bytes.length) bytes
    stored := s.stored.filter (fun a => !(s.codeAddrs bytes.length).contains a) }

end Sys2Proof.Machine
end

