-- ==== Sys2Proof/Machine/Step.lean ====
section
/-! DEFINITION. One step of the machine (00_scope.md R11): fetch, decode, execute. -/

namespace Sys2Proof.Machine

/-- One step, R11: decode the bytes at `pc`, then perform the instruction's rule. Bytes the run has stored
to are not executed (R50, U11); that they are refused when they are executed, not when they are stored to, is the
model's choice (DESIGN CHOICE, log entry 13); so is that this refusal comes before the #UD of a LOCK prefix
(R63, R105). The model's counter of the free value advances with every
completed step (log entry 6). -/
def step (s : State) : Host.Outcome State Fault Refusal :=
  match s.fetchDecode with
  | .badSpelling => .refused .badSpelling
  | .repne => .refused .repnePrefix
  | .notInScope => .refused .notInScope
  | .truncated => .refused .fetchFault
  | .insn i =>
    if s.storedCode i then .refused .storeIntoCode
    else
      match exec i s with
      | .next t => .next t.tick
      | .fault f => .fault f
      | .refused e => .refused e

/-- `s` with the instruction word `w` of the opcode table (`nbits` bits, the rest zero) stored where the
next step fetches, from outside the machine: in 64-bit mode, which is the mode the table spells its words
for (log entry 4), and not among the bytes the run has stored to. -/
def State.withFetchWord (s : State) (nbits w : Nat) : State :=
  State.loadCode { s with mode := .long64 } (tableBytes nbits w)

end Sys2Proof.Machine
end

