-- ==== Sys2Proof/Machine/Run.lean ====
section
/-! DEFINITION. A run of the machine and its end (70_reset_and_hazards.md R133): the machine has no halt, a run
ends where `pc` is the exit address that a claim names. -/

namespace Sys2Proof.Machine

/-- What running up to an exit address with a bound on the number of steps answers, R133. -/
inductive RunOutcome where
  /-- `pc` is the exit address, and no step before answered a fault or a refusal: the final state. -/
  | ended (s : State)
  /-- A step raised an exception. Never a final state. -/
  | fault (f : Fault)
  /-- A step was refused. Never a final state. -/
  | refused (e : Refusal)
  /-- The steps are used up and `pc` has not been the exit address. -/
  | running (s : State)
  deriving DecidableEq, Repr

/-- A run from a state to the exit address, of at most so many steps, R133: it ends in the first state in which
`pc` is the exit address, compared as the offset that is used for fetch (R19, log entry 28). -/
def runTo (exit : Nat) : Nat → State → RunOutcome
  | 0, s => if s.ipOffset = exit then .ended s else .running s
  | k + 1, s =>
    if s.ipOffset = exit then .ended s
    else
      match step s with
      | .next t => runTo exit k t
      | .fault f => .fault f
      | .refused e => .refused e

end Sys2Proof.Machine
end

