-- ==== Sys2Proof/Safety.lean ====
section
/-! DEFINITION. What counts as a safe run, in the terms the statements use: when an access and an instruction
raise nothing (20_memory.md R38 to R45, 60_exceptions.md section 3), what an instruction leaves alone
(10_state.md R28), and the invariant of the machine. -/

namespace Sys2Proof.Machine

/-! ### When an instruction executes normally -/

/-- The access of `n` bytes through `r` at offset `off` raises no exception and is not refused, condition by
condition: NULL selector (R113), segment type (R111), limit (R112, R114), canonical form (R115), offset wrap
(R41), alignment (R117), page fault (R116). -/
structure AccessOk (s : State) (A : AddrSize) (r : SegReg) (off : Word) (n : Nat) (k : AccessKind) : Prop where
  notNull : s.mode = .prot ∨ s.mode = .compat → s.nullSeg r = false
  rightType : s.mode = .prot ∨ s.mode = .compat → s.wrongType r k = false
  withinLimit : s.mode ≠ .long64 → (s.segOf r).inLimit off.toNat n = true
  inCanonicalForm : s.mode = .long64 → ∀ a ∈ linBytes (s.lin r off) n, canonical s.cfg.vaBits a = true
  noWrap : off.toNat + n ≤ 2 ^ A.bits
  noLinearWrap : (s.lin r off).toNat + n ≤ (if s.mode = .long64 then 2 ^ 64 else 2 ^ 32)
  alignedOrUnchecked : s.alignCheckEnabled = true → s.mode ≠ .real → (s.mode = .v86 ∨ s.cpl = 3) →
    (s.lin r off).toNat % n = 0
  noPageFault : ∀ a ∈ linBytes (s.lin r off) n, (physOf (s.translate a k)).isSome = true

/-- The source address of an instruction's element as physical bytes, R92. -/
def State.srcBytes (s : State) (z : OpSize) (p : Spelling) : List Nat :=
  s.physBytes (srcSegOf s.codeCtx p) (s.idxRsi (addrSizeOf s.codeCtx p)) z.bytes .read

/-- The destination address of an instruction's element as physical bytes, R92. -/
def State.dstBytes (s : State) (z : OpSize) (p : Spelling) : List Nat :=
  s.physBytes .es (s.idxRdi (addrSizeOf s.codeCtx p)) z.bytes .write

/-- The source read of an instruction's element is admitted. -/
abbrev SrcOk (z : OpSize) (p : Spelling) (s : State) : Prop :=
  AccessOk s (addrSizeOf s.codeCtx p) (srcSegOf s.codeCtx p) (s.idxRsi (addrSizeOf s.codeCtx p)) z.bytes .read

/-- The destination write of an instruction's element is admitted. -/
abbrev DstOk (z : OpSize) (p : Spelling) (s : State) : Prop :=
  AccessOk s (addrSizeOf s.codeCtx p) .es (s.idxRdi (addrSizeOf s.codeCtx p)) z.bytes .write

/-- The instruction can start: no LOCK prefix (R105), a quadword form in 64-bit mode only (R66), and
`pc + Len` inside the code segment (R19). -/
structure StartOk (z : OpSize) (p : Spelling) (s : State) : Prop where
  noLock : p.has .lock = false
  quadIn64 : z = .qword → s.mode = .long64
  nextInCode : s.codeOffsetOk (s.ipOffset + p.len) = true

/-- The state after one element move, written from R31 and R75: the destination bytes become the source
bytes as they were, and both index registers are stepped. -/
def State.moved (s : State) (z : OpSize) (p : Spelling) : State :=
  let A := addrSizeOf s.codeCtx p
  { s with
    mem := Memory.writeAll s.mem (s.dstBytes z p) (Memory.readAll s.mem (s.srcBytes z p))
    stored := (s.dstBytes z p).foldr insertAddr s.stored
    rsi := setLow s.mode A s.rsi (stepIndex A s.df z.bytes (s.idxRsi A))
    rdi := setLow s.mode A s.rdi (stepIndex A s.df z.bytes (s.idxRdi A)) }

/-- The state after one iteration of a REP form with a count that is not zero, R93: the element is moved, the
count goes down by one, and `pc` moves on when it has reached zero. -/
def State.iterated (s : State) (z : OpSize) (p : Spelling) : State :=
  let A := addrSizeOf s.codeCtx p
  { s.moved z p with
    rcx := setLow s.mode A s.rcx (s.idxRcx A - 1)
    pc := if s.idxRcx A = 1 then s.pc + BitVec.ofNat 64 p.len else s.pc }

/-- An instruction with REP looks at its operands only when the count is not zero (R93, R99). -/
def MovesElement (i : Instr) (s : State) : Prop :=
  i.isRep = true → s.idxRcx (addrSizeOf s.codeCtx i.spelling) ≠ 0

/-! ### When an access raises an exception -/

/-- The exception of a limit or canonical-form condition: #SS through SS, #GP otherwise; no error code in
real-address mode, 0 otherwise (R112, R114, R115). -/
def rangeFault (m : Mode) (r : SegReg) : Fault :=
  if r = .ss then .ss (if m = .real then none else some 0) else .gp (if m = .real then none else some 0)

/-- The access alone would raise the segment-level exception `f`: a NULL selector or a wrong segment type
(R111, R113), an offset outside the limit (R112, R114), a non-canonical byte (R115). -/
def SegRaises (s : State) (r : SegReg) (off : Word) (n : Nat) (k : AccessKind) (f : Fault) : Prop :=
  ((s.mode = .prot ∨ s.mode = .compat) ∧ (s.nullSeg r = true ∨ s.wrongType r k = true) ∧ f = .gp (some 0)) ∨
    (s.mode ≠ .long64 ∧ (s.segOf r).inLimit off.toNat n = false ∧ f = rangeFault s.mode r) ∨
    (s.mode = .long64 ∧ (∃ a ∈ linBytes (s.lin r off) n, canonical s.cfg.vaBits a = false) ∧
      f = rangeFault s.mode r)

/-- The access alone would raise `f`: a segment-level exception; or, where no segment-level exception
applies and the access does not wrap (R41), #AC (R117) or #PF for the lowest byte that faults (R116). -/
def AccessRaises (s : State) (A : AddrSize) (r : SegReg) (off : Word) (n : Nat) (k : AccessKind) (f : Fault) : Prop :=
  SegRaises s r off n k f ∨
    ((∀ g, ¬ SegRaises s r off n k g) ∧ off.toNat + n ≤ 2 ^ A.bits ∧
      (s.lin r off).toNat + n ≤ (if s.mode = .long64 then 2 ^ 64 else 2 ^ 32) ∧
      ((f = .ac 0 ∧ s.alignCheckEnabled = true ∧ s.mode ≠ .real ∧ (s.mode = .v86 ∨ s.cpl = 3) ∧
          (s.lin r off).toNat % n ≠ 0) ∨
        ∃ before a after c, linBytes (s.lin r off) n = before ++ a :: after ∧ s.translate a k = .pageFault c ∧
          (∀ x ∈ before, (physOf (s.translate x k)).isSome = true) ∧ f = .pf c a))

/-- The source read of an instruction's element would raise `f`: `f` is in `X_src` of R119. -/
abbrev SrcRaises (z : OpSize) (p : Spelling) (s : State) (f : Fault) : Prop :=
  AccessRaises s (addrSizeOf s.codeCtx p) (srcSegOf s.codeCtx p) (s.idxRsi (addrSizeOf s.codeCtx p)) z.bytes .read f

/-- The destination write of an instruction's element would raise `f`: `f` is in `X_dst` of R119. -/
abbrev DstRaises (z : OpSize) (p : Spelling) (s : State) (f : Fault) : Prop :=
  AccessRaises s (addrSizeOf s.codeCtx p) .es (s.idxRdi (addrSizeOf s.codeCtx p)) z.bytes .write f

/-- The source read is the case of R41's second item (U10). -/
abbrev SrcWraps4G (z : OpSize) (p : Spelling) (s : State) : Prop :=
  s.wraps4G (srcSegOf s.codeCtx p) (s.idxRsi (addrSizeOf s.codeCtx p)) z.bytes = true

/-- The destination write is the case of R41's second item (U10). -/
abbrev DstWraps4G (z : OpSize) (p : Spelling) (s : State) : Prop :=
  s.wraps4G .es (s.idxRdi (addrSizeOf s.codeCtx p)) z.bytes = true

/-- The access reaches the bytes of its range: no segment-level exception stops it (R119 item 2) and it does not
wrap (R41). It may still raise #AC or #PF. -/
structure Reaches (s : State) (A : AddrSize) (r : SegReg) (off : Word) (n : Nat) (k : AccessKind) : Prop where
  noSegFault : ∀ f, ¬ SegRaises s r off n k f
  noWrap : off.toNat + n ≤ 2 ^ A.bits
  noLinearWrap : (s.lin r off).toNat + n ≤ (if s.mode = .long64 then 2 ^ 64 else 2 ^ 32)

/-- How many elements an instruction has still to move: the count of a REP form (R93), one without REP (R90). -/
def elementsOf (i : Instr) (s : State) : Nat :=
  if i.isRep then (s.idxRcx (addrSizeOf s.codeCtx i.spelling)).toNat else 1

/-- The offset of element `j` of the source, R102. -/
def State.srcIndex (s : State) (z : OpSize) (p : Spelling) (j : Nat) : Word :=
  indexAfter (addrSizeOf s.codeCtx p) s.df z.bytes (s.idxRsi (addrSizeOf s.codeCtx p)) j

/-- The offset of element `j` of the destination, R102. -/
def State.dstIndex (s : State) (z : OpSize) (p : Spelling) (j : Nat) : Word :=
  indexAfter (addrSizeOf s.codeCtx p) s.df z.bytes (s.idxRdi (addrSizeOf s.codeCtx p)) j

/-- A byte that the source read or the destination write of one of the first `c` elements reaches is device memory,
R45. -/
def ReachesDevice (z : OpSize) (p : Spelling) (c : Nat) (s : State) : Prop :=
  let A := addrSizeOf s.codeCtx p
  let r := srcSegOf s.codeCtx p
  ∃ j < c,
    (Reaches s A r (s.srcIndex z p j) z.bytes .read ∧ s.onDevice (s.physBytes r (s.srcIndex z p j) z.bytes .read) = true) ∨
      (Reaches s A .es (s.dstIndex z p j) z.bytes .write ∧
        s.onDevice (s.physBytes .es (s.dstIndex z p j) z.bytes .write) = true)

/-- A byte that the destination write of one of the first `c` elements reaches is one of the instruction's own, R50. -/
def MeetsOwnBytes (z : OpSize) (p : Spelling) (c : Nat) (s : State) : Prop :=
  ∃ j < c, Reaches s (addrSizeOf s.codeCtx p) .es (s.dstIndex z p j) z.bytes .write ∧
    ∃ a ∈ s.physBytes .es (s.dstIndex z p j) z.bytes .write, a ∈ s.codeAddrs p.len

/-- The launch is one that neither R45 nor R50 refuses, over all of its `c` elements. -/
structure LaunchOk (z : OpSize) (p : Spelling) (c : Nat) (s : State) : Prop where
  noDevice : ¬ ReachesDevice z p c s
  notOwnBytes : ¬ MeetsOwnBytes z p c s

/-- One element can be moved, of an instruction with `c` elements still to move: both accesses are admitted, and the
launch is not refused (R45, R50). -/
structure MoveOk (z : OpSize) (p : Spelling) (c : Nat) (s : State) : Prop where
  srcOk : SrcOk z p s
  dstOk : DstOk z p s
  launchOk : LaunchOk z p c s

/-! ### What an instruction leaves alone -/

/-- Everything no instruction of the family writes is the same in two states, R28: the other general
registers (R16), the flags (R21), the control state (R22), the segment registers (R23), the parameters of
the environment (R26). -/
structure SameEnv (s t : State) : Prop where
  other : t.other = s.other
  eflags : t.eflags = s.eflags
  mode : t.mode = s.mode
  cpl : t.cpl = s.cpl
  alignCheckEnabled : t.alignCheckEnabled = s.alignCheckEnabled
  codeDefault16 : t.codeDefault16 = s.codeDefault16
  seg : t.seg = s.seg
  cfg : t.cfg = s.cfg

/-- The bits of an index or count register that a claim may read: outside 64-bit mode bits 63..32 are not
observable (R18, U8). -/
def visibleBits (m : Mode) (v : Word) : Word :=
  match m with
  | .long64 => v
  | .real | .prot | .v86 | .compat => lowBits .a32 v

/-- Two states are the same in everything a claim may read (R18). -/
structure SameVisible (s t : State) : Prop where
  env : SameEnv s t
  rsi : visibleBits s.mode t.rsi = visibleBits s.mode s.rsi
  rdi : visibleBits s.mode t.rdi = visibleBits s.mode s.rdi
  rcx : visibleBits s.mode t.rcx = visibleBits s.mode s.rcx
  pc : t.pc = s.pc
  mem : t.mem = s.mem
  stored : t.stored = s.stored
  freeIndex : t.freeIndex = s.freeIndex

/-! ### The invariant -/

/-- A strictly rising list of addresses. -/
def risingAddrs : List Nat → Bool
  | [] => true
  | x :: xs => xs.all (fun y => x < y) && risingAddrs xs

/-- The limit and attributes of a segment register in real-address and virtual-8086 mode, R23. -/
def SegState.realLimit (d : SegState) : Bool :=
  d.limit == 0xFFFF && !d.expandDown && !d.null && d.writable && d.readable

/-- A segment register as real-address and virtual-8086 mode have it, R23: besides, its base is 16 times a 16-bit
selector. -/
def SegState.realShape (d : SegState) : Bool :=
  d.realLimit && d.base.toNat % 16 == 0 && d.base.toNat / 16 < 2 ^ 16

/-- CS in real-address mode: as R23 has it, or with the base it has after reset (R27, log entry 1). -/
def SegState.realCsShape (d : SegState) : Bool :=
  d.realShape || (d.realLimit && d.base == State.reset.seg.cs.base)

/-- In real-address and virtual-8086 mode the segment registers are as R23 has them. -/
def State.realSegs (s : State) : Bool :=
  let rest := s.seg.ss.realShape && s.seg.ds.realShape && s.seg.es.realShape && s.seg.fs.realShape && s.seg.gs.realShape
  match s.mode with
  | .real => s.seg.cs.realCsShape && rest
  | .v86 => s.seg.cs.realShape && rest
  | .prot | .compat | .long64 => true

/-- The invariant of the machine: memory and the list of stored addresses are in canonical form, `pc` is an
offset an instruction may start at (R19, U9), the segment registers have the shape their mode gives them
(R23). -/
structure Inv (s : State) : Prop where
  memCanonical : Memory.wf s.mem = true
  storedRising : risingAddrs s.stored = true
  pcInCode : s.codeOffsetOk s.ipOffset = true
  segShape : s.realSegs = true

/-! ### Runs of one instruction -/

/-- `k` executions of one instruction one after the other, stopping at the first that has no next state:
the iterations of a REP form (R93, R102). -/
def execTimes (i : Instr) : Nat → State → Host.Outcome State Fault Refusal
  | 0, s => .next s
  | k + 1, s =>
    match exec i s with
    | .next t => execTimes i k t
    | .fault f => .fault f
    | .refused e => .refused e

/-- The memory after `k` element moves of a block, one after the other, each seeing the memory the moves
before it left (R102): move `j` copies `n` bytes from source offset `idx ± j*n` to destination offset
`idx ± j*n`. Addresses are formed in the state `s`. -/
def State.blockMem (s : State) (z : OpSize) (p : Spelling) : Nat → List Host.Cell
  | 0 => s.mem
  | j + 1 =>
    let A := addrSizeOf s.codeCtx p
    let m := s.blockMem z p j
    Memory.writeAll m
      (s.physBytes .es (indexAfter A s.df z.bytes (s.idxRdi A) j) z.bytes .write)
      (Memory.readAll m (s.physBytes (srcSegOf s.codeCtx p) (indexAfter A s.df z.bytes (s.idxRsi A) j) z.bytes .read))

/-- A run from `s` to the exit address ends, in `t`, R133. -/
def EndsAt (exit : Nat) (s t : State) : Prop :=
  ∃ k, runTo exit k s = .ended t

/-- `k` steps one after the other, stopping at the first that has no next state. -/
def stepTimes : Nat → State → Host.Outcome State Fault Refusal
  | 0, s => .next s
  | k + 1, s =>
    match step s with
    | .next t => stepTimes k t
    | .fault f => .fault f
    | .refused e => .refused e

/-! ### Reading an outcome -/

/-- The next state of an outcome, if it has one. -/
def nextOf : Host.Outcome State Fault Refusal → Option State
  | .next s => some s
  | .fault _ => none
  | .refused _ => none

/-- The exception of an outcome, if it is one. -/
def faultOf : Host.Outcome State Fault Refusal → Option Fault
  | .next _ => none
  | .fault f => some f
  | .refused _ => none

/-- The refusal of an outcome, if it is one. -/
def refusalOf : Host.Outcome State Fault Refusal → Option Refusal
  | .next _ => none
  | .fault _ => none
  | .refused e => some e

end Sys2Proof.Machine
end

