-- ==== Sys2Proof/Certificates/Slice0/Obligations.lean ====
section
/-! DEFINITION. The statements for the provers, from the numbered rules of spec/. A statement about a state
holds for every value of the environment's parameters (`State.cfg`) and of the free value of R119. -/

section
open Sys2Proof Sys2Proof.Machine

/-! ### Encoding -/

/-- R53, R57, R69, R73, R80 to R83: every well-formed instruction is what its bytes decode to, whatever
follows them; an explicit-operands form decodes to its no-operands form, which has the same bytes. -/
def Obligations.DecodeOfEncodeIsTheInstruction : Prop :=
  ∀ (c : CodeCtx) (i : Instr) (rest : List Byte), i.wf c = true →
    decode c (encode i ++ rest) = .insn i.noOperands

/-- R57, R69, R74, R80 to R83: what decodes to an instruction is the bytes of a well-formed one in its
no-operands form, at most 7 of them, and then bytes that are not looked at. -/
def Obligations.DecodedBytesAreAnEncoding : Prop :=
  ∀ (c : CodeCtx) (bytes : List Byte) (i : Instr), decode c bytes = .insn i →
    i.wf c = true ∧ i.noOperands = i ∧ (encode i).length ≤ 7 ∧ (encode i).length = i.spelling.len ∧
      ∃ rest, bytes = encode i ++ rest

/-- R57: legacy prefixes with two of one group are refused whatever follows them, and so is a REX byte that a
legacy prefix or a second REX byte follows. -/
def Obligations.BadSpellingsAreRefused : Prop :=
  (∀ (c : CodeCtx) (l : List LegacyPfx) (rest : List Byte), distinctGroups l = false →
      decode c (l.map LegacyPfx.byte ++ rest) = .badSpelling) ∧
    (∀ (c : CodeCtx) (l : List LegacyPfx) (w : BitVec 4) (b : Byte) (rest : List Byte), distinctGroups l = true →
      c.mode = .long64 → (legacyOf b).isSome = true ∨ isRex b = true →
      decode c (l.map LegacyPfx.byte ++ rexByte w :: b :: rest) = .badSpelling)

/-- R65, R69: an admitted spelling with 0xF2 is refused, and with LOCK beside it decodes to an instruction
that carries LOCK. -/
def Obligations.RepneIsRefusedUnlessLocked : Prop :=
  ∀ (c : CodeCtx) (p : Spelling) (op : Byte) (rest : List Byte), p.wf c = true → p.has .repne = true →
    op = opcodeA4 ∨ op = opcodeA5 →
    (p.has .lock = false → decode c (p.encode ++ op :: rest) = .repne) ∧
      (p.has .lock = true → ∃ i, decode c (p.encode ++ op :: rest) = .insn i ∧ i.spelling = p)

/-- R66: outside 64-bit mode no byte string is a quadword move, and a byte 0x40 to 0x4F is not in scope; every other
row is valid in every mode, and the quadword rows in 64-bit mode. -/
def Obligations.NoQuadwordMoveOutside64BitMode : Prop :=
  ∀ (c : CodeCtx),
    (c.mode ≠ .long64 →
      (∀ bytes i, decode c bytes = .insn i → i.size ≠ .qword) ∧
        (∀ (b : Byte) (rest : List Byte), 0x40 ≤ b.toNat → b.toNat ≤ 0x4F → decode c (b :: rest) = .notInScope)) ∧
      ∀ (z : OpSize) (rep : Bool), z ≠ .qword ∨ c.mode = .long64 →
        ∃ bytes p, decode c bytes = .insn (rowOf z rep p)

/-- R64: what the bytes decode to is a REP form exactly when a prefix 0xF3 is among its bytes, and then it means what
41_rep_movs.md says (`repMovs`); otherwise it means what 40_movs.md says (`movsOnce`). -/
def Obligations.RepPrefixSelectsTheRepForm : Prop :=
  ∀ (c : CodeCtx) (bytes : List Byte) (i : Instr), decode c bytes = .insn i →
    (i.isRep = true ↔ (0xF3 : Byte) ∈ encode i) ∧
      ∀ s, (i.isRep = true → exec i s = repMovs i.size i.spelling s) ∧
        (i.isRep = false → exec i s = movsOnce i.size i.spelling s)

/-- R66, U1: a quadword form outside 64-bit mode, which no bytes decode to, is refused by name. -/
def Obligations.QuadwordFormsStopOutside64BitMode : Prop :=
  ∀ (p : Spelling) (s : State), p.has .lock = false → s.mode ≠ .long64 →
    exec (.movsq p) s = .refused .quadOutsideLong64 ∧ exec (.movsM64M64 p) s = .refused .quadOutsideLong64 ∧
      exec (.repMovsq p) s = .refused .quadOutsideLong64

/-- Words written out from the opcode table's 64-bit spellings (R73) decode to their rows, and so do byte strings of
32-bit and 16-bit code. That bits 7..0 of a word are its first byte and that words are read in 64-bit mode is the
model's choice (log entry 4). -/
def Obligations.WordsOfTheTableDecode : Prop :=
  decodeTableWord 8 0xA4 = some (.movsb ⟨[], none⟩) ∧
    decodeTableWord 16 0xA566 = some (.movsw ⟨[.opSize], none⟩) ∧
    decodeTableWord 16 0xA548 = some (.movsq ⟨[], some 0x8⟩) ∧
    decodeTableWord 24 0xA548F3 = some (.repMovsq ⟨[.rep], some 0x8⟩) ∧
    decode ⟨.prot, false, false⟩ [0xA5] = .insn (.movsd ⟨[], none⟩) ∧
    decode ⟨.real, true, false⟩ [0xF3, 0x66, 0xA5] = .insn (.repMovsd ⟨[.rep, .opSize], none⟩)

/-- R58, the whole table: the address size by mode, `DefaultSize16` and the prefix 0x67. -/
def Obligations.AddressSizeFollowsModeAndPrefix : Prop :=
  ∀ (c : CodeCtx) (p : Spelling),
    (c.mode = .long64 → p.has .addrSize = false → addrSizeOf c p = .a64) ∧
      (c.mode = .long64 → p.has .addrSize = true → addrSizeOf c p = .a32) ∧
      (c.mode ≠ .long64 → c.default16 = false → p.has .addrSize = false → addrSizeOf c p = .a32) ∧
      (c.mode ≠ .long64 → c.default16 = false → p.has .addrSize = true → addrSizeOf c p = .a16) ∧
      (c.mode ≠ .long64 → c.default16 = true → p.has .addrSize = false → addrSizeOf c p = .a16) ∧
      (c.mode ≠ .long64 → c.default16 = true → p.has .addrSize = true → addrSizeOf c p = .a32)

/-- R62: an admitted spelling followed by opcode byte A4 or A5 (without 0xF2, or with LOCK beside it) decodes to an
instruction with those prefixes, whose element size is the byte for A4 whatever the prefixes, and for A5 what mode,
`DefaultSize16`, 0x66 and REX.W select (the spec's decision D2). -/
def Obligations.ElementSizeFollowsOpcodeAndPrefixes : Prop :=
  ∀ (c : CodeCtx) (p : Spelling) (op : Byte) (rest : List Byte), p.wf c = true → op = 0xA4 ∨ op = 0xA5 →
    p.has .repne = false ∨ p.has .lock = true →
    ∃ i, decode c (p.encode ++ op :: rest) = .insn i ∧ i.spelling = p ∧
      (op = 0xA4 → i.size = .byte) ∧
      (op = 0xA5 → c.mode = .long64 →
        i.size = if p.rexW then .qword else if p.has .opSize then .word else .dword) ∧
      (op = 0xA5 → c.mode ≠ .long64 → c.default16 = false → i.size = if p.has .opSize then .word else .dword) ∧
      (op = 0xA5 → c.mode ≠ .long64 → c.default16 = true → i.size = if p.has .opSize then .dword else .word)

/-- R60: the source segment is DS without an override; outside 64-bit mode an override names it; in 64-bit
mode only FS and GS are honoured, and SS where the parameter says so. -/
def Obligations.SourceSegmentFollowsOverride : Prop :=
  ∀ (c : CodeCtx) (p : Spelling) (before after : List LegacyPfx) (r : SegReg),
    ((∀ q, LegacyPfx.seg q ∉ p.legacy) → srcSegOf c p = .ds) ∧
      (p.legacy = before ++ .seg r :: after → (∀ q, LegacyPfx.seg q ∉ before) →
        (c.mode ≠ .long64 → srcSegOf c p = r) ∧
          (c.mode = .long64 →
            srcSegOf c p =
              if r = .fs ∨ r = .gs ∨ (r = .ss ∧ c.ssHonoured = true) then r else .ds))

/-! ### The step -/

/-- R11: where the bytes at `pc` decode to an instruction, the step is that instruction's meaning, and the
model's counter of the free value advances (log entry 6). That an instruction whose bytes the run has stored to is
refused when it is executed, where R50 speaks of the storing one, is the model's choice (log entry 13), also where it
carries LOCK and would only raise #UD (R63, R105). -/
def Obligations.StepRunsTheDecodedInstruction : Prop :=
  ∀ (s : State) (i : Instr), decode s.codeCtx s.fetchBytes = .insn i →
    (s.storedCode i = false →
      (∀ t, exec i s = .next t → step s = .next t.tick) ∧ (∀ f, exec i s = .fault f → step s = .fault f) ∧
        ∀ e, exec i s = .refused e → step s = .refused e) ∧
      (s.storedCode i = true → step s = .refused .storeIntoCode)

/-- R50, R19: the bytes that a step decodes are those at `CS:pc`: the part of `pc` that the instruction-pointer width
keeps is the offset, and without paging, where the offsets lie in the code segment and the linear address does not
wrap, the addresses are consecutive from base plus offset; CS counts with base 0 in 64-bit mode. A step reads 7 of
them. -/
def Obligations.FetchReadsTheBytesAtCsPc : Prop :=
  ∀ s : State,
    let first := if s.mode = .long64 then s.ipOffset else (s.seg.cs.base.toNat % 2 ^ 32 + s.ipOffset) % 2 ^ 32
    (s.mode = .long64 → s.ipOffset = s.pc.toNat) ∧
      (s.mode ≠ .long64 → s.default16 = false → s.ipOffset = s.pc.toNat % 2 ^ 32) ∧
      (s.mode ≠ .long64 → s.default16 = true → s.ipOffset = s.pc.toNat % 2 ^ 16) ∧
      (∀ k : Nat, s.mode = .real ∨ s.cfg.translate = [] → (∀ j < k, s.codeOffsetOk (s.ipOffset + j) = true) →
        first + k ≤ (if s.mode = .long64 then 2 ^ 64 else 2 ^ 32) → s.codeAddrs k = List.range' first k) ∧
      s.fetchBytes = (s.codeAddrs 7).map (Memory.read s.mem)

/-- R11, R12, R65, R57, R50: where the bytes at `pc` are no instruction the step refuses by name. -/
def Obligations.StepRefusesWhatDoesNotDecode : Prop :=
  ∀ (s : State),
    (decode s.codeCtx s.fetchBytes = .notInScope → step s = .refused .notInScope) ∧
      (decode s.codeCtx s.fetchBytes = .badSpelling → step s = .refused .badSpelling) ∧
      (decode s.codeCtx s.fetchBytes = .repne → step s = .refused .repnePrefix) ∧
      (decode s.codeCtx s.fetchBytes = .truncated → step s = .refused .fetchFault)

/-- The model's own (log entries 1 and 4): after reset, with a word of the opcode table placed where the next
step fetches, that step runs the instruction the word decodes to. -/
def Obligations.ResetRunsATableWord : Prop :=
  ∀ (nbits w : Nat) (i : Instr), decodeTableWord nbits w = some i →
    ∀ t, exec i (State.reset.withFetchWord nbits w) = .next t →
      step (State.reset.withFetchWord nbits w) = .next t.tick

/-! ### Completion and result -/

/-- R75, R90 and R76 to R83: MOVSB, MOVSW, MOVSD, MOVSQ and the four explicit-operands forms complete when the
instruction can start, both accesses are admitted, and the launch is one that neither R45 nor R50 refuses. The
destination bytes become the source bytes as they were, the index registers are stepped by `SetIdx`, `pc` goes to
`pc + Len`; all else is unchanged, but for bits 63..32 outside 64-bit mode, which no claim reads (R18). -/
def Obligations.MoveWithoutRepCompletes : Prop :=
  ∀ (i : Instr) (s : State), i.isRep = false → StartOk i.size i.spelling s → MoveOk i.size i.spelling (elementsOf i s) s →
    ∃ t, exec i s = .next t ∧
      SameVisible ((s.moved i.size i.spelling).setPc (s.pc + BitVec.ofNat 64 i.spelling.len)) t

/-- R93 and R94 to R97: an iteration of REP MOVSB, MOVSW, MOVSD or MOVSQ whose count is not zero completes when the
instruction can start, both accesses are admitted, and neither R45 nor R50 refuses the launch for this iteration or
a later one: one element is moved, the count goes down by one, and `pc` moves on exactly when the count has reached
zero. -/
def Obligations.RepIterationCompletes : Prop :=
  ∀ (i : Instr) (s : State), i.isRep = true → s.idxRcx (addrSizeOf s.codeCtx i.spelling) ≠ 0 →
    StartOk i.size i.spelling s → MoveOk i.size i.spelling (elementsOf i s) s →
    ∃ t, exec i s = .next t ∧ SameVisible (s.iterated i.size i.spelling) t

/-- R99: a REP form whose count is zero at the address size goes to `pc + Len` and changes nothing else, whatever
its operands are; with a LOCK prefix it raises #UD. -/
def Obligations.RepWithZeroCountDoesNothing : Prop :=
  ∀ (i : Instr) (s : State), i.isRep = true → s.idxRcx (addrSizeOf s.codeCtx i.spelling) = 0 →
    (StartOk i.size i.spelling s → exec i s = .next (s.setPc (s.pc + BitVec.ofNat 64 i.spelling.len))) ∧
      (i.spelling.has .lock = true → exec i s = .fault .ud)

/-- R31, R46: a completed element move copies the source bytes, as they were before the instruction, to the
destination bytes in place order, whether or not the two overlap, and leaves every other byte as it was. -/
def Obligations.ElementMoveCopiesBytesInPlaceOrder : Prop :=
  ∀ (i : Instr) (s t : State), Memory.wf s.mem = true → MovesElement i s → exec i s = .next t →
    (s.dstBytes i.size i.spelling).Nodup →
    (s.srcBytes i.size i.spelling).length = i.size.bytes ∧ (s.dstBytes i.size i.spelling).length = i.size.bytes ∧
      (∀ (j x y : Nat), (s.srcBytes i.size i.spelling)[j]? = some x → (s.dstBytes i.size i.spelling)[j]? = some y →
        Memory.read t.mem y = Memory.read s.mem x) ∧
      ∀ a, a ∉ s.dstBytes i.size i.spelling → Memory.read t.mem a = Memory.read s.mem a

/-- R31, R36, R37: without paging the bytes of an access are consecutive physical addresses from its linear
address. -/
def Obligations.WithoutPagingAccessBytesAreConsecutive : Prop :=
  ∀ (s : State) (A : AddrSize) (r : SegReg) (off : Word) (n : Nat) (k : AccessKind),
    AccessOk s A r off n k → s.mode = .real ∨ s.cfg.translate = [] →
    s.physBytes r off n k = List.range' (s.lin r off).toNat n

/-- R87: when source and destination are the same bytes, a completed instruction without REP leaves memory as it was
and still steps both index registers. -/
def Obligations.MoveOntoItselfKeepsMemory : Prop :=
  ∀ (i : Instr) (s t : State), Memory.wf s.mem = true → i.isRep = false → exec i s = .next t →
    s.srcBytes i.size i.spelling = s.dstBytes i.size i.spelling →
    (∀ a, Memory.read t.mem a = Memory.read s.mem a) ∧
      t.idxRsi (addrSizeOf s.codeCtx i.spelling) =
        stepIndex (addrSizeOf s.codeCtx i.spelling) s.df i.size.bytes (s.idxRsi (addrSizeOf s.codeCtx i.spelling)) ∧
      t.idxRdi (addrSizeOf s.codeCtx i.spelling) =
        stepIndex (addrSizeOf s.codeCtx i.spelling) s.df i.size.bytes (s.idxRdi (addrSizeOf s.codeCtx i.spelling))

/-! ### Frames -/

/-- R28, R15, R16, R22, R23: what every one of the twelve instructions may change. The environment, flags, control
state, segment registers and other general registers stay; RCX stays without REP; bits 31..16 of RSI, RDI and
RCX stay at address size 16; a REP form with a zero count changes `pc` alone; the bytes outside the destination
element stay; the model's record of stores grows by the destination bytes. -/
def Obligations.InstructionsChangeOnlyWhatTheyShould : Prop :=
  ∀ (i : Instr) (s t : State), exec i s = .next t →
    SameEnv s t ∧ t.freeIndex = s.freeIndex ∧ (i.isRep = false → t.rcx = s.rcx) ∧
      (∀ a, a ∉ s.dstBytes i.size i.spelling → Memory.read t.mem a = Memory.read s.mem a) ∧
      (∀ a, a ∈ t.stored ↔ a ∈ s.stored ∨ (MovesElement i s ∧ a ∈ s.dstBytes i.size i.spelling)) ∧
      (¬ MovesElement i s →
        t.mem = s.mem ∧ t.rsi = s.rsi ∧ t.rdi = s.rdi ∧ t.rcx = s.rcx ∧
          t.pc = s.pc + BitVec.ofNat 64 i.spelling.len) ∧
      (addrSizeOf s.codeCtx i.spelling = .a16 →
        t.rsi.extractLsb' 16 16 = s.rsi.extractLsb' 16 16 ∧ t.rdi.extractLsb' 16 16 = s.rdi.extractLsb' 16 16 ∧
          t.rcx.extractLsb' 16 16 = s.rcx.extractLsb' 16 16)

/-- R21: every flag has the same value after a completed instruction, and the family reads no flag but DF: with
any other EFLAGS of the same DF the outcome is the same but for EFLAGS itself. -/
def Obligations.NoFlagIsWrittenAndOnlyDfIsRead : Prop :=
  ∀ (i : Instr) (s : State),
    (∀ t, exec i s = .next t → t.eflags = s.eflags) ∧
      ∀ e : BitVec 32, e.getLsbD 10 = s.eflags.getLsbD 10 →
        match exec i s with
        | .next t => exec i { s with eflags := e } = .next { t with eflags := e }
        | .fault f => exec i { s with eflags := e } = .fault f
        | .refused r => exec i { s with eflags := e } = .refused r

/-- R17: `Idx` is the low `A` bits, zero-extended, and the bits from `A` up of RSI, RDI and RCX do not influence an
instruction: with other such bits it stops in the same way, or completes with the same memory, `pc`, `Idx`
values and environment. -/
def Obligations.BitsAboveTheAddressSizeDoNotMatter : Prop :=
  ∀ (i : Instr) (s : State) (x y z : Word), let A := addrSizeOf s.codeCtx i.spelling
    (∀ k, (s.idxRsi A).getLsbD k = (decide (k < A.bits) && s.rsi.getLsbD k)) ∧
      (∀ k, (s.idxRdi A).getLsbD k = (decide (k < A.bits) && s.rdi.getLsbD k)) ∧
      (∀ k, (s.idxRcx A).getLsbD k = (decide (k < A.bits) && s.rcx.getLsbD k)) ∧
      (lowBits A x = s.idxRsi A → lowBits A y = s.idxRdi A → lowBits A z = s.idxRcx A →
        match exec i s with
        | .next t =>
          ∃ u, exec i { s with rsi := x, rdi := y, rcx := z } = .next u ∧ SameEnv t u ∧ u.mem = t.mem ∧
            u.stored = t.stored ∧ u.pc = t.pc ∧ u.idxRsi A = t.idxRsi A ∧ u.idxRdi A = t.idxRdi A ∧
            u.idxRcx A = t.idxRcx A
        | .fault f => exec i { s with rsi := x, rdi := y, rcx := z } = .fault f
        | .refused r => exec i { s with rsi := x, rdi := y, rcx := z } = .refused r)

/-- R18: what `SetIdx` leaves in the bits of a register that a claim may read: the low `A` bits are the value's; in
64-bit mode a 32-bit write clears the upper half; every other readable bit is kept. -/
def Obligations.SetIdxWritesTheAddressSize : Prop :=
  ∀ (s : State) (A : AddrSize) (v : Word) (k : Nat), k < 64 → k < 32 ∨ s.mode = .long64 →
    let bit := fun old : Word =>
      if k < A.bits then v.getLsbD k else if A = .a32 ∧ s.mode = .long64 then false else old.getLsbD k
    (s.setRsi A v).rsi.getLsbD k = bit s.rsi ∧ (s.setRdi A v).rdi.getLsbD k = bit s.rdi ∧
      (s.setRcx A v).rcx.getLsbD k = bit s.rcx

/-- R85, R75, R20: the index update is the index plus or minus the element size by DF, modulo `2^A`. -/
def Obligations.IndexUpdateIsModuloTheAddressSize : Prop :=
  ∀ (i : Instr) (s t : State), MovesElement i s → exec i s = .next t →
    let A := addrSizeOf s.codeCtx i.spelling
    let n : Int := if s.eflags.getLsbD 10 then -(i.size.bytes : Int) else i.size.bytes
    ((t.idxRsi A).toNat : Int) = ((s.idxRsi A).toNat + n) % 2 ^ A.bits ∧
      ((t.idxRdi A).toNat : Int) = ((s.idxRdi A).toNat + n) % 2 ^ A.bits

/-! ### REP blocks -/

/-- R93, R98, R100, R102: after `k` completed iterations of a REP form, `k` at most the count `c0`, the count
register holds `c0 - k`, the indices have moved by `k` elements modulo `2^A` in the direction of DF, memory is the
`k` element moves one after the other, and `pc` has moved on exactly if the block is finished. -/
def Obligations.RepBlockAfterKIterations : Prop :=
  ∀ (i : Instr) (s t : State) (k : Nat), i.isRep = true → 0 < k →
    let A := addrSizeOf s.codeCtx i.spelling
    k ≤ (s.idxRcx A).toNat → execTimes i k s = .next t →
    let d : Int := if s.eflags.getLsbD 10 then -((k * i.size.bytes : Nat) : Int) else ((k * i.size.bytes : Nat) : Int)
    (t.idxRcx A).toNat = (s.idxRcx A).toNat - k ∧
      ((t.idxRsi A).toNat : Int) = ((s.idxRsi A).toNat + d) % 2 ^ A.bits ∧
      ((t.idxRdi A).toNat : Int) = ((s.idxRdi A).toNat + d) % 2 ^ A.bits ∧
      t.mem = s.blockMem i.size i.spelling k ∧ SameEnv s t ∧
      t.pc = if k = (s.idxRcx A).toNat then s.pc + BitVec.ofNat 64 i.spelling.len else s.pc

/-- R102: when no destination byte of the block is a source byte of it, and no two destination bytes are the same,
a completed block is a plain copy, and every other byte is as it was. -/
def Obligations.RepBlockOfDisjointRangesIsACopy : Prop :=
  ∀ (i : Instr) (s t : State), Memory.wf s.mem = true → i.isRep = true →
    let A := addrSizeOf s.codeCtx i.spelling
    let src := fun j => s.physBytes (srcSegOf s.codeCtx i.spelling) (indexAfter A s.df i.size.bytes (s.idxRsi A) j)
      i.size.bytes .read
    let dst := fun j => s.physBytes .es (indexAfter A s.df i.size.bytes (s.idxRdi A) j) i.size.bytes .write
    let c := (s.idxRcx A).toNat
    execTimes i c s = .next t →
    (∀ j < c, ∀ k < c, ∀ a ∈ dst j, a ∉ src k) → (∀ j < c, ∀ k < c, j ≠ k → ∀ a ∈ dst j, a ∉ dst k) →
    (∀ j < c, (dst j).Nodup) →
    (∀ j < c, Memory.readAll t.mem (dst j) = Memory.readAll s.mem (src j)) ∧
      ∀ a, (∀ j < c, a ∉ dst j) → Memory.read t.mem a = Memory.read s.mem a

/-- R102, property 4 of 95_test_vectors.md: an iteration of a REP form keeps, modulo `2^A`, the index plus the bytes
still to move when DF is 0, and the index minus them when DF is 1. -/
def Obligations.RepIterationConservesTheEnd : Prop :=
  ∀ (i : Instr) (s t : State), i.isRep = true → MovesElement i s → exec i s = .next t →
    let A := addrSizeOf s.codeCtx i.spelling
    let d : Int := if s.eflags.getLsbD 10 then -(i.size.bytes : Int) else i.size.bytes
    (((t.idxRsi A).toNat : Int) + d * (t.idxRcx A).toNat) % 2 ^ A.bits
        = (((s.idxRsi A).toNat : Int) + d * (s.idxRcx A).toNat) % 2 ^ A.bits ∧
      (((t.idxRdi A).toNat : Int) + d * (t.idxRcx A).toNat) % 2 ^ A.bits
        = (((s.idxRdi A).toNat : Int) + d * (s.idxRcx A).toNat) % 2 ^ A.bits

/-! ### Runs -/

/-- R133, R19: a run to an exit address ends exactly in the first state in which `pc` is that address, reached by steps
that each answered a next state, and in one state only. That the part of `pc` used for fetch (`ipOffset`) is what is
compared, and that the run ends in the first such state, are the model's choice (log entry 28). -/
def Obligations.RunEndsWhereItFirstMeetsTheExit : Prop :=
  ∀ (exit : Nat) (s t : State),
    (EndsAt exit s t ↔
      ∃ k, stepTimes k s = .next t ∧ t.ipOffset = exit ∧
        ∀ j < k, ∃ u, stepTimes j s = .next u ∧ u.ipOffset ≠ exit) ∧
      ∀ u, EndsAt exit s t → EndsAt exit s u → t = u

/-- R93, R102, R133, R50: where the bytes at `pc` are a REP form that the run has not stored to, and its iterations
(one if the count is zero) all complete, the run to the address of the following instruction ends, in the state
after these iterations; the model's counter has advanced by their number (log entry 6). How the
end of a run is compared is the model's choice (log entry 28). -/
def Obligations.RunOfARepFormEndsAfterTheBlock : Prop :=
  ∀ (i : Instr) (s t : State), decode s.codeCtx s.fetchBytes = .insn i → i.isRep = true → s.storedCode i = false →
    let c := max 1 (s.idxRcx (addrSizeOf s.codeCtx i.spelling)).toNat
    execTimes i c s = .next t →
    EndsAt (s.ipOffset + i.spelling.len) s { t with freeIndex := s.freeIndex + c }

/-! ### Exceptions -/

/-- R105: in every mode an instruction with a LOCK prefix raises #UD with no error code, REP forms with a zero count
too. -/
def Obligations.LockRaisesUndefinedOpcode : Prop :=
  ∀ (i : Instr) (s : State), i.spelling.has .lock = true → exec i s = .fault .ud

/-- R119: the exception an instruction reports is #UD for LOCK, or else a member of what its source read and its
destination write would each raise alone, and then the launch is one that neither R45 nor R50 refuses. Which member
is the free value of log entry 6: the statement holds for every choice. -/
def Obligations.ReportedExceptionIsOneThatApplies : Prop :=
  ∀ (i : Instr) (s : State) (f : Fault), exec i s = .fault f →
    (i.spelling.has .lock = true ∧ f = .ud) ∨
      (i.spelling.has .lock = false ∧ MovesElement i s ∧
        LaunchOk i.size i.spelling (elementsOf i s) s ∧
        (SrcRaises i.size i.spelling s f ∨ DstRaises i.size i.spelling s f))

/-- R42, R111 to R117: an instruction that starts, whose launch is one that neither R45 nor R50 refuses, and whose
source read would raise an exception raises one; so does one whose source read is admitted and whose destination
write would raise one. That a source that raises is reported even beside a destination that R41 refuses is the
model's choice (log entry 12). The accesses of R41's second item are the subject of `WrappingAccessesAreRefused`. -/
def Obligations.AnAccessThatWouldRaiseDoesFault : Prop :=
  ∀ (i : Instr) (s : State), StartOk i.size i.spelling s → MovesElement i s →
    LaunchOk i.size i.spelling (elementsOf i s) s →
    (∀ f, SrcRaises i.size i.spelling s f → ¬ SrcWraps4G i.size i.spelling s → ∃ g, exec i s = .fault g) ∧
      (∀ f, SrcOk i.size i.spelling s → DstRaises i.size i.spelling s f → ¬ DstWraps4G i.size i.spelling s →
        ∃ g, exec i s = .fault g)

/-- R112, R114: outside 64-bit mode an access outside the segment limit raises #SS through SS and #GP through any
other segment, without an error code in real-address mode and with 0 elsewhere, when the other access is admitted,
the segment type is right, and neither R45 nor R50 refuses the launch. -/
def Obligations.LimitViolationRaisesGpOrSs : Prop :=
  ∀ (i : Instr) (s : State), StartOk i.size i.spelling s → MovesElement i s →
    LaunchOk i.size i.spelling (elementsOf i s) s →
    s.mode ≠ .long64 →
    let A := addrSizeOf s.codeCtx i.spelling
    let r := srcSegOf s.codeCtx i.spelling
    let code : Option (BitVec 32) := if s.mode = .real then none else some 0
    (DstOk i.size i.spelling s → s.typeFaults r .read = [] → ¬ SrcWraps4G i.size i.spelling s →
        (s.segOf r).inLimit (s.idxRsi A).toNat i.size.bytes = false →
        exec i s = .fault (if r = .ss then .ss code else .gp code)) ∧
      (SrcOk i.size i.spelling s → s.typeFaults .es .write = [] → ¬ DstWraps4G i.size i.spelling s →
        s.seg.es.inLimit (s.idxRdi A).toNat i.size.bytes = false → exec i s = .fault (.gp code))

/-- R111, R113: in protected and compatibility mode a NULL selector in the segment register that an access uses, an
ES that is not writable, and a source segment that is not readable raise #GP(0), when the other access is admitted
and neither R45 nor R50 refuses the launch (and, for a source in SS, the limit is respected, or #SS(0) might be
reported: that case is left to `ReportedExceptionIsOneThatApplies` and `AnAccessThatWouldRaiseDoesFault`). -/
def Obligations.SegmentTypeRaisesGp : Prop :=
  ∀ (i : Instr) (s : State), StartOk i.size i.spelling s → MovesElement i s →
    LaunchOk i.size i.spelling (elementsOf i s) s →
    s.mode = .prot ∨ s.mode = .compat →
    let A := addrSizeOf s.codeCtx i.spelling
    let r := srcSegOf s.codeCtx i.spelling
    (DstOk i.size i.spelling s →
        r ≠ .ss ∨ (s.segOf r).inLimit (s.idxRsi A).toNat i.size.bytes = true →
        ((r = .ds ∨ r = .es ∨ r = .fs ∨ r = .gs) ∧ (s.segOf r).null = true) ∨ (s.segOf r).readable = false →
        exec i s = .fault (.gp (some 0))) ∧
      (SrcOk i.size i.spelling s → s.seg.es.null = true ∨ s.seg.es.writable = false →
        exec i s = .fault (.gp (some 0)))

/-- R115: in 64-bit mode an access with a non-canonical byte raises #GP(0), or #SS(0) for a source that references
SS, which happens only where the parameter `SsOverride64Honoured` says so. The other access is admitted, and neither
R45 nor R50 refuses the launch. -/
def Obligations.NonCanonicalAddressRaisesGpOrSs : Prop :=
  ∀ (i : Instr) (s : State), StartOk i.size i.spelling s → MovesElement i s →
    LaunchOk i.size i.spelling (elementsOf i s) s →
    s.mode = .long64 →
    let A := addrSizeOf s.codeCtx i.spelling
    let r := srcSegOf s.codeCtx i.spelling
    (DstOk i.size i.spelling s →
        (∃ a ∈ linBytes (s.lin r (s.idxRsi A)) i.size.bytes, canonical s.cfg.vaBits a = false) →
        exec i s = .fault (if r = .ss then .ss (some 0) else .gp (some 0))) ∧
      (SrcOk i.size i.spelling s →
        (∃ a ∈ linBytes (s.lin .es (s.idxRdi A)) i.size.bytes, canonical s.cfg.vaBits a = false) →
        exec i s = .fault (.gp (some 0))) ∧
      (s.cfg.ssOverride64Honoured = false → r ≠ .ss)

/-- R117, R32: #AC is reported only outside real-address mode, with alignment checking enabled, at CPL 3 or in
virtual-8086 mode, and never for a byte move; and an access that is unaligned there, admitted otherwise, raises
#AC(0) when the other access is admitted and neither R45 nor R50 refuses the launch. -/
def Obligations.UnalignedAccessRaisesAc : Prop :=
  ∀ (i : Instr) (s : State),
    (∀ c, exec i s = .fault (.ac c) → c = 0 ∧ s.alignCheckEnabled = true ∧ s.mode ≠ .real ∧
        (s.mode = .v86 ∨ s.cpl = 3) ∧ i.size ≠ .byte) ∧
      (StartOk i.size i.spelling s → MovesElement i s →
    LaunchOk i.size i.spelling (elementsOf i s) s →
        s.alignCheckEnabled = true → s.mode ≠ .real →
        s.mode = .v86 ∨ s.cpl = 3 →
        let A := addrSizeOf s.codeCtx i.spelling
        let r := srcSegOf s.codeCtx i.spelling
        (DstOk i.size i.spelling s → SrcOk i.size i.spelling { s with alignCheckEnabled := false } →
            (s.lin r (s.idxRsi A)).toNat % i.size.bytes ≠ 0 → exec i s = .fault (.ac 0)) ∧
          (SrcOk i.size i.spelling s → DstOk i.size i.spelling { s with alignCheckEnabled := false } →
            (s.lin .es (s.idxRdi A)).toNat % i.size.bytes ≠ 0 → exec i s = .fault (.ac 0)))

/-- R116, R33, R44: the lowest byte of an access that `Translate` faults raises #PF with the code `Translate`
answers and the byte's linear address, when without paging the access would be admitted, the other access is
admitted and neither R45 nor R50 refuses the launch; in real-address mode no #PF is raised. -/
def Obligations.PageFaultReportsTheLowestByte : Prop :=
  ∀ (i : Instr) (s : State),
    (∀ c a, exec i s = .fault (.pf c a) → s.mode ≠ .real) ∧
      (StartOk i.size i.spelling s → MovesElement i s →
    LaunchOk i.size i.spelling (elementsOf i s) s →
        let A := addrSizeOf s.codeCtx i.spelling
        let r := srcSegOf s.codeCtx i.spelling
        let flat := { s with cfg := { s.cfg with translate := [] } }
        ∀ (before after : List Word) (a : Word) (c : BitVec 32),
          (DstOk i.size i.spelling s → SrcOk i.size i.spelling flat →
              linBytes (s.lin r (s.idxRsi A)) i.size.bytes = before ++ a :: after →
              (∀ x ∈ before, (physOf (s.translate x .read)).isSome = true) → s.translate a .read = .pageFault c →
              exec i s = .fault (.pf c a)) ∧
            (SrcOk i.size i.spelling s → DstOk i.size i.spelling flat →
              linBytes (s.lin .es (s.idxRdi A)) i.size.bytes = before ++ a :: after →
              (∀ x ∈ before, (physOf (s.translate x .write)).isSome = true) → s.translate a .write = .pageFault c →
              exec i s = .fault (.pf c a)))

/-- R107: in real-address mode the exceptions are #UD for LOCK, #GP without a code for an access outside a limit other
than SS's, #SS without a code for the source outside the limit of SS, and no other. -/
def Obligations.RealModeExceptions : Prop :=
  ∀ (i : Instr) (s : State) (f : Fault), s.mode = .real → exec i s = .fault f →
    let A := addrSizeOf s.codeCtx i.spelling
    let r := srcSegOf s.codeCtx i.spelling
    (f = .ud ∧ i.spelling.has .lock = true) ∨
      (f = .ss none ∧ r = .ss ∧ s.seg.ss.inLimit (s.idxRsi A).toNat i.size.bytes = false) ∨
      (f = .gp none ∧
        ((r ≠ .ss ∧ (s.segOf r).inLimit (s.idxRsi A).toNat i.size.bytes = false) ∨
          s.seg.es.inLimit (s.idxRdi A).toNat i.size.bytes = false))

/-- R106, R108 to R110, R120: outside real-address mode #GP, #SS and #AC have error code 0, and #SS needs a source that
goes through SS; #UD and #PF are the only others. -/
def Obligations.ErrorCodesOutsideRealMode : Prop :=
  ∀ (i : Instr) (s : State) (f : Fault), s.mode ≠ .real → exec i s = .fault f →
    f = .ud ∨ f = .gp (some 0) ∨ (f = .ss (some 0) ∧ srcSegOf s.codeCtx i.spelling = .ss) ∨ f = .ac 0 ∨
      ∃ c a, f = .pf c a

/-! ### Refusals -/

/-- R41, U10: an access that no segment-level exception stops and that runs past the top of the offset space or of
the linear address space is refused; so is an access past 2^32 in a 4-GByte segment of the right type. The refusal
has the name `offsetWrap`, unless the launch is one that R45 or R50 refuses. That a source of this kind is refused
whatever the destination would raise is the model's choice (log entry 12). -/
def Obligations.WrappingAccessesAreRefused : Prop :=
  ∀ (i : Instr) (s : State), StartOk i.size i.spelling s → MovesElement i s →
    let A := addrSizeOf s.codeCtx i.spelling
    let r := srcSegOf s.codeCtx i.spelling
    let past := fun r (off : Word) => 2 ^ A.bits < off.toNat + i.size.bytes ∨
      (if s.mode = .long64 then 2 ^ 64 else 2 ^ 32) < (s.lin r off).toNat + i.size.bytes
    let refusedSo := exec i s = .refused .offsetWrap ∨
      (¬ LaunchOk i.size i.spelling (elementsOf i s) s ∧ ∃ e, exec i s = .refused e)
    (((s.typeFaults r .read = [] ∧ SrcWraps4G i.size i.spelling s) ∨
          ((∀ f, ¬ SegRaises s r (s.idxRsi A) i.size.bytes .read f) ∧ past r (s.idxRsi A))) →
        refusedSo) ∧
      (SrcOk i.size i.spelling s →
        ((s.typeFaults .es .write = [] ∧ DstWraps4G i.size i.spelling s) ∨
          ((∀ f, ¬ SegRaises s .es (s.idxRdi A) i.size.bytes .write f) ∧ past .es (s.idxRdi A))) →
        refusedSo)

/-- R45, U12: an instruction that moves an element is refused where the source or destination range of its launch,
over all the elements it has still to move, is device memory, whatever an access of one of them raises. That an
access which a segment-level exception stops, or which wraps, has no range, and that elements count which an
exception would keep from being moved, are the model's choices (log entries 14 and 29). -/
def Obligations.DeviceMemoryIsRefused : Prop :=
  ∀ (i : Instr) (s : State), StartOk i.size i.spelling s → MovesElement i s →
    ReachesDevice i.size i.spelling (elementsOf i s) s → exec i s = .refused .deviceMemory

/-- R50, U11, R45: an instruction that moves an element, whose launch reaches no device memory, is refused where the
destination range, over all the elements it has still to move, meets the instruction's own bytes; an element that is
itself admitted and on a device, or that itself stores to these bytes, is such a case. That this refusal comes
before the exceptions of the elements is the model's choice (log entries 27 and 29). -/
def Obligations.DeviceMemoryAndOwnBytesAreRefused : Prop :=
  ∀ (i : Instr) (s : State), StartOk i.size i.spelling s → MovesElement i s →
    (¬ ReachesDevice i.size i.spelling (elementsOf i s) s → MeetsOwnBytes i.size i.spelling (elementsOf i s) s →
        exec i s = .refused .storeIntoCode) ∧
      (SrcOk i.size i.spelling s → DstOk i.size i.spelling s →
        (s.onDevice (s.srcBytes i.size i.spelling) = true ∨ s.onDevice (s.dstBytes i.size i.spelling) = true →
            exec i s = .refused .deviceMemory) ∧
          ((∃ a ∈ s.dstBytes i.size i.spelling, a ∈ s.codeAddrs i.spelling.len) →
            exec i s = .refused .deviceMemory ∨ exec i s = .refused .storeIntoCode))

/-- R45, R50, R93: a REP form is refused before its first iteration or not for these rules: after a completed
iteration that leaves elements to move, the launch of the rest is one that neither rule refuses, and only an access
that wraps (R41) is refused there. -/
def Obligations.RepFormIsRefusedBeforeItsFirstIteration : Prop :=
  ∀ (i : Instr) (s t : State), i.isRep = true → exec i s = .next t →
    t.idxRcx (addrSizeOf t.codeCtx i.spelling) ≠ 0 →
    LaunchOk i.size i.spelling (elementsOf i t) t ∧ ∀ e, exec i t = .refused e → e = .offsetWrap

/-- R41, R23: in real-address and virtual-8086 mode, with the segment registers those modes have, no access is
refused as one that wraps: the limit 0xFFFF catches every one of them. CS may have the base of log entry 1. -/
def Obligations.NoAccessWrapsInRealAndV86Mode : Prop :=
  ∀ (i : Instr) (s : State), s.mode = .real ∨ s.mode = .v86 → s.realSegs = true → exec i s ≠ .refused .offsetWrap

/-- R19, U9: an instruction whose following address passes the instruction-pointer width or the code-segment limit, or is
not canonical, is refused. -/
def Obligations.NextInstructionOutsideCodeIsRefused : Prop :=
  ∀ (i : Instr) (s : State), i.spelling.has .lock = false → (i.size = .qword → s.mode = .long64) →
    s.codeOffsetOk (s.ipOffset + i.spelling.len) = false → exec i s = .refused .pcOverflow

/-! ### Addresses -/

/-- R40: a linear address is canonical exactly when its bits 63 down to `VA_BITS - 1` are all equal. -/
def Obligations.CanonicalMeansUpperBitsEqual : Prop :=
  ∀ (v : VaBits) (a : Word),
    canonical v a = true ↔ ∀ k, (match v with | .v48 => 47 | .v57 => 56) ≤ k → k < 64 → a.getLsbD k = a.getLsbD 63

/-- R36, R37: the linear address is base plus offset, modulo 2^32 outside 64-bit mode, modulo 2^64 in it, where only FS
and GS have a base. -/
def Obligations.LinearAddressIsBasePlusOffset : Prop :=
  ∀ (s : State) (r : SegReg) (off : Word),
    (s.mode ≠ .long64 → (s.lin r off).toNat = ((s.segOf r).base.toNat % 2 ^ 32 + off.toNat) % 2 ^ 32) ∧
      (s.mode = .long64 →
        (s.lin r off).toNat
          = ((if r = .fs ∨ r = .gs then (s.segOf r).base.toNat else 0) + off.toNat) % 2 ^ 64)

/-- R44: in real-address mode `Translate` is the identity: with any translation the outcome is the same but for the
parameter itself. -/
def Obligations.RealModeIgnoresTranslation : Prop :=
  ∀ (i : Instr) (s : State) (l : List TransRange), s.mode = .real →
    match exec i s with
    | .next t => exec i { s with cfg := { s.cfg with translate := l } } = .next { t with cfg := { t.cfg with translate := l } }
    | .fault f => exec i { s with cfg := { s.cfg with translate := l } } = .fault f
    | .refused r => exec i { s with cfg := { s.cfg with translate := l } } = .refused r

/-- R125: the family is not privileged: with alignment checking off and no paging, an instruction does the same at every
CPL. -/
def Obligations.PrivilegeLevelDoesNotMatter : Prop :=
  ∀ (i : Instr) (s : State) (l : BitVec 2), s.alignCheckEnabled = false → s.cfg.translate = [] →
    match exec i s with
    | .next t => exec i { s with cpl := l } = .next { t with cpl := l }
    | .fault f => exec i { s with cpl := l } = .fault f
    | .refused r => exec i { s with cpl := l } = .refused r

/-! ### Invariant -/

/-- Every step keeps the invariant: memory and the record of stores stay in canonical form, `pc` stays an offset an
instruction may start at (R19), the segment registers keep the limit, the attributes and the base, 16 times a
selector, that real-address and virtual-8086 mode give them (R23; CS may have the base of log entry 1). -/
def Obligations.StepKeepsInvariant : Prop :=
  ∀ s t : State, Inv s → step s = .next t → Inv t

/-- The model's own choice (log entries 1, 2, 3, 13: the spec gives no reset value): the state after reset meets the
invariant. -/
def Obligations.ResetMeetsInvariant : Prop :=
  Inv State.reset

/-- R4, R22, R26: no step writes the mode, the privilege level, the other control state, the segment registers, the flags,
the other general registers or the environment's parameters. -/
def Obligations.StepNeverLeavesTheMode : Prop :=
  ∀ s t : State, step s = .next t → SameEnv s t ∧ t.codeCtx = s.codeCtx ∧ t.effCpl = s.effCpl

end
end

