-- ==== Sys2Proof/Laws/Access.lean ====
section
/-! SUPPORT. What the checks of one access can answer (20_memory.md R42): `check_ok_iff` says when they
pass and with which physical addresses, `check_raises` which exceptions they can list. -/

namespace Sys2Proof.Machine

theorem OpSize_bytes_pos (z : OpSize) : 0 < z.bytes := by cases z <;> decide

theorem linBytes_length (a : Word) (n : Nat) : (linBytes a n).length = n := by
  induction n generalizing a with
  | zero => rfl
  | succ n ih => simp [linBytes, ih]

/-! ### Translation -/

@[simp] theorem physOf_phys (a : Nat) : physOf (.phys a) = some a := rfl

@[simp] theorem physOf_pageFault (c : BitVec 32) : physOf (.pageFault c) = none := rfl

theorem physOf_eq_some {t : Translation} {a : Nat} : physOf t = some a ↔ t = .phys a := by
  cases t <;> simp

theorem physOf_isSome_iff (t : Translation) : (physOf t).isSome = true ↔ ∀ c, t ≠ .pageFault c := by
  cases t <;> simp

/-- Every byte translates, or the first that does not is the one reported (R33, R116). -/
theorem translateAll_ok_iff (s : State) (k : AccessKind) (as : List Word) (ph : List Nat) :
    s.translateAll k as = .ok ph ↔
      (∀ a ∈ as, ∀ c, s.translate a k ≠ .pageFault c) ∧
        ph = as.filterMap fun a => physOf (s.translate a k) := by
  induction as generalizing ph with
  | nil => simp [State.translateAll, eq_comm]
  | cons a as ih =>
    rw [State.translateAll]
    cases ht : s.translate a k with
    | pageFault c => simp [ht]
    | phys b =>
      cases hr : s.translateAll k as with
      | error e =>
        have : ¬ ((∀ a ∈ as, ∀ c, s.translate a k ≠ .pageFault c)) := by
          intro h
          have := (ih _).2 ⟨h, rfl⟩
          rw [hr] at this
          cases this
        simp only [List.mem_cons, forall_eq_or_imp, ht]
        constructor
        · intro h; cases h
        · rintro ⟨⟨-, h⟩, -⟩; exact absurd h this
      | ok bs =>
        obtain ⟨h1, h2⟩ := (ih bs).1 hr
        simp only [List.mem_cons, forall_eq_or_imp, ht, List.filterMap_cons, physOf_phys, ← h2]
        constructor
        · intro h
          cases h
          exact ⟨⟨fun c hc => Translation.noConfusion hc, h1⟩, rfl⟩
        · rintro ⟨-, rfl⟩; rfl

/-- A page fault is that of the lowest byte that faults, with the code `Translate` gives (R44, R116). -/
theorem translateAll_error (s : State) (k : AccessKind) {as : List Word} {c : BitVec 32} {a : Word}
    (h : s.translateAll k as = .error (c, a)) :
    ∃ before after, as = before ++ a :: after ∧ s.translate a k = .pageFault c ∧
      ∀ x ∈ before, ∀ d, s.translate x k ≠ .pageFault d := by
  induction as with
  | nil => cases h
  | cons x as ih =>
    rw [State.translateAll] at h
    cases ht : s.translate x k with
    | pageFault d => rw [ht] at h; cases h; exact ⟨[], as, rfl, ht, by simp⟩
    | phys b =>
      rw [ht] at h
      cases hr : s.translateAll k as with
      | error e =>
        rw [hr] at h
        cases h
        obtain ⟨before, after, rfl, hc, hb⟩ := ih hr
        refine ⟨x :: before, after, rfl, hc, ?_⟩
        intro y hy d
        rcases List.mem_cons.1 hy with rfl | hy
        · rw [ht]; exact fun e => by cases e
        · exact hb y hy d
      | ok bs => rw [hr] at h; cases h

/-! ### The checks one by one -/

theorem typeFaults_nil_iff (s : State) (r : SegReg) (k : AccessKind) :
    s.typeFaults r k = [] ↔
      (s.mode = .prot ∨ s.mode = .compat → s.nullSeg r = false ∧ s.wrongType r k = false) := by
  unfold State.typeFaults
  cases s.mode <;> simp

theorem rangeFaults_nil_iff (s : State) (r : SegReg) (off : Word) (n : Nat) :
    s.rangeFaults r off n = [] ↔
      (s.mode ≠ .long64 → (s.segOf r).inLimit off.toNat n = true) ∧
        (s.mode = .long64 → canonicalAccess s.cfg.vaBits (s.lin r off) n = true) := by
  unfold State.rangeFaults
  cases s.mode <;> simp

theorem alignFaults_nil_iff (s : State) (a : Word) (n : Nat) :
    s.alignFaults a n = [] ↔
      (s.alignCheckEnabled = true → s.mode ≠ .real → (s.mode = .v86 ∨ s.cpl = 3) → a.toNat % n = 0) := by
  unfold State.alignFaults unaligned State.effCpl
  cases s.alignCheckEnabled <;> cases s.mode <;> simp <;> tauto

theorem wraps_false_iff (s : State) (A : AddrSize) (r : SegReg) (off : Word) {n : Nat} (hn : 0 < n) :
    s.wraps A r off n = false ↔
      off.toNat + n ≤ 2 ^ A.bits ∧
        (s.lin r off).toNat + n ≤ (if s.mode = .long64 then 2 ^ 64 else 2 ^ 32) := by
  unfold State.wraps
  cases s.mode <;> simp <;> omega

theorem inLimit_last {d : SegState} {off n : Nat} (h : d.inLimit off n = true) : off + n - 1 ≤ d.topBound := by
  unfold SegState.inLimit at h
  split at h <;> simp_all

theorem newFaults_nil_left (gs : List Fault) : newFaults [] gs = gs := by
  simp [newFaults]

/-! ### The checks together -/

/-- The checks of an access pass exactly when none of their conditions applies, and then answer the
physical addresses of its bytes. -/
theorem check_ok_iff (s : State) (A : AddrSize) (r : SegReg) (off : Word) {n : Nat} (hn : 0 < n) (k : AccessKind)
    (ph : List Nat) :
    s.check A r off n k = .ok ph ↔ AccessOk s A r off n k ∧ ph = s.physBytes r off n k := by
  constructor
  · intro h
    rw [State.check] at h
    split at h
    · split at h <;> cases h
    · split at h
      · cases h
      · rename_i hl
        rw [List.append_eq_nil_iff] at hl
        obtain ⟨ht, hr⟩ := hl
        rw [ht, newFaults_nil_left] at hr
        split at h
        · cases h
        · rename_i hw
          split at h
          · rename_i phys htr hal
            cases h
            obtain ⟨h1, h2⟩ := (translateAll_ok_iff ..).1 htr
            have hw := (wraps_false_iff s A r off hn).1 (by simpa using hw)
            have hr := (rangeFaults_nil_iff ..).1 hr
            have ht := (typeFaults_nil_iff ..).1 ht
            exact ⟨⟨fun m => (ht m).1, fun m => (ht m).2, hr.1,
              fun m => by simpa [canonicalAccess] using hr.2 m, hw.1, hw.2, (alignFaults_nil_iff ..).1 hal,
              fun a ha => (physOf_isSome_iff _).2 (h1 a ha)⟩, h2⟩
          all_goals cases h
  · rintro ⟨h, rfl⟩
    have ht := (typeFaults_nil_iff s r k).2 fun m => ⟨h.notNull m, h.rightType m⟩
    have hr : s.rangeFaults r off n = [] :=
      (rangeFaults_nil_iff ..).2 ⟨h.withinLimit, fun m => by simpa [canonicalAccess] using h.inCanonicalForm m⟩
    have hw := (wraps_false_iff s A r off hn).2 ⟨h.noWrap, h.noLinearWrap⟩
    have hal := (alignFaults_nil_iff s (s.lin r off) n).2 h.alignedOrUnchecked
    have htr := (translateAll_ok_iff s k (linBytes (s.lin r off) n) _).2 
      ⟨fun a ha => (physOf_isSome_iff _).1 (h.noPageFault a ha), rfl⟩
    have h4 : s.wraps4G r off n = false := by
      unfold State.wraps4G
      by_cases hm : s.mode = .long64
      · simp [hm]
      · have hb := inLimit_last (h.withinLimit hm)
        by_cases htop : (s.segOf r).topBound = 0xFFFFFFFF
        · rw [htop] at hb
          have : decide (2 ^ 32 ≤ off.toNat + n - 1) = false := decide_eq_false (by omega)
          rw [this, Bool.and_false, Bool.false_and]
        · simp [htop]
    rw [State.check]
    simp only [h4, ht, hr, newFaults_nil_left, hw, htr, hal, List.append_nil, Bool.false_eq_true, if_false]
    rfl

/-- The exceptions an access can raise: those of the segment type, or of the limit or canonical form, or
else #AC and #PF (R42, R119 item 2). -/
theorem check_raises {s : State} {A : AddrSize} {r : SegReg} {off : Word} {n : Nat} {k : AccessKind} {f : Fault}
    {fs : List Fault} (h : s.check A r off n k = .raises f fs) :
    (∀ g ∈ f :: fs, g ∈ s.typeFaults r k ∨ g ∈ s.rangeFaults r off n) ∨
      (s.typeFaults r k = [] ∧ s.rangeFaults r off n = [] ∧ s.wraps A r off n = false ∧
        ∀ g ∈ f :: fs, g ∈ s.alignFaults (s.lin r off) n ∨
          ∃ c a, g = .pf c a ∧ s.translateAll k (linBytes (s.lin r off) n) = .error (c, a)) := by
  rw [State.check] at h
  split at h
  · split at h
    · cases h
    · rename_i ht
      cases h
      exact .inl fun g hg => .inl (ht ▸ hg)
  · split at h
    · rename_i hl
      cases h
      refine .inl fun g hg => ?_
      rw [← hl, List.mem_append] at hg
      rcases hg with hg | hg
      · exact .inl hg
      · exact .inr (List.mem_of_mem_filter hg)
    · rename_i hl
      rw [List.append_eq_nil_iff] at hl
      obtain ⟨ht, hr⟩ := hl
      rw [ht, newFaults_nil_left] at hr
      split at h
      · cases h
      · rename_i hw
        refine .inr ⟨ht, hr, by simpa using hw, ?_⟩
        split at h
        · cases h
        · rename_i hal
          cases h
          exact fun g hg => .inl (hal ▸ hg)
        · rename_i c a htr hal
          cases h
          intro g hg
          simp only [List.mem_singleton] at hg
          exact .inr ⟨c, a, hg, htr⟩
        · rename_i c a g' gs' htr hal
          cases h
          intro g hg
          rw [← List.cons_append, List.mem_append, ← hal, List.mem_singleton] at hg
          rcases hg with hg | hg
          · exact .inl hg
          · exact .inr ⟨c, a, hg, htr⟩

/-- The exception of a limit or canonical-form condition is the one the rules name (R112, R114, R115). -/
theorem segFault_eq (s : State) (r : SegReg) : s.segFault r = rangeFault s.mode r := by
  unfold State.segFault State.segCode rangeFault
  cases r <;> cases s.mode <;> rfl

/-- The segment-level exceptions of an access, condition by condition (R111 to R115). -/
theorem segRaises_iff (s : State) (r : SegReg) (off : Word) (n : Nat) (k : AccessKind) (f : Fault) :
    SegRaises s r off n k f ↔ f ∈ s.typeFaults r k ∨ f ∈ s.rangeFaults r off n := by
  unfold SegRaises State.typeFaults State.rangeFaults
  rw [← segFault_eq]
  cases s.mode <;> simp [canonicalAccess]

/-- No segment-level exception applies exactly when both lists of them are empty. -/
theorem no_segRaises_iff (s : State) (r : SegReg) (off : Word) (n : Nat) (k : AccessKind) :
    (∀ f, ¬ SegRaises s r off n k f) ↔ s.typeFaults r k = [] ∧ s.rangeFaults r off n = [] := by
  simp only [segRaises_iff, not_or, List.eq_nil_iff_forall_not_mem, forall_and]

/-- The alignment-check exception of an access (R117). -/
theorem mem_alignFaults_iff (s : State) (a : Word) (n : Nat) (f : Fault) :
    f ∈ s.alignFaults a n ↔ f = .ac 0 ∧ s.alignCheckEnabled = true ∧ s.mode ≠ .real ∧
      (s.mode = .v86 ∨ s.cpl = 3) ∧ a.toNat % n ≠ 0 := by
  unfold State.alignFaults unaligned State.effCpl
  cases s.alignCheckEnabled <;> cases s.mode <;> simp <;> tauto

/-- The bytes an access reaches are those of its range that translate, or none (R45). -/
theorem reached_eq {s : State} {A : AddrSize} {r : SegReg} {off : Word} {n : Nat} {k : AccessKind}
    (h : Reaches s A r off n k) (hn : 0 < n) : s.reached A r off n k = s.physBytes r off n k := by
  obtain ⟨ht, hr⟩ := (no_segRaises_iff ..).1 h.noSegFault
  exact if_pos ⟨ht, hr, (wraps_false_iff s A r off hn).2 ⟨h.noWrap, h.noLinearWrap⟩⟩

theorem reached_eq_nil {s : State} {A : AddrSize} {r : SegReg} {off : Word} {n : Nat} {k : AccessKind}
    (h : ¬ Reaches s A r off n k) (hn : 0 < n) : s.reached A r off n k = [] := by
  refine if_neg ?_
  rintro ⟨ht, hr, hw⟩
  obtain ⟨h1, h2⟩ := (wraps_false_iff s A r off hn).1 hw
  exact h ⟨(no_segRaises_iff ..).2 ⟨ht, hr⟩, h1, h2⟩

/-- The test for device memory, condition by condition (R45). -/
theorem onDevice_reached_iff (s : State) (A : AddrSize) (r : SegReg) (off : Word) {n : Nat} (k : AccessKind)
    (hn : 0 < n) :
    s.onDevice (s.reached A r off n k) = true ↔ Reaches s A r off n k ∧ s.onDevice (s.physBytes r off n k) = true := by
  by_cases h : Reaches s A r off n k
  · simp [reached_eq h hn, h]
  · simp [reached_eq_nil h hn, h, State.onDevice]

/-- An access that is admitted reaches its bytes. -/
theorem AccessOk.reaches {s : State} {A : AddrSize} {r : SegReg} {off : Word} {n : Nat} {k : AccessKind}
    (h : AccessOk s A r off n k) : Reaches s A r off n k := by
  refine ⟨(no_segRaises_iff ..).2 ⟨?_, ?_⟩, h.noWrap, h.noLinearWrap⟩
  · exact (typeFaults_nil_iff s r k).2 fun m => ⟨h.notNull m, h.rightType m⟩
  · exact (rangeFaults_nil_iff ..).2 ⟨h.withinLimit, fun m => by simpa [canonicalAccess] using h.inCanonicalForm m⟩

/-- The exception reported is one of those that apply, R119 item 3. -/
theorem chooseFault_mem (s : State) (f : Fault) (fs : List Fault) : s.chooseFault f fs ∈ f :: fs := by
  cases fs with
  | nil => simp [State.chooseFault]
  | cons g gs =>
    have hlt : Config.faultChoice s.freeIndex % (gs.length + 2) < (f :: g :: gs).length :=
      Nat.mod_lt _ (Nat.succ_pos _)
    rw [State.chooseFault, List.getD_eq_getElem _ _ hlt]
    exact List.getElem_mem hlt

/-- One exception alone is reported as it is. -/
@[simp] theorem chooseFault_single (s : State) (f : Fault) : s.chooseFault f [] = f := rfl

theorem translated_length {s : State} {k : AccessKind} {as : List Word}
    (hf : ∀ a ∈ as, ∀ c, s.translate a k ≠ .pageFault c) :
    (as.filterMap fun a => physOf (s.translate a k)).length
      = as.length := by
  induction as with
  | nil => rfl
  | cons a as ih =>
    have ih := ih fun x hx c => hf x (by simp [hx]) c
    cases ht : s.translate a k with
    | pageFault c => exact absurd ht (hf a (by simp) c)
    | phys b => rw [List.filterMap_cons, ht, physOf_phys]; simp only [List.length_cons, ih]

theorem physBytes_length {s : State} {A : AddrSize} {r : SegReg} {off : Word} {n : Nat} {k : AccessKind}
    (h : AccessOk s A r off n k) : (s.physBytes r off n k).length = n := by
  rw [State.physBytes, translated_length fun a ha => (physOf_isSome_iff _).1 (h.noPageFault a ha), linBytes_length]

end Sys2Proof.Machine
end

