-- ==== Sys2Proof/Laws/Index.lean ====
section
/-! SUPPORT. The index registers at an address size (10_state.md R17, R18): reading, writing, and the index
arithmetic modulo `2^A` (40_movs.md R85). -/

namespace Sys2Proof.Machine

/-- `Idx` as a number: the register modulo `2^A` (R17). -/
theorem lowBits_toNat (A : AddrSize) (v : Word) : (lowBits A v).toNat = v.toNat % 2 ^ A.bits := by
  cases A with
  | a16 => simp [lowBits, AddrSize.bits]; omega
  | a32 => simp [lowBits, AddrSize.bits]; omega
  | a64 => exact (Nat.mod_eq_of_lt v.isLt).symm

/-- `Idx` bit by bit: the low `A` bits, zero-extended (R17). -/
theorem lowBits_getLsbD (A : AddrSize) (v : Word) (k : Nat) :
    (lowBits A v).getLsbD k = (decide (k < A.bits) && v.getLsbD k) := by
  cases A with
  | a16 => simp only [lowBits, AddrSize.bits, BitVec.getLsbD_setWidth]; by_cases h : k < 16 <;> simp [h]; omega
  | a32 => simp only [lowBits, AddrSize.bits, BitVec.getLsbD_setWidth]; by_cases h : k < 32 <;> simp [h]; omega
  | a64 =>
    by_cases h : k < 64
    · simp [lowBits, AddrSize.bits, h]
    · simp [lowBits, AddrSize.bits, h, BitVec.getLsbD_of_ge _ _ (Nat.le_of_not_lt h)]

/-- `SetIdx` bit by bit (R18). -/
theorem setLow_getLsbD (m : Mode) (A : AddrSize) (old v : Word) (k : Nat) :
    (setLow m A old v).getLsbD k =
      if k < A.bits then v.getLsbD k else if A = .a32 ∧ m = .long64 then false else old.getLsbD k := by
  cases A with
  | a16 =>
    simp only [setLow, AddrSize.bits, BitVec.getLsbD_append, BitVec.getLsbD_extractLsb']
    by_cases h : k < 16
    · simp [h]
    · by_cases h2 : k < 64
      · have : k - 16 < 48 := by omega
        have e : 16 + (k - 16) = k := by omega
        simp [h, this, e]
      · have : ¬ k - 16 < 48 := by omega
        simp [h, this, BitVec.getLsbD_of_ge _ _ (Nat.le_of_not_lt h2)]
  | a32 =>
    have key : (old.extractLsb' 32 32 ++ v.extractLsb' 0 32).getLsbD k = if k < 32 then v.getLsbD k else old.getLsbD k := by
      simp only [BitVec.getLsbD_append, BitVec.getLsbD_extractLsb']
      by_cases h : k < 32
      · simp [h]
      · by_cases h2 : k < 64
        · have : k - 32 < 32 := by omega
          have e : 32 + (k - 32) = k := by omega
          simp [h, this, e]
        · have : ¬ k - 32 < 32 := by omega
          simp [h, this, BitVec.getLsbD_of_ge _ _ (Nat.le_of_not_lt h2)]
    cases m
    case long64 =>
      simp only [setLow, AddrSize.bits, BitVec.getLsbD_setWidth]
      by_cases h : k < 32 <;> simp [h]; omega
    all_goals simpa [setLow, AddrSize.bits] using key
  | a64 =>
    by_cases h : k < 64
    · simp [setLow, AddrSize.bits, h]
    · simp [setLow, AddrSize.bits, h, BitVec.getLsbD_of_ge _ _ (Nat.le_of_not_lt h)]

/-- Reading back what `SetIdx` wrote, at the same address size. -/
theorem lowBits_setLow (m : Mode) (A : AddrSize) (old v : Word) : lowBits A (setLow m A old v) = lowBits A v := by
  apply BitVec.eq_of_getLsbD_eq
  intro k _
  rw [lowBits_getLsbD, lowBits_getLsbD, setLow_getLsbD]
  by_cases h : k < A.bits <;> simp [h]

theorem lowBits_lowBits (A : AddrSize) (v : Word) : lowBits A (lowBits A v) = lowBits A v := by
  apply BitVec.eq_of_getLsbD_eq
  intro k _
  simp [lowBits_getLsbD]

theorem AddrSize_pow_dvd (A : AddrSize) : 2 ^ A.bits ∣ 2 ^ 64 := by cases A <;> decide

/-- The low bits of a sum depend on the low bits only. -/
theorem lowBits_add_congr {A : AddrSize} {x y : Word} (n : Word) (h : lowBits A x = lowBits A y) : lowBits A (x + n) = lowBits A (y + n) := by
  apply BitVec.eq_of_toNat_eq
  have h' := congrArg BitVec.toNat h
  simp only [lowBits_toNat, BitVec.toNat_add, Nat.mod_mod_of_dvd _ (AddrSize_pow_dvd A)] at *
  rw [Nat.add_mod, h', ← Nat.add_mod]

/-- The low bits of a difference depend on the low bits only. -/
theorem lowBits_sub_congr {A : AddrSize} {x y u v : Word} (h : lowBits A x = lowBits A y) (k : lowBits A u = lowBits A v) :
    lowBits A (x - u) = lowBits A (y - v) := by
  have hd := AddrSize_pow_dvd A
  have h' := congrArg BitVec.toNat h
  have k' := congrArg BitVec.toNat k
  apply BitVec.eq_of_toNat_eq
  simp only [lowBits_toNat, BitVec.toNat_sub, Nat.mod_mod_of_dvd _ hd] at *
  have h2 : u.toNat < 2 ^ 64 := u.isLt
  have h3 : v.toNat < 2 ^ 64 := v.isLt
  refine Nat.ModEq.add ?_ h'
  obtain ⟨m, hm⟩ := hd
  exact Nat.ModEq.add_right_cancel (c := u.toNat) (d := v.toNat) k' (by
    rw [Nat.sub_add_cancel h2.le, Nat.sub_add_cancel h3.le])

/-- An index plus or minus a distance, modulo `2^A` (R85, R102). -/
theorem lowBits_offset_toNat (A : AddrSize) (df : Bool) (n : Nat) (v : Word) :
    ((lowBits A (if df then v - BitVec.ofNat 64 n else v + BitVec.ofNat 64 n)).toNat : Int)
      = ((v.toNat : Int) + if df then -(n : Int) else n) % 2 ^ A.bits := by
  have hd : ((2 ^ A.bits : Nat) : Int) ∣ 18446744073709551616 := by cases A <;> decide
  push_cast at hd
  rw [lowBits_toNat]
  cases df
  · simp only [Bool.false_eq_true, if_false, BitVec.toNat_add, BitVec.toNat_ofNat]
    push_cast
    rw [Int.emod_emod_of_dvd _ hd, Int.add_emod, Int.emod_emod_of_dvd _ hd, ← Int.add_emod]
  · have hn : n % 2 ^ 64 ≤ 2 ^ 64 := (Nat.mod_lt _ (by norm_num)).le
    simp only [if_true, BitVec.toNat_sub, BitVec.toNat_ofNat]
    push_cast [Nat.cast_sub hn]
    rw [Int.emod_emod_of_dvd _ hd]
    refine Int.emod_emod_of_dvd _ hd |>.symm.trans ?_ |>.trans (Int.emod_emod_of_dvd _ hd)
    congr 1
    omega

end Sys2Proof.Machine
end

