-- ==== Sys2Proof/Laws/State.lean ====
section
/-! SUPPORT. What each update of the state does to each field, and that the operations which read only the
fields no instruction writes (R28) answer the same after every update. -/

namespace Sys2Proof.Machine

/-! ### One lemma per field per update -/

@[simp] theorem State.setRsi_rsi (s : State) (A : AddrSize) (v : Word) : (s.setRsi A v).rsi = setLow s.mode A s.rsi v := rfl
@[simp] theorem State.setRsi_rdi (s : State) (A : AddrSize) (v : Word) : (s.setRsi A v).rdi = s.rdi := rfl
@[simp] theorem State.setRsi_rcx (s : State) (A : AddrSize) (v : Word) : (s.setRsi A v).rcx = s.rcx := rfl
@[simp] theorem State.setRsi_other (s : State) (A : AddrSize) (v : Word) : (s.setRsi A v).other = s.other := rfl
@[simp] theorem State.setRsi_pc (s : State) (A : AddrSize) (v : Word) : (s.setRsi A v).pc = s.pc := rfl
@[simp] theorem State.setRsi_eflags (s : State) (A : AddrSize) (v : Word) : (s.setRsi A v).eflags = s.eflags := rfl
@[simp] theorem State.setRsi_mode (s : State) (A : AddrSize) (v : Word) : (s.setRsi A v).mode = s.mode := rfl
@[simp] theorem State.setRsi_cpl (s : State) (A : AddrSize) (v : Word) : (s.setRsi A v).cpl = s.cpl := rfl
@[simp] theorem State.setRsi_alignCheckEnabled (s : State) (A : AddrSize) (v : Word) : (s.setRsi A v).alignCheckEnabled = s.alignCheckEnabled := rfl
@[simp] theorem State.setRsi_codeDefault16 (s : State) (A : AddrSize) (v : Word) : (s.setRsi A v).codeDefault16 = s.codeDefault16 := rfl
@[simp] theorem State.setRsi_seg (s : State) (A : AddrSize) (v : Word) : (s.setRsi A v).seg = s.seg := rfl
@[simp] theorem State.setRsi_mem (s : State) (A : AddrSize) (v : Word) : (s.setRsi A v).mem = s.mem := rfl
@[simp] theorem State.setRsi_cfg (s : State) (A : AddrSize) (v : Word) : (s.setRsi A v).cfg = s.cfg := rfl
@[simp] theorem State.setRsi_stored (s : State) (A : AddrSize) (v : Word) : (s.setRsi A v).stored = s.stored := rfl
@[simp] theorem State.setRsi_freeIndex (s : State) (A : AddrSize) (v : Word) : (s.setRsi A v).freeIndex = s.freeIndex := rfl

@[simp] theorem State.setRdi_rsi (s : State) (A : AddrSize) (v : Word) : (s.setRdi A v).rsi = s.rsi := rfl
@[simp] theorem State.setRdi_rdi (s : State) (A : AddrSize) (v : Word) : (s.setRdi A v).rdi = setLow s.mode A s.rdi v := rfl
@[simp] theorem State.setRdi_rcx (s : State) (A : AddrSize) (v : Word) : (s.setRdi A v).rcx = s.rcx := rfl
@[simp] theorem State.setRdi_other (s : State) (A : AddrSize) (v : Word) : (s.setRdi A v).other = s.other := rfl
@[simp] theorem State.setRdi_pc (s : State) (A : AddrSize) (v : Word) : (s.setRdi A v).pc = s.pc := rfl
@[simp] theorem State.setRdi_eflags (s : State) (A : AddrSize) (v : Word) : (s.setRdi A v).eflags = s.eflags := rfl
@[simp] theorem State.setRdi_mode (s : State) (A : AddrSize) (v : Word) : (s.setRdi A v).mode = s.mode := rfl
@[simp] theorem State.setRdi_cpl (s : State) (A : AddrSize) (v : Word) : (s.setRdi A v).cpl = s.cpl := rfl
@[simp] theorem State.setRdi_alignCheckEnabled (s : State) (A : AddrSize) (v : Word) : (s.setRdi A v).alignCheckEnabled = s.alignCheckEnabled := rfl
@[simp] theorem State.setRdi_codeDefault16 (s : State) (A : AddrSize) (v : Word) : (s.setRdi A v).codeDefault16 = s.codeDefault16 := rfl
@[simp] theorem State.setRdi_seg (s : State) (A : AddrSize) (v : Word) : (s.setRdi A v).seg = s.seg := rfl
@[simp] theorem State.setRdi_mem (s : State) (A : AddrSize) (v : Word) : (s.setRdi A v).mem = s.mem := rfl
@[simp] theorem State.setRdi_cfg (s : State) (A : AddrSize) (v : Word) : (s.setRdi A v).cfg = s.cfg := rfl
@[simp] theorem State.setRdi_stored (s : State) (A : AddrSize) (v : Word) : (s.setRdi A v).stored = s.stored := rfl
@[simp] theorem State.setRdi_freeIndex (s : State) (A : AddrSize) (v : Word) : (s.setRdi A v).freeIndex = s.freeIndex := rfl

@[simp] theorem State.setRcx_rsi (s : State) (A : AddrSize) (v : Word) : (s.setRcx A v).rsi = s.rsi := rfl
@[simp] theorem State.setRcx_rdi (s : State) (A : AddrSize) (v : Word) : (s.setRcx A v).rdi = s.rdi := rfl
@[simp] theorem State.setRcx_rcx (s : State) (A : AddrSize) (v : Word) : (s.setRcx A v).rcx = setLow s.mode A s.rcx v := rfl
@[simp] theorem State.setRcx_other (s : State) (A : AddrSize) (v : Word) : (s.setRcx A v).other = s.other := rfl
@[simp] theorem State.setRcx_pc (s : State) (A : AddrSize) (v : Word) : (s.setRcx A v).pc = s.pc := rfl
@[simp] theorem State.setRcx_eflags (s : State) (A : AddrSize) (v : Word) : (s.setRcx A v).eflags = s.eflags := rfl
@[simp] theorem State.setRcx_mode (s : State) (A : AddrSize) (v : Word) : (s.setRcx A v).mode = s.mode := rfl
@[simp] theorem State.setRcx_cpl (s : State) (A : AddrSize) (v : Word) : (s.setRcx A v).cpl = s.cpl := rfl
@[simp] theorem State.setRcx_alignCheckEnabled (s : State) (A : AddrSize) (v : Word) : (s.setRcx A v).alignCheckEnabled = s.alignCheckEnabled := rfl
@[simp] theorem State.setRcx_codeDefault16 (s : State) (A : AddrSize) (v : Word) : (s.setRcx A v).codeDefault16 = s.codeDefault16 := rfl
@[simp] theorem State.setRcx_seg (s : State) (A : AddrSize) (v : Word) : (s.setRcx A v).seg = s.seg := rfl
@[simp] theorem State.setRcx_mem (s : State) (A : AddrSize) (v : Word) : (s.setRcx A v).mem = s.mem := rfl
@[simp] theorem State.setRcx_cfg (s : State) (A : AddrSize) (v : Word) : (s.setRcx A v).cfg = s.cfg := rfl
@[simp] theorem State.setRcx_stored (s : State) (A : AddrSize) (v : Word) : (s.setRcx A v).stored = s.stored := rfl
@[simp] theorem State.setRcx_freeIndex (s : State) (A : AddrSize) (v : Word) : (s.setRcx A v).freeIndex = s.freeIndex := rfl

@[simp] theorem State.setPc_rsi (s : State) (v : Word) : (s.setPc v).rsi = s.rsi := rfl
@[simp] theorem State.setPc_rdi (s : State) (v : Word) : (s.setPc v).rdi = s.rdi := rfl
@[simp] theorem State.setPc_rcx (s : State) (v : Word) : (s.setPc v).rcx = s.rcx := rfl
@[simp] theorem State.setPc_other (s : State) (v : Word) : (s.setPc v).other = s.other := rfl
@[simp] theorem State.setPc_pc (s : State) (v : Word) : (s.setPc v).pc = v := rfl
@[simp] theorem State.setPc_eflags (s : State) (v : Word) : (s.setPc v).eflags = s.eflags := rfl
@[simp] theorem State.setPc_mode (s : State) (v : Word) : (s.setPc v).mode = s.mode := rfl
@[simp] theorem State.setPc_cpl (s : State) (v : Word) : (s.setPc v).cpl = s.cpl := rfl
@[simp] theorem State.setPc_alignCheckEnabled (s : State) (v : Word) : (s.setPc v).alignCheckEnabled = s.alignCheckEnabled := rfl
@[simp] theorem State.setPc_codeDefault16 (s : State) (v : Word) : (s.setPc v).codeDefault16 = s.codeDefault16 := rfl
@[simp] theorem State.setPc_seg (s : State) (v : Word) : (s.setPc v).seg = s.seg := rfl
@[simp] theorem State.setPc_mem (s : State) (v : Word) : (s.setPc v).mem = s.mem := rfl
@[simp] theorem State.setPc_cfg (s : State) (v : Word) : (s.setPc v).cfg = s.cfg := rfl
@[simp] theorem State.setPc_stored (s : State) (v : Word) : (s.setPc v).stored = s.stored := rfl
@[simp] theorem State.setPc_freeIndex (s : State) (v : Word) : (s.setPc v).freeIndex = s.freeIndex := rfl

@[simp] theorem State.store_rsi (s : State) (as : List Nat) (bs : List Byte) : (s.store as bs).rsi = s.rsi := rfl
@[simp] theorem State.store_rdi (s : State) (as : List Nat) (bs : List Byte) : (s.store as bs).rdi = s.rdi := rfl
@[simp] theorem State.store_rcx (s : State) (as : List Nat) (bs : List Byte) : (s.store as bs).rcx = s.rcx := rfl
@[simp] theorem State.store_other (s : State) (as : List Nat) (bs : List Byte) : (s.store as bs).other = s.other := rfl
@[simp] theorem State.store_pc (s : State) (as : List Nat) (bs : List Byte) : (s.store as bs).pc = s.pc := rfl
@[simp] theorem State.store_eflags (s : State) (as : List Nat) (bs : List Byte) : (s.store as bs).eflags = s.eflags := rfl
@[simp] theorem State.store_mode (s : State) (as : List Nat) (bs : List Byte) : (s.store as bs).mode = s.mode := rfl
@[simp] theorem State.store_cpl (s : State) (as : List Nat) (bs : List Byte) : (s.store as bs).cpl = s.cpl := rfl
@[simp] theorem State.store_alignCheckEnabled (s : State) (as : List Nat) (bs : List Byte) : (s.store as bs).alignCheckEnabled = s.alignCheckEnabled := rfl
@[simp] theorem State.store_codeDefault16 (s : State) (as : List Nat) (bs : List Byte) : (s.store as bs).codeDefault16 = s.codeDefault16 := rfl
@[simp] theorem State.store_seg (s : State) (as : List Nat) (bs : List Byte) : (s.store as bs).seg = s.seg := rfl
@[simp] theorem State.store_mem (s : State) (as : List Nat) (bs : List Byte) : (s.store as bs).mem = Memory.writeAll s.mem as bs := rfl
@[simp] theorem State.store_cfg (s : State) (as : List Nat) (bs : List Byte) : (s.store as bs).cfg = s.cfg := rfl
@[simp] theorem State.store_stored (s : State) (as : List Nat) (bs : List Byte) : (s.store as bs).stored = as.foldr insertAddr s.stored := rfl
@[simp] theorem State.store_freeIndex (s : State) (as : List Nat) (bs : List Byte) : (s.store as bs).freeIndex = s.freeIndex := rfl

@[simp] theorem State.tick_rsi (s : State) : (s.tick).rsi = s.rsi := rfl
@[simp] theorem State.tick_rdi (s : State) : (s.tick).rdi = s.rdi := rfl
@[simp] theorem State.tick_rcx (s : State) : (s.tick).rcx = s.rcx := rfl
@[simp] theorem State.tick_other (s : State) : (s.tick).other = s.other := rfl
@[simp] theorem State.tick_pc (s : State) : (s.tick).pc = s.pc := rfl
@[simp] theorem State.tick_eflags (s : State) : (s.tick).eflags = s.eflags := rfl
@[simp] theorem State.tick_mode (s : State) : (s.tick).mode = s.mode := rfl
@[simp] theorem State.tick_cpl (s : State) : (s.tick).cpl = s.cpl := rfl
@[simp] theorem State.tick_alignCheckEnabled (s : State) : (s.tick).alignCheckEnabled = s.alignCheckEnabled := rfl
@[simp] theorem State.tick_codeDefault16 (s : State) : (s.tick).codeDefault16 = s.codeDefault16 := rfl
@[simp] theorem State.tick_seg (s : State) : (s.tick).seg = s.seg := rfl
@[simp] theorem State.tick_mem (s : State) : (s.tick).mem = s.mem := rfl
@[simp] theorem State.tick_cfg (s : State) : (s.tick).cfg = s.cfg := rfl
@[simp] theorem State.tick_stored (s : State) : (s.tick).stored = s.stored := rfl
@[simp] theorem State.tick_freeIndex (s : State) : (s.tick).freeIndex = s.freeIndex + 1 := rfl

@[simp] theorem State.loadCode_rsi (s : State) (bs : List Byte) : (s.loadCode bs).rsi = s.rsi := rfl
@[simp] theorem State.loadCode_rdi (s : State) (bs : List Byte) : (s.loadCode bs).rdi = s.rdi := rfl
@[simp] theorem State.loadCode_rcx (s : State) (bs : List Byte) : (s.loadCode bs).rcx = s.rcx := rfl
@[simp] theorem State.loadCode_other (s : State) (bs : List Byte) : (s.loadCode bs).other = s.other := rfl
@[simp] theorem State.loadCode_pc (s : State) (bs : List Byte) : (s.loadCode bs).pc = s.pc := rfl
@[simp] theorem State.loadCode_eflags (s : State) (bs : List Byte) : (s.loadCode bs).eflags = s.eflags := rfl
@[simp] theorem State.loadCode_mode (s : State) (bs : List Byte) : (s.loadCode bs).mode = s.mode := rfl
@[simp] theorem State.loadCode_cpl (s : State) (bs : List Byte) : (s.loadCode bs).cpl = s.cpl := rfl
@[simp] theorem State.loadCode_alignCheckEnabled (s : State) (bs : List Byte) : (s.loadCode bs).alignCheckEnabled = s.alignCheckEnabled := rfl
@[simp] theorem State.loadCode_codeDefault16 (s : State) (bs : List Byte) : (s.loadCode bs).codeDefault16 = s.codeDefault16 := rfl
@[simp] theorem State.loadCode_seg (s : State) (bs : List Byte) : (s.loadCode bs).seg = s.seg := rfl
@[simp] theorem State.loadCode_mem (s : State) (bs : List Byte) : (s.loadCode bs).mem = Memory.writeAll s.mem (s.codeAddrs bs.length) bs := rfl
@[simp] theorem State.loadCode_cfg (s : State) (bs : List Byte) : (s.loadCode bs).cfg = s.cfg := rfl
@[simp] theorem State.loadCode_stored (s : State) (bs : List Byte) : (s.loadCode bs).stored = s.stored.filter (fun a => !(s.codeAddrs bs.length).contains a) := rfl
@[simp] theorem State.loadCode_freeIndex (s : State) (bs : List Byte) : (s.loadCode bs).freeIndex = s.freeIndex := rfl

/-! ### The fields no instruction writes -/

theorem SameEnv.refl (s : State) : SameEnv s s := ⟨rfl, rfl, rfl, rfl, rfl, rfl, rfl, rfl⟩

theorem SameEnv.trans {s t u : State} (h : SameEnv s t) (k : SameEnv t u) : SameEnv s u :=
  ⟨k.other.trans h.other, k.eflags.trans h.eflags, k.mode.trans h.mode, k.cpl.trans h.cpl,
    k.alignCheckEnabled.trans h.alignCheckEnabled, k.codeDefault16.trans h.codeDefault16, k.seg.trans h.seg,
    k.cfg.trans h.cfg⟩

theorem sameEnv_setRsi (s : State) (A : AddrSize) (v : Word) : SameEnv s (s.setRsi A v) := ⟨rfl, rfl, rfl, rfl, rfl, rfl, rfl, rfl⟩
theorem sameEnv_setRdi (s : State) (A : AddrSize) (v : Word) : SameEnv s (s.setRdi A v) := ⟨rfl, rfl, rfl, rfl, rfl, rfl, rfl, rfl⟩
theorem sameEnv_setRcx (s : State) (A : AddrSize) (v : Word) : SameEnv s (s.setRcx A v) := ⟨rfl, rfl, rfl, rfl, rfl, rfl, rfl, rfl⟩
theorem sameEnv_setPc (s : State) (v : Word) : SameEnv s (s.setPc v) := ⟨rfl, rfl, rfl, rfl, rfl, rfl, rfl, rfl⟩
theorem sameEnv_store (s : State) (as : List Nat) (bs : List Byte) : SameEnv s (s.store as bs) := ⟨rfl, rfl, rfl, rfl, rfl, rfl, rfl, rfl⟩
theorem sameEnv_tick (s : State) : SameEnv s (s.tick) := ⟨rfl, rfl, rfl, rfl, rfl, rfl, rfl, rfl⟩
theorem sameEnv_loadCode (s : State) (bs : List Byte) : SameEnv s (s.loadCode bs) := ⟨rfl, rfl, rfl, rfl, rfl, rfl, rfl, rfl⟩

/-- A state with the same unwritten fields is the first one with the written fields changed. -/
theorem SameEnv.eq_update {s t : State} (h : SameEnv s t) :
    t = { s with rsi := t.rsi, rdi := t.rdi, rcx := t.rcx, pc := t.pc, mem := t.mem, stored := t.stored,
                 freeIndex := t.freeIndex } := by
  obtain ⟨h1, h2, h3, h4, h5, h6, h7, h8⟩ := h
  cases s; cases t
  simp_all

section
variable {s t : State} (h : SameEnv s t)
include h

theorem SameEnv.df_eq : t.df = s.df := by rw [h.eq_update]; rfl

theorem SameEnv.effCpl_eq : t.effCpl = s.effCpl := by rw [h.eq_update]; rfl

theorem SameEnv.default16_eq : t.default16 = s.default16 := by rw [h.eq_update]; rfl

theorem SameEnv.codeCtx_eq : t.codeCtx = s.codeCtx := by rw [h.eq_update]; rfl

theorem SameEnv.segOf_eq (r : SegReg) : t.segOf r = s.segOf r := by rw [h.eq_update]; rfl

theorem SameEnv.lin_eq (r : SegReg) (off : Word) : t.lin r off = s.lin r off := by rw [h.eq_update]; rfl

theorem SameEnv.translate_eq (a : Word) (k : AccessKind) : t.translate a k = s.translate a k := by
  rw [h.eq_update]; rfl

theorem SameEnv.translateAll_eq (k : AccessKind) (as : List Word) : t.translateAll k as = s.translateAll k as := by
  induction as with
  | nil => rfl
  | cons a as ih => simp only [State.translateAll, ih, h.translate_eq]

/-- The checks of an access read nothing that an instruction writes. -/
theorem SameEnv.check_eq (A : AddrSize) (r : SegReg) (off : Word) (n : Nat) (k : AccessKind) :
    t.check A r off n k = s.check A r off n k := by
  have h1 : t.typeFaults r k = s.typeFaults r k := by rw [h.eq_update]; rfl
  have h2 : t.rangeFaults r off n = s.rangeFaults r off n := by rw [h.eq_update]; rfl
  have h3 : ∀ a, t.alignFaults a n = s.alignFaults a n := by intro a; rw [h.eq_update]; rfl
  have h4 : t.wraps A r off n = s.wraps A r off n := by rw [h.eq_update]; rfl
  have h5 : t.wraps4G r off n = s.wraps4G r off n := by rw [h.eq_update]; rfl
  simp only [State.check, h1, h2, h3, h4, h5, h.lin_eq, h.translateAll_eq]

theorem SameEnv.physBytes_eq (r : SegReg) (off : Word) (n : Nat) (k : AccessKind) :
    t.physBytes r off n k = s.physBytes r off n k := by rw [h.eq_update]; rfl

theorem SameEnv.onDevice_eq (as : List Nat) : t.onDevice as = s.onDevice as := by rw [h.eq_update]; rfl

theorem SameEnv.reached_eq (A : AddrSize) (r : SegReg) (off : Word) (n : Nat) (k : AccessKind) :
    t.reached A r off n k = s.reached A r off n k := by rw [h.eq_update]; rfl

/-- The tests of a launch read the index registers, `pc` for the instruction's own bytes, and nothing else that an
instruction writes. -/
theorem SameEnv.blockOnDevice_eq {A : AddrSize} (hs : t.idxRsi A = s.idxRsi A) (hd : t.idxRdi A = s.idxRdi A) (z : OpSize)
    (r : SegReg) (c : Nat) : t.blockOnDevice z A r c = s.blockOnDevice z A r c := by
  simp only [State.blockOnDevice, State.srcElement, State.dstElement, h.df_eq, h.reached_eq, h.onDevice_eq, h.cfg, hs, hd]

theorem SameEnv.blockStoresTo_eq {A : AddrSize} (hd : t.idxRdi A = s.idxRdi A) (z : OpSize) (c x : Nat) :
    t.blockStoresTo z A c x = s.blockStoresTo z A c x := by
  have ho : ∀ r a, t.offsetOf r a = s.offsetOf r a := by intro r a; rw [h.eq_update]; rfl
  simp only [State.blockStoresTo, State.dstElement, h.df_eq, h.reached_eq, h.cfg, hd, ho]

theorem SameEnv.ipBits_eq : t.ipBits = s.ipBits := by rw [h.eq_update]; rfl

theorem SameEnv.codeOffsetOk_eq (off : Nat) : t.codeOffsetOk off = s.codeOffsetOk off := by
  rw [h.eq_update]; rfl

theorem SameEnv.realSegs_eq : t.realSegs = s.realSegs := by rw [h.eq_update]; rfl

theorem SameEnv.ipOffset_eq (hp : t.pc = s.pc) : t.ipOffset = s.ipOffset := by
  rw [h.eq_update, hp]; rfl

theorem SameEnv.codeAddrs_eq (hp : t.pc = s.pc) (k : Nat) : t.codeAddrs k = s.codeAddrs k := by
  have ha : ∀ i, t.codeAddr i = s.codeAddr i := by intro i; rw [h.eq_update, hp]; rfl
  have hf : ∀ k i, t.codeAddrsFrom i k = s.codeAddrsFrom i k := by
    intro k
    induction k with
    | zero => intro i; rfl
    | succ k ih => intro i; simp only [State.codeAddrsFrom, ha, ih]
  exact hf k 0

end

end Sys2Proof.Machine
end

