-- ==== Sys2Proof/Laws/Block.lean ====
section
/-! SUPPORT. The elements of a block (41_rep_movs.md R102) and the two tests that look at all of them: `blockOnDevice_iff`
(20_memory.md R45) and `blockOnOwnBytes_iff` (R50) say what they test for. -/

namespace Sys2Proof.Machine

theorem anyBelow_iff {c : Nat} {f : Nat → Bool} : anyBelow c f = true ↔ ∃ j < c, f j = true := by
  induction c with
  | zero => simp [anyBelow]
  | succ c ih => simp only [anyBelow, Bool.or_eq_true, ih, Nat.exists_lt_succ_right, or_comm]

/-! ### Offsets of elements -/

theorem indexAfter_toNat (A : AddrSize) (df : Bool) (n : Nat) (idx : Word) (k : Nat) :
    ((indexAfter A df n idx k).toNat : Int) = ((idx.toNat : Int) + if df then -((k * n : Nat) : Int) else (k * n : Nat)) % 2 ^ A.bits :=
  lowBits_offset_toNat A df (k * n) idx

/-- Element 0 is at the index. -/
theorem indexAfter_zero (A : AddrSize) (df : Bool) (n : Nat) (v : Word) :
    indexAfter A df n (lowBits A v) 0 = lowBits A v := by
  simp [indexAfter, lowBits_lowBits]

/-- The elements that follow an element move are those after the first. -/
theorem indexAfter_stepIndex (A : AddrSize) (df : Bool) (n : Nat) (idx : Word) (k : Nat) :
    indexAfter A df n (stepIndex A df n idx) k = indexAfter A df n idx (k + 1) := by
  apply BitVec.eq_of_toNat_eq
  zify
  rw [indexAfter_toNat, indexAfter_toNat, stepIndex, lowBits_offset_toNat, Int.emod_add_emod]
  congr 1
  cases df <;> simp <;> ring

theorem indexAfter_lt (A : AddrSize) (df : Bool) (n : Nat) (idx : Word) (k : Nat) :
    (indexAfter A df n idx k).toNat < 2 ^ A.bits := by
  rw [indexAfter, lowBits_toNat]
  exact Nat.mod_lt _ (by positivity)

/-- `elementNo` answers the number of an element of the same offset, and of no later one (R102). -/
theorem elementNo_spec (A : AddrSize) (df : Bool) (z : OpSize) (idx : Word) (j : Nat) :
    elementNo A df z.bytes idx (indexAfter A df z.bytes idx j) ≤ j ∧
      indexAfter A df z.bytes idx (elementNo A df z.bytes idx (indexAfter A df z.bytes idx j))
        = indexAfter A df z.bytes idx j := by
  have hz := OpSize_bytes_pos z
  have hd : (lowBits A (if df then idx - indexAfter A df z.bytes idx j else indexAfter A df z.bytes idx j - idx))
      = lowBits A (BitVec.ofNat 64 (j * z.bytes)) := by
    unfold indexAfter
    cases df
    · exact (lowBits_sub_congr (lowBits_lowBits ..) rfl).trans (by congr 1; simp only [Bool.false_eq_true, if_false]; bv_omega)
    · exact (lowBits_sub_congr rfl (lowBits_lowBits ..)).trans (by congr 1; simp)
  have hdvd : z.bytes ∣ 2 ^ A.bits := by cases z <;> cases A <;> decide
  have hmul : elementNo A df z.bytes idx (indexAfter A df z.bytes idx j) * z.bytes = (j * z.bytes) % 2 ^ A.bits := by
    rw [elementNo, hd, lowBits_toNat, BitVec.toNat_ofNat, Nat.mod_mod_of_dvd _ (AddrSize_pow_dvd A)]
    exact Nat.div_mul_cancel ((Nat.dvd_mod_iff hdvd).2 (Nat.dvd_mul_left ..))
  refine ⟨Nat.le_of_mul_le_mul_right (hmul ▸ Nat.mod_le _ _) hz, ?_⟩
  unfold indexAfter at hmul ⊢
  rw [hmul]
  have hk : lowBits A (BitVec.ofNat 64 (j * z.bytes % 2 ^ A.bits)) = lowBits A (BitVec.ofNat 64 (j * z.bytes)) := by
    apply BitVec.eq_of_toNat_eq
    simp only [lowBits_toNat, BitVec.toNat_ofNat, Nat.mod_mod_of_dvd _ (AddrSize_pow_dvd A), Nat.mod_mod]
  cases df
  · simpa only [Bool.false_eq_true, if_false, BitVec.add_comm] using lowBits_add_congr idx hk
  · exact lowBits_sub_congr rfl hk
/-! ### Which elements can have a byte -/

theorem mem_preimages {ts : List TransRange} {a x : Nat} {k : AccessKind} {l : BitVec 2}
    (h : translateIn ts a k l = .phys x) : a ∈ preimages ts x := by
  induction ts with
  | nil => cases h; simp [preimages]
  | cons t ts ih =>
    rw [translateIn] at h
    split at h
    · rename_i hm
      cases hr : t.result with
      | pageFault c => rw [hr] at h; cases h
      | phys b =>
        rw [hr] at h
        cases h
        simp only [rangeMatches, Bool.and_eq_true, decide_eq_true_eq] at hm
        have hb : b ≤ b + (a - t.first) := Nat.le_add_right ..
        have ha : a = t.first + (b + (a - t.first) - b) := by omega
        refine List.mem_cons_of_mem _ (List.mem_filterMap.2 ⟨t, by simp, ?_⟩)
        rw [hr]
        simp only [if_pos hb, ← ha]
    · have h' := ih h
      simp only [preimages, List.mem_cons, List.filterMap_cons] at h' ⊢
      rcases h' with h' | h'
      · exact .inl h'
      · refine .inr ?_
        split
        · exact h'
        · exact List.mem_cons_of_mem _ h'

theorem translate_mem_preimages {s : State} {a : Word} {k : AccessKind} {x : Nat} (h : s.translate a k = .phys x) :
    a.toNat ∈ preimages s.cfg.translate x := by
  unfold State.translate at h
  split at h
  · cases h; simp [preimages]
  all_goals exact mem_preimages h

theorem mem_linBytes {a x : Word} {n : Nat} (h : x ∈ linBytes a n) : ∃ b < n, x = a + BitVec.ofNat 64 b := by
  induction n generalizing a with
  | zero => cases h
  | succ n ih =>
    rcases List.mem_cons.1 h with rfl | h
    · exact ⟨0, Nat.succ_pos _, by simp⟩
    · obtain ⟨b, hb, rfl⟩ := ih h
      exact ⟨b + 1, Nat.succ_lt_succ hb, by bv_omega⟩

/-- An offset is known from its linear address. -/
theorem offsetOf_lin (s : State) (r : SegReg) {off : Word} (h : s.mode ≠ .long64 → off.toNat < 2 ^ 32) :
    s.offsetOf r (s.lin r off) = off := by
  unfold State.offsetOf State.lin
  cases hm : s.mode with
  | long64 => simp only; bv_omega
  | _ =>
    have h := h (by simp [hm])
    simp only
    apply BitVec.eq_of_toNat_eq
    simp only [BitVec.toNat_setWidth, BitVec.toNat_sub, BitVec.toNat_add]
    omega

/-- What an access reaches, byte by byte. -/
theorem mem_reached_iff (s : State) (A : AddrSize) (r : SegReg) (off : Word) {n : Nat} (k : AccessKind) (hn : 0 < n)
    (x : Nat) : x ∈ s.reached A r off n k ↔ Reaches s A r off n k ∧ x ∈ s.physBytes r off n k := by
  by_cases h : Reaches s A r off n k
  · simp [reached_eq h hn, h]
  · simp [reached_eq_nil h hn, h]

/-- Outside 64-bit mode no instruction has address size 64 (R58). -/
theorem addrSizeOf_ne_a64 {c : CodeCtx} (p : Spelling) (h : c.mode ≠ .long64) : addrSizeOf c p ≠ .a64 := by
  unfold addrSizeOf
  split
  · exact absurd ‹_› h
  all_goals split <;> simp

/-- No element is missed: `blockStoresTo` says whether some one of the `c` elements has the byte. -/
theorem blockStoresTo_iff (s : State) (z : OpSize) (p : Spelling) (c x : Nat) :
    s.blockStoresTo z (addrSizeOf s.codeCtx p) c x = true ↔ ∃ j < c, x ∈ s.dstElement z (addrSizeOf s.codeCtx p) j := by
  have hz := OpSize_bytes_pos z
  simp only [State.blockStoresTo, List.any_eq_true, Bool.and_eq_true, decide_eq_true_eq, List.contains_iff_mem, List.mem_range]
  constructor
  · rintro ⟨a, -, b, -, hj, hx⟩
    exact ⟨_, hj, hx⟩
  · rintro ⟨j, hj, hx⟩
    have hr := ((mem_reached_iff _ _ _ _ _ hz _).1 hx).2
    obtain ⟨a, ha, hp⟩ := List.mem_filterMap.1 hr
    obtain ⟨b, hb, rfl⟩ := mem_linBytes ha
    have hp' := physOf_eq_some.1 hp
    have hoff := offsetOf_lin s .es (off := indexAfter (addrSizeOf s.codeCtx p) s.df z.bytes
      (s.idxRdi (addrSizeOf s.codeCtx p)) j) fun hm => by
        have := addrSizeOf_ne_a64 (c := s.codeCtx) p hm
        have hlt := indexAfter_lt (addrSizeOf s.codeCtx p) s.df z.bytes (s.idxRdi (addrSizeOf s.codeCtx p)) j
        cases hA : addrSizeOf s.codeCtx p <;> rw [hA] at hlt this <;> simp [AddrSize.bits] at hlt this ⊢ <;> omega
    obtain ⟨h1, h2⟩ := elementNo_spec (addrSizeOf s.codeCtx p) s.df z (s.idxRdi (addrSizeOf s.codeCtx p)) j
    refine ⟨_, translate_mem_preimages hp', b, hb, ?_⟩
    rw [BitVec.ofNat_toNat, BitVec.setWidth_eq, BitVec.add_sub_cancel, hoff]
    refine ⟨h1.trans_lt hj, ?_⟩
    rw [State.dstElement, h2]
    exact hx

/-! ### What the tests of a launch test for -/

theorem blockOnDevice_iff (s : State) (z : OpSize) (p : Spelling) (c : Nat) :
    s.blockOnDevice z (addrSizeOf s.codeCtx p) (srcSegOf s.codeCtx p) c = true ↔ ReachesDevice z p c s := by
  have hz := OpSize_bytes_pos z
  simp only [State.blockOnDevice, Bool.and_eq_true, anyBelow_iff, Bool.or_eq_true, State.srcElement, State.dstElement,
    onDevice_reached_iff _ _ _ _ _ hz]
  refine ⟨fun h => h.2, fun h => ⟨?_, h⟩⟩
  obtain ⟨j, -, ⟨-, h⟩ | ⟨-, h⟩⟩ := h <;>
  · obtain ⟨a, -, ha⟩ := List.any_eq_true.1 h
    obtain ⟨d, hd, -⟩ := List.any_eq_true.1 ha
    cases hl : s.cfg.devices with
    | nil => rw [hl] at hd; cases hd
    | cons d ds => rfl

theorem blockOnOwnBytes_iff (s : State) (z : OpSize) (p : Spelling) (c : Nat) :
    s.blockOnOwnBytes z (addrSizeOf s.codeCtx p) c p.len = true ↔ MeetsOwnBytes z p c s := by
  have hz := OpSize_bytes_pos z
  simp only [State.blockOnOwnBytes, List.any_eq_true, blockStoresTo_iff, State.dstElement, mem_reached_iff _ _ _ _ _ hz]
  constructor
  · rintro ⟨a, ha, j, hj, hr, hx⟩
    exact ⟨j, hj, hr, a, hx, ha⟩
  · rintro ⟨j, hj, hr, a, hx, ha⟩
    exact ⟨a, ha, j, hj, hr, hx⟩

/-- The launch is not refused exactly when both tests fail. -/
theorem launchOk_iff (s : State) (z : OpSize) (p : Spelling) (c : Nat) :
    LaunchOk z p c s ↔
      s.blockOnDevice z (addrSizeOf s.codeCtx p) (srcSegOf s.codeCtx p) c = false ∧
        s.blockOnOwnBytes z (addrSizeOf s.codeCtx p) c p.len = false := by
  rw [← Bool.not_eq_true, ← Bool.not_eq_true, blockOnDevice_iff, blockOnOwnBytes_iff]
  exact ⟨fun h => ⟨h.noDevice, h.notOwnBytes⟩, fun h => ⟨h.1, h.2⟩⟩

/-! ### One element after the other -/

@[simp] theorem srcIndex_zero (s : State) (z : OpSize) (p : Spelling) :
    s.srcIndex z p 0 = s.idxRsi (addrSizeOf s.codeCtx p) := indexAfter_zero ..

@[simp] theorem dstIndex_zero (s : State) (z : OpSize) (p : Spelling) :
    s.dstIndex z p 0 = s.idxRdi (addrSizeOf s.codeCtx p) := indexAfter_zero ..

/-- The destination of an element that can be moved misses the instruction's own bytes and every device, and so does
its source. -/
theorem MoveOk.first {z : OpSize} {p : Spelling} {c : Nat} {s : State} (h : MoveOk z p c s) (hc : 0 < c) :
    (∀ a ∈ s.dstBytes z p, a ∉ s.codeAddrs p.len) ∧ s.onDevice (s.srcBytes z p) = false ∧
      s.onDevice (s.dstBytes z p) = false := by
  have hs := h.srcOk.reaches
  have hd := h.dstOk.reaches
  refine ⟨fun a ha hn => h.launchOk.notOwnBytes ⟨0, hc, by simpa using hd, a, by simpa [State.dstBytes] using ha, hn⟩, ?_, ?_⟩
  · rw [← Bool.not_eq_true]
    exact fun hv => h.launchOk.noDevice ⟨0, hc, .inl ⟨by simpa using hs, by simpa [State.srcBytes] using hv⟩⟩
  · rw [← Bool.not_eq_true]
    exact fun hv => h.launchOk.noDevice ⟨0, hc, .inr ⟨by simpa using hd, by simpa [State.dstBytes] using hv⟩⟩

end Sys2Proof.Machine
end

