-- ==== Sys2Proof/Laws/Decode.lean ====
section
/-! SUPPORT. The byte tables of the decoder and the encoder are inverse to each other (30_encoding.md R56,
R59), and what one step of the decoder's loop does. -/

namespace Sys2Proof

/-- The bytes of a spelling and of an opcode do not depend on how the instruction was written (R70). -/
theorem encode_length (i : Instr) : (encode i).length = i.spelling.len := by
  unfold encode Spelling.encode Spelling.len
  cases i.spelling.rex <;> simp

@[simp] theorem legacyOf_byte (q : LegacyPfx) : legacyOf q.byte = some q := by
  cases q with
  | seg r => cases r <;> decide
  | lock => decide
  | rep => decide
  | repne => decide
  | opSize => decide
  | addrSize => decide

theorem byte_of_legacyOf {b : Byte} {q : LegacyPfx} (h : legacyOf b = some q) : b = q.byte := by
  have all : ∀ b : Byte, (legacyOf b).all (fun q => b == q.byte) = true := by decide
  have hb := all b
  rw [h] at hb
  simpa using hb

@[simp] theorem isRex_rexByte (b : BitVec 4) : isRex (rexByte b) = true := by
  revert b; decide

@[simp] theorem legacyOf_rexByte (b : BitVec 4) : legacyOf (rexByte b) = none := by
  revert b; decide

@[simp] theorem rexByte_low (b : BitVec 4) : (rexByte b).extractLsb' 0 4 = b := by
  revert b; decide

theorem rexByte_of_isRex {b : Byte} (h : isRex b = true) : rexByte (b.extractLsb' 0 4) = b := by
  revert b; decide

@[simp] theorem legacyOf_opcodeA4 : legacyOf opcodeA4 = none := by decide

@[simp] theorem legacyOf_opcodeA5 : legacyOf opcodeA5 = none := by decide

@[simp] theorem isRex_opcodeA4 : isRex opcodeA4 = false := by decide

@[simp] theorem isRex_opcodeA5 : isRex opcodeA5 = false := by decide

/-- A legacy prefix of a group not seen yet is read and the loop goes on, R69. -/
theorem decodeFrom_legacy (c : CodeCtx) {seen : List LegacyPfx} {q : LegacyPfx} (rest : List Byte)
    (h : seen.any (fun r => r.group == q.group) = false) :
    decodeFrom c seen (q.byte :: rest) = decodeFrom c (seen ++ [q]) rest := by
  rw [decodeFrom, legacyOf_byte]
  simp [h]

/-- A byte that is no legacy prefix ends the loop, R69. -/
theorem decodeFrom_other (c : CodeCtx) (seen : List LegacyPfx) {b : Byte} (rest : List Byte)
    (h : legacyOf b = none) : decodeFrom c seen (b :: rest) = decodeTail c seen b rest := by
  rw [decodeFrom, h]

/-- Without a REX byte the opcode byte follows the legacy prefixes, R69. -/
theorem decodeTail_opcode (c : CodeCtx) (seen : List LegacyPfx) {b : Byte} (rest : List Byte)
    (h : ¬ (c.mode = .long64 ∧ isRex b = true)) : decodeTail c seen b rest = decodeOpcode c ⟨seen, none⟩ b := by
  unfold decodeTail
  rw [if_neg h]

/-- In 64-bit mode a REX byte followed by a byte that is no prefix, R69. -/
theorem decodeTail_rex {c : CodeCtx} (seen : List LegacyPfx) (w : BitVec 4) {b : Byte} (rest : List Byte)
    (hm : c.mode = .long64) (hl : legacyOf b = none) (hr : isRex b = false) :
    decodeTail c seen (rexByte w) (b :: rest) = decodeOpcode c ⟨seen, some w⟩ b := by
  unfold decodeTail
  rw [if_pos ⟨hm, isRex_rexByte w⟩]
  simp [hl, hr]

/-- A decoded opcode byte is one of the family's two, and gives the row of its size and prefixes. -/
theorem decodeOpcode_insn {c : CodeCtx} {p : Spelling} {b : Byte} {i : Instr} (h : decodeOpcode c p b = .insn i) :
    (b = opcodeA4 ∨ b = opcodeA5) ∧ (p.has .repne = true → p.has .lock = true) ∧
      i = rowOf (if b = opcodeA4 then .byte else opSizeA5 c p) (p.has .rep) p := by
  unfold decodeOpcode at h
  split at h
  · rename_i hb
    split at h
    · cases h
    · rename_i hr
      cases h
      exact ⟨hb, fun h1 => by_contra fun h2 => hr ⟨h1, h2⟩, rfl⟩
  · cases h

@[simp] theorem rowOf_spelling (z : OpSize) (rep : Bool) (p : Spelling) : (rowOf z rep p).spelling = p := by
  cases z <;> cases rep <;> rfl

@[simp] theorem rowOf_size (z : OpSize) (rep : Bool) (p : Spelling) : (rowOf z rep p).size = z := by
  cases z <;> cases rep <;> rfl

@[simp] theorem rowOf_isRep (z : OpSize) (rep : Bool) (p : Spelling) : (rowOf z rep p).isRep = rep := by
  cases z <;> cases rep <;> rfl

/-- A no-operands form is the row of its size, its REP and its prefixes. -/
theorem rowOf_eq_noOperands (i : Instr) : rowOf i.size i.isRep i.spelling = i.noOperands := by
  cases i <;> rfl

end Sys2Proof
end

