-- ==== Sys2Proof/Laws/Memory.lean ====
section
/-! SUPPORT. Memory: reading after writing, the canonical form, byte order (20_memory.md R30, R31). -/

namespace Sys2Proof.Machine

/-! ### One byte -/

theorem Memory.read_of_lt {m : List Host.Cell} {a : Nat} (h : ∀ c ∈ m, a < c.1) :
    Memory.read m a = defaultByte := by
  induction m with
  | nil => rfl
  | cons c rest ih =>
    obtain ⟨x, b⟩ := c
    have hx : a < x := h (x, b) (by simp)
    rw [Memory.read, if_neg (by omega)]
    exact ih fun c hc => h c (by simp [hc])

theorem Memory.wf_cons {x : Nat} {b : Byte} {rest : List Host.Cell} :
    Memory.wf ((x, b) :: rest) = true ↔ b ≠ defaultByte ∧ (∀ c ∈ rest, x < c.1) ∧ Memory.wf rest = true := by
  simp [Memory.wf, and_assoc]

/-- A write leaves every address below all others below them. -/
theorem Memory.lt_of_mem_write {m : List Host.Cell} {a x : Nat} {v : Byte} (hm : ∀ c ∈ m, x < c.1) (ha : x < a) :
    ∀ c ∈ Memory.write m a v, x < c.1 := by
  induction m with
  | nil =>
    intro c hc
    rw [Memory.write] at hc
    split at hc <;> simp_all
  | cons d rest ih =>
    obtain ⟨y, b⟩ := d
    have hy : x < y := hm (y, b) (by simp)
    have hr : ∀ c ∈ rest, x < c.1 := fun c hc => hm c (by simp [hc])
    intro c hc
    rw [Memory.write] at hc
    split at hc
    · split at hc
      · exact hm c hc
      · rcases List.mem_cons.1 hc with rfl | hc
        · exact ha
        · exact hm c hc
    · split at hc
      · split at hc
        · exact hr c hc
        · rcases List.mem_cons.1 hc with rfl | hc
          · exact ha
          · exact hr c hc
      · rcases List.mem_cons.1 hc with rfl | hc
        · exact hy
        · exact ih hr c hc

/-- A write keeps the canonical form. -/
theorem Memory.wf_write {m : List Host.Cell} (h : Memory.wf m = true) (a : Nat) (v : Byte) :
    Memory.wf (Memory.write m a v) = true := by
  induction m with
  | nil => rw [Memory.write]; split <;> simp_all [Memory.wf]
  | cons d rest ih =>
    obtain ⟨x, b⟩ := d
    obtain ⟨hb, hx, hr⟩ := Memory.wf_cons.1 h
    rw [Memory.write]
    split
    · rename_i hax
      split
      · exact h
      · rename_i hv
        refine Memory.wf_cons.2 ⟨hv, ?_, h⟩
        intro c hc
        rcases List.mem_cons.1 hc with rfl | hc
        · exact hax
        · exact lt_trans hax (hx c hc)
    · split
      · rename_i hax
        split
        · exact hr
        · rename_i hv; exact Memory.wf_cons.2 ⟨hv, fun c hc => hax ▸ hx c hc, hr⟩
      · exact Memory.wf_cons.2 ⟨hb, Memory.lt_of_mem_write hx (by omega), ih hr⟩

/-- Reading the byte just written. -/
theorem Memory.read_write_same {m : List Host.Cell} (h : Memory.wf m = true) (a : Nat) (v : Byte) :
    Memory.read (Memory.write m a v) a = v := by
  induction m with
  | nil => rw [Memory.write]; split <;> simp_all [Memory.read]
  | cons d rest ih =>
    obtain ⟨x, b⟩ := d
    obtain ⟨_, hx, hr⟩ := Memory.wf_cons.1 h
    rw [Memory.write]
    split
    · rename_i hax
      split
      · rename_i hv
        rw [hv]
        refine Memory.read_of_lt fun c hc => ?_
        rcases List.mem_cons.1 hc with rfl | hc
        · exact hax
        · exact lt_trans hax (hx c hc)
      · simp [Memory.read]
    · split
      · rename_i hax
        split
        · rename_i hv; rw [hv]; exact Memory.read_of_lt fun c hc => hax ▸ hx c hc
        · simp [Memory.read]
      · rename_i hne; rw [Memory.read, if_neg hne]; exact ih hr

/-- Writing one byte leaves every other as it was. -/
theorem Memory.read_write_other {m : List Host.Cell} {a a' : Nat} (hne : a' ≠ a) (v : Byte) :
    Memory.read (Memory.write m a v) a' = Memory.read m a' := by
  induction m with
  | nil => rw [Memory.write]; split <;> simp [Memory.read, hne]
  | cons d rest ih =>
    obtain ⟨x, b⟩ := d
    rw [Memory.write]
    split
    · split <;> simp [Memory.read, hne]
    · split
      · rename_i hax
        split <;> simp [Memory.read, ← hax, hne]
      · simp only [Memory.read, ih]

/-! ### Several bytes -/

theorem Memory.writeAll_nil_addrs (m : List Host.Cell) (bs : List Byte) : Memory.writeAll m [] bs = m := by
  cases bs <;> rfl

theorem Memory.wf_writeAll {m : List Host.Cell} (h : Memory.wf m = true) (as : List Nat) (bs : List Byte) :
    Memory.wf (Memory.writeAll m as bs) = true := by
  induction as generalizing m bs with
  | nil => rw [Memory.writeAll_nil_addrs]; exact h
  | cons a as ih =>
    cases bs with
    | nil => exact h
    | cons b bs => exact ih (Memory.wf_write h a b) bs

/-- Bytes outside the stored ones read as before. -/
theorem Memory.read_writeAll_other (m : List Host.Cell) {as : List Nat} (bs : List Byte) {a : Nat} (h : a ∉ as) :
    Memory.read (Memory.writeAll m as bs) a = Memory.read m a := by
  induction as generalizing m bs with
  | nil => rw [Memory.writeAll_nil_addrs]
  | cons x as ih =>
    cases bs with
    | nil => rfl
    | cons b bs =>
      have hx : a ≠ x := fun e => h (by simp [e])
      rw [Memory.writeAll, ih _ _ fun hm => h (by simp [hm]), Memory.read_write_other hx]

/-- Reading back bytes just stored at addresses that are all different. -/
theorem Memory.readAll_writeAll {m : List Host.Cell} (h : Memory.wf m = true) {as : List Nat} (hn : as.Nodup)
    {bs : List Byte} (hl : bs.length = as.length) : Memory.readAll (Memory.writeAll m as bs) as = bs := by
  induction as generalizing m bs with
  | nil => cases bs with
    | nil => rfl
    | cons b bs => simp at hl
  | cons a as ih =>
    cases bs with
    | nil => simp at hl
    | cons b bs =>
      obtain ⟨ha, hn⟩ := List.nodup_cons.1 hn
      have hw := Memory.wf_write h a b
      have hr := ih hw hn (bs := bs) (by simpa using hl)
      simp only [Memory.readAll, List.map_cons, Memory.writeAll] at hr ⊢
      rw [hr, Memory.read_writeAll_other _ _ ha, Memory.read_write_same h]

/-! ### Byte order -/

theorem leBytes_length (n v : Nat) : (leBytes n v).length = n := by
  induction n generalizing v with
  | zero => rfl
  | succ n ih => simp [leBytes, ih]

/-- The write and the read use the same byte order, so the bytes come back as they were, R31. -/
theorem leBytes_leValue (bs : List Byte) : leBytes bs.length (leValue bs) = bs := by
  induction bs with
  | nil => rfl
  | cons b bs ih =>
    have hb := b.isLt
    have h1 : BitVec.ofNat 8 (b.toNat + 256 * leValue bs) = b := by
      apply BitVec.eq_of_toNat_eq
      rw [BitVec.toNat_ofNat]
      omega
    have h2 : (b.toNat + 256 * leValue bs) / 256 = leValue bs := by omega
    simp only [List.length_cons, leValue, leBytes, h1, h2, ih]

theorem Memory.readAll_length (m : List Host.Cell) (as : List Nat) : (Memory.readAll m as).length = as.length := by
  simp [Memory.readAll]

/-! ### Addresses stored to -/

theorem insertAddr_mem {a x : Nat} {xs : List Nat} : x ∈ insertAddr a xs ↔ x = a ∨ x ∈ xs := by
  induction xs with
  | nil => simp [insertAddr]
  | cons y ys ih =>
    rw [insertAddr]
    split
    · simp
    · split
      · rename_i h; simp [h]
      · simp [ih]; tauto

theorem risingAddrs_cons {x : Nat} {xs : List Nat} :
    risingAddrs (x :: xs) = true ↔ (∀ y ∈ xs, x < y) ∧ risingAddrs xs = true := by
  simp [risingAddrs]

theorem risingAddrs_insertAddr {xs : List Nat} (h : risingAddrs xs = true) (a : Nat) :
    risingAddrs (insertAddr a xs) = true := by
  induction xs with
  | nil => rfl
  | cons y ys ih =>
    obtain ⟨hy, hs⟩ := risingAddrs_cons.1 h
    rw [insertAddr]
    split
    · rename_i hlt
      refine risingAddrs_cons.2 ⟨?_, h⟩
      intro z hz
      rcases List.mem_cons.1 hz with rfl | hz
      · exact hlt
      · exact lt_trans hlt (hy z hz)
    · split
      · exact h
      · refine risingAddrs_cons.2 ⟨?_, ih hs⟩
        intro z hz
        rcases insertAddr_mem.1 hz with rfl | hz
        · omega
        · exact hy z hz

theorem risingAddrs_foldr_insertAddr {xs : List Nat} (h : risingAddrs xs = true) (as : List Nat) :
    risingAddrs (as.foldr insertAddr xs) = true := by
  induction as with
  | nil => exact h
  | cons a as ih => exact risingAddrs_insertAddr ih a

theorem mem_foldr_insertAddr {x : Nat} {xs as : List Nat} :
    x ∈ as.foldr insertAddr xs ↔ x ∈ as ∨ x ∈ xs := by
  induction as with
  | nil => simp
  | cons a as ih => simp [insertAddr_mem, ih, or_assoc]

theorem overlaps_iff {as bs : List Nat} : overlaps as bs = true ↔ ∃ a ∈ as, a ∈ bs := by
  simp [overlaps]

end Sys2Proof.Machine
end

