-- ==== Sys2Proof/Laws/Movs.lean ====
section
/-! SUPPORT. What the meanings can do, once for each shared operation: if it answers a next state, what that
state is; if it answers an exception, which exceptions it can be. -/

namespace Sys2Proof.Machine

/-! ### The start of an instruction -/

theorem begin_next {z : OpSize} {p : Spelling} {s : State} {pc : Word} (h : begin z p s = .next pc) :
    StartOk z p s ∧ pc = s.pc + BitVec.ofNat 64 p.len := by
  unfold begin at h
  split at h
  · cases h
  · rename_i hl
    split at h
    · cases h
    · rename_i hq
      unfold State.nextPc at h
      by_cases hc : s.codeOffsetOk (s.ipOffset + p.len) = true
      · rw [if_pos hc] at h
        cases h
        exact ⟨⟨by simpa using hl, fun hz => by_contra fun hm => hq ⟨hz, hm⟩, hc⟩, rfl⟩
      · rw [if_neg hc] at h; cases h

/-- The start of an instruction that can start answers the address of the following one. -/
theorem begin_of_startOk {z : OpSize} {p : Spelling} {s : State} (h : StartOk z p s) :
    begin z p s = .next (s.pc + BitVec.ofNat 64 p.len) := by
  unfold begin
  rw [if_neg (by simp [h.noLock]), if_neg (fun hq => hq.2 (h.quadIn64 hq.1)), State.nextPc, if_pos h.nextInCode]

/-- The only exception before the operands are looked at is that of LOCK (R63, R119 item 1). -/
theorem begin_fault {z : OpSize} {p : Spelling} {s : State} {f : Fault} (h : begin z p s = .fault f) :
    f = .ud ∧ p.has .lock = true := by
  unfold begin at h
  split at h
  · rename_i hl
    cases h
    exact ⟨rfl, hl⟩
  · split at h
    · cases h
    · split at h <;> cases h

/-! ### One element -/

/-- A launch that R45 or R50 refuses is refused, whatever its accesses raise. -/
theorem movsElement_of_not_launchOk (z : OpSize) (p : Spelling) (c : Nat) (s : State) :
    (ReachesDevice z p c s →
        movsElement z (addrSizeOf s.codeCtx p) (srcSegOf s.codeCtx p) p.len c s = .refused .deviceMemory) ∧
      (¬ ReachesDevice z p c s → MeetsOwnBytes z p c s →
        movsElement z (addrSizeOf s.codeCtx p) (srcSegOf s.codeCtx p) p.len c s = .refused .storeIntoCode) := by
  rw [← blockOnDevice_iff, ← blockOnOwnBytes_iff]
  exact ⟨fun h => if_pos h, fun h k => (if_neg h).trans (if_pos k)⟩

/-- What the element move of a launch that is not refused answers: what its two accesses decide (R42, R75, R119). -/
theorem movsElement_of_launchOk {z : OpSize} {p : Spelling} {c : Nat} {s : State} (h : LaunchOk z p c s) :
    movsElement z (addrSizeOf s.codeCtx p) (srcSegOf s.codeCtx p) p.len c s =
      match s.check (addrSizeOf s.codeCtx p) (srcSegOf s.codeCtx p) (s.idxRsi (addrSizeOf s.codeCtx p)) z.bytes .read with
      | .refused => .refused .offsetWrap
      | .raises f fs =>
        .fault (s.chooseFault f (fs ++ newFaults (f :: fs)
          (s.check (addrSizeOf s.codeCtx p) .es (s.idxRdi (addrSizeOf s.codeCtx p)) z.bytes .write).faults))
      | .ok src =>
        match s.check (addrSizeOf s.codeCtx p) .es (s.idxRdi (addrSizeOf s.codeCtx p)) z.bytes .write with
        | .refused => .refused .offsetWrap
        | .raises f fs => .fault (s.chooseFault f fs)
        | .ok dst => .next (moveElement z (addrSizeOf s.codeCtx p) src dst s) := by
  obtain ⟨hd, ho⟩ := (launchOk_iff ..).1 h
  rw [movsElement, if_neg (by simp [hd]), if_neg (by simp [ho])]
  rfl

/-- An element move that is not refused as a launch is one whose launch is not refused. -/
theorem launchOk_of_movsElement {z : OpSize} {p : Spelling} {c : Nat} {s : State}
    (h : ∀ e, movsElement z (addrSizeOf s.codeCtx p) (srcSegOf s.codeCtx p) p.len c s ≠ .refused e) : LaunchOk z p c s := by
  have hd : ¬ ReachesDevice z p c s := fun hd => h _ ((movsElement_of_not_launchOk z p c s).1 hd)
  exact ⟨hd, fun ho => h _ ((movsElement_of_not_launchOk z p c s).2 hd ho)⟩

/-- The element move, as it is said in R31 and R75: the destination bytes become the source bytes as they were. -/
theorem moveElement_eq {z : OpSize} {p : Spelling} {s : State} (h : SrcOk z p s) :
    moveElement z (addrSizeOf s.codeCtx p) (s.srcBytes z p) (s.dstBytes z p) s = s.moved z p := by
  have hcopy := leBytes_leValue (Memory.readAll s.mem (s.srcBytes z p))
  rw [Memory.readAll_length, State.srcBytes, physBytes_length h] at hcopy
  simp only [moveElement, State.moved, State.setRsi, State.setRdi, State.store, State.srcBytes, State.dstBytes, hcopy]

/-- An element move that answers a next state passed every check, and copied the source bytes, as they
were, to the destination (R31, R46, R75). -/
theorem movsElement_next {z : OpSize} {p : Spelling} {c : Nat} {s t : State}
    (h : movsElement z (addrSizeOf s.codeCtx p) (srcSegOf s.codeCtx p) p.len c s = .next t) :
    MoveOk z p c s ∧ t = s.moved z p := by
  have hz := OpSize_bytes_pos z
  have hl := launchOk_of_movsElement fun e he => by rw [h] at he; cases he
  rw [movsElement_of_launchOk hl] at h
  split at h
  · cases h
  · cases h
  · rename_i src hsrc
    obtain ⟨hso, rfl⟩ := (check_ok_iff s _ _ _ hz _ _).1 hsrc
    split at h
    · cases h
    · cases h
    · rename_i dst hdst
      obtain ⟨hdo, rfl⟩ := (check_ok_iff s _ _ _ hz _ _).1 hdst
      cases h
      exact ⟨⟨hso, hdo, hl⟩, moveElement_eq hso⟩

/-- An element move whose accesses are admitted is made. -/
theorem movsElement_of_moveOk {z : OpSize} {p : Spelling} {c : Nat} {s : State} (h : MoveOk z p c s) :
    movsElement z (addrSizeOf s.codeCtx p) (srcSegOf s.codeCtx p) p.len c s = .next (s.moved z p) := by
  have hz := OpSize_bytes_pos z
  rw [movsElement_of_launchOk h.launchOk, (check_ok_iff s _ _ _ hz _ _).2 ⟨h.srcOk, rfl⟩,
    (check_ok_iff s _ _ _ hz _ _).2 ⟨h.dstOk, rfl⟩]
  exact congrArg _ (moveElement_eq h.srcOk)

/-- The exceptions of an element move are those its two accesses raise (R119 item 3), and its launch is one that
neither R45 nor R50 refuses. -/
theorem movsElement_fault {z : OpSize} {p : Spelling} {c : Nat} {s : State} {f : Fault}
    (h : movsElement z (addrSizeOf s.codeCtx p) (srcSegOf s.codeCtx p) p.len c s = .fault f) :
    LaunchOk z p c s ∧
      (f ∈ (s.check (addrSizeOf s.codeCtx p) (srcSegOf s.codeCtx p) (s.idxRsi (addrSizeOf s.codeCtx p)) z.bytes .read).faults ∨
        f ∈ (s.check (addrSizeOf s.codeCtx p) .es (s.idxRdi (addrSizeOf s.codeCtx p)) z.bytes .write).faults) := by
  have hl := launchOk_of_movsElement fun e he => by rw [h] at he; cases he
  refine ⟨hl, ?_⟩
  rw [movsElement_of_launchOk hl] at h
  split at h
  · cases h
  · rename_i g gs hsrc
    rw [hsrc]
    cases h
    have hm := chooseFault_mem s g
      (gs ++ newFaults (g :: gs) (s.check (addrSizeOf s.codeCtx p) .es (s.idxRdi (addrSizeOf s.codeCtx p)) z.bytes .write).faults)
    rw [← List.cons_append, List.mem_append] at hm
    rcases hm with hm | hm
    · exact .inl hm
    · exact .inr (List.mem_of_mem_filter hm)
  · split at h
    · cases h
    · rename_i g gs hdst
      rw [hdst]
      cases h
      exact .inr (chooseFault_mem s g gs)
    · cases h

theorem sameEnv_moved (s : State) (z : OpSize) (p : Spelling) : SameEnv s (s.moved z p) :=
  ⟨rfl, rfl, rfl, rfl, rfl, rfl, rfl, rfl⟩

theorem sameEnv_iterated (s : State) (z : OpSize) (p : Spelling) : SameEnv s (s.iterated z p) :=
  ⟨rfl, rfl, rfl, rfl, rfl, rfl, rfl, rfl⟩

/-! ### Whole instructions -/

/-- A form without REP that answers a next state moved one element and went on to `pc + Len` (R75, R90). -/
theorem movsOnce_next {z : OpSize} {p : Spelling} {s t : State} (h : movsOnce z p s = .next t) :
    StartOk z p s ∧ MoveOk z p 1 s ∧ t = (s.moved z p).setPc (s.pc + BitVec.ofNat 64 p.len) := by
  unfold movsOnce at h
  split at h
  · cases h
  · cases h
  · rename_i pc hb
    obtain ⟨hs, rfl⟩ := begin_next hb
    split at h
    · cases h
    · cases h
    · rename_i s' hm
      obtain ⟨hmo, rfl⟩ := movsElement_next hm
      cases h
      exact ⟨hs, hmo, rfl⟩

/-- One step of a REP form that answers a next state: a zero count completes the instruction and changes
nothing else (R99); another count moves one element and goes down by one (R93). -/
theorem repMovs_next {z : OpSize} {p : Spelling} {s t : State} (h : repMovs z p s = .next t) :
    StartOk z p s ∧
      ((s.idxRcx (addrSizeOf s.codeCtx p) = 0 ∧ t = s.setPc (s.pc + BitVec.ofNat 64 p.len)) ∨
        (s.idxRcx (addrSizeOf s.codeCtx p) ≠ 0 ∧
          MoveOk z p (s.idxRcx (addrSizeOf s.codeCtx p)).toNat s ∧ t = s.iterated z p)) := by
  unfold repMovs at h
  split at h
  · cases h
  · cases h
  · rename_i pc hb
    obtain ⟨hs, rfl⟩ := begin_next hb
    refine ⟨hs, ?_⟩
    simp only at h
    split at h
    · rename_i hc
      cases h
      exact .inl ⟨hc, rfl⟩
    · rename_i hc
      split at h
      · cases h
      · cases h
      · rename_i s' hm
        obtain ⟨hmo, rfl⟩ := movsElement_next hm
        refine .inr ⟨hc, hmo, ?_⟩
        have hcount : ∀ c : Word, c - 1 = 0 ↔ c = 1 := by intro c; constructor <;> intro h <;> bv_omega
        split at h
        · rename_i h1
          cases h
          rw [hcount] at h1
          simp only [State.iterated, h1, if_true]
          rfl
        · rename_i h1
          cases h
          rw [hcount] at h1
          simp only [State.iterated, h1, if_false]
          rfl

/-- The exceptions of a form without REP: #UD for LOCK, or one that an access of the element raises. -/
theorem movsOnce_fault {z : OpSize} {p : Spelling} {s : State} {f : Fault} (h : movsOnce z p s = .fault f) :
    (f = .ud ∧ p.has .lock = true) ∨
      movsElement z (addrSizeOf s.codeCtx p) (srcSegOf s.codeCtx p) p.len 1 s = .fault f := by
  unfold movsOnce at h
  split at h
  · rename_i g hb
    simp only [raiseFault] at h
    cases h
    exact .inl (begin_fault hb)
  · cases h
  · split at h
    · rename_i g hm
      simp only [raiseFault] at h
      cases h
      exact .inr hm
    · cases h
    · cases h

/-- The exceptions of a REP form: #UD for LOCK, or one that an access of this iteration's element raises,
and then the count is not zero (R99, R100). -/
theorem repMovs_fault {z : OpSize} {p : Spelling} {s : State} {f : Fault} (h : repMovs z p s = .fault f) :
    (f = .ud ∧ p.has .lock = true) ∨
      (s.idxRcx (addrSizeOf s.codeCtx p) ≠ 0 ∧
        movsElement z (addrSizeOf s.codeCtx p) (srcSegOf s.codeCtx p) p.len (s.idxRcx (addrSizeOf s.codeCtx p)).toNat s
          = .fault f) := by
  unfold repMovs at h
  split at h
  · rename_i g hb
    simp only [raiseFault] at h
    cases h
    exact .inl (begin_fault hb)
  · cases h
  · simp only at h
    split at h
    · cases h
    · rename_i hc
      split at h
      · rename_i g hm
        simp only [raiseFault] at h
        cases h
        exact .inr ⟨hc, hm⟩
      · cases h
      · split at h <;> cases h

/-! ### Every instruction is one of the two shapes -/

theorem elementsOf_rep {i : Instr} (h : i.isRep = true) (s : State) :
    elementsOf i s = (s.idxRcx (addrSizeOf s.codeCtx i.spelling)).toNat := if_pos h

theorem elementsOf_once {i : Instr} (h : i.isRep = false) (s : State) : elementsOf i s = 1 := by simp [elementsOf, h]

theorem elementsOf_pos {i : Instr} {s : State} (h : MovesElement i s) : 0 < elementsOf i s := by
  unfold elementsOf
  split
  · rename_i hr
    exact Nat.pos_of_ne_zero fun h0 => h hr (BitVec.eq_of_toNat_eq h0)
  · exact Nat.one_pos

theorem exec_eq (i : Instr) (s : State) :
    exec i s = if i.isRep then repMovs i.size i.spelling s else movsOnce i.size i.spelling s := by
  cases i <;> rfl

/-- What every instruction can do when it answers a next state (R28). -/
theorem exec_next {i : Instr} {s t : State} (h : exec i s = .next t) :
    StartOk i.size i.spelling s ∧
      ((i.isRep = false ∧ MoveOk i.size i.spelling (elementsOf i s) s ∧
          t = (s.moved i.size i.spelling).setPc (s.pc + BitVec.ofNat 64 i.spelling.len)) ∨
        (i.isRep = true ∧ s.idxRcx (addrSizeOf s.codeCtx i.spelling) = 0 ∧
          t = s.setPc (s.pc + BitVec.ofNat 64 i.spelling.len)) ∨
        (i.isRep = true ∧ s.idxRcx (addrSizeOf s.codeCtx i.spelling) ≠ 0 ∧ MoveOk i.size i.spelling (elementsOf i s) s ∧
          t = s.iterated i.size i.spelling)) := by
  rw [exec_eq] at h
  cases hr : i.isRep with
  | false =>
    rw [hr] at h
    obtain ⟨h1, h2, h3⟩ := movsOnce_next h
    exact ⟨h1, .inl ⟨rfl, elementsOf_once hr s ▸ h2, h3⟩⟩
  | true =>
    rw [hr] at h
    obtain ⟨h1, h2 | h2⟩ := repMovs_next h
    · exact ⟨h1, .inr (.inl ⟨rfl, h2⟩)⟩
    · exact ⟨h1, .inr (.inr ⟨rfl, elementsOf_rep hr s ▸ h2⟩)⟩

/-- What every instruction can do when it raises an exception: #UD for LOCK, or an exception of its element
move, which a REP form makes only when its count is not zero (R99, R105, R119). -/
theorem exec_fault {i : Instr} {s : State} {f : Fault} (h : exec i s = .fault f) :
    (f = .ud ∧ i.spelling.has .lock = true) ∨
      (MovesElement i s ∧
        movsElement i.size (addrSizeOf s.codeCtx i.spelling) (srcSegOf s.codeCtx i.spelling) i.spelling.len (elementsOf i s) s
          = .fault f) := by
  rw [exec_eq] at h
  unfold MovesElement
  cases hr : i.isRep with
  | false =>
    rw [hr] at h
    rcases movsOnce_fault h with h | h
    · exact .inl h
    · exact .inr ⟨fun hc => Bool.noConfusion hc, elementsOf_once hr s ▸ h⟩
  | true =>
    rw [hr] at h
    rcases repMovs_fault h with h | h
    · exact .inl h
    · exact .inr ⟨fun _ => h.1, elementsOf_rep hr s ▸ h.2⟩

/-- Where an instruction is refused: at its start, or in its element move, which a REP form makes only when its
count is not zero. -/
theorem exec_refused {i : Instr} {s : State} {e : Refusal} (h : exec i s = .refused e) :
    begin i.size i.spelling s = .refused e ∨
      (MovesElement i s ∧
        movsElement i.size (addrSizeOf s.codeCtx i.spelling) (srcSegOf s.codeCtx i.spelling) i.spelling.len (elementsOf i s) s
          = .refused e) := by
  rw [exec_eq] at h
  unfold movsOnce repMovs at h
  unfold MovesElement
  cases hr : i.isRep with
  | false =>
    rw [elementsOf_once hr]
    simp only [hr, Bool.false_eq_true, if_false] at h
    split at h
    · cases h
    · rename_i hb; cases h; exact .inl hb
    · split at h
      · cases h
      · rename_i hm; cases h; exact .inr ⟨fun hc => Bool.noConfusion hc, hm⟩
      · cases h
  | true =>
    rw [elementsOf_rep hr]
    simp only [hr, if_true] at h
    split at h
    · cases h
    · rename_i hb; cases h; exact .inl hb
    · split at h
      · cases h
      · rename_i hc
        split at h
        · cases h
        · rename_i hm; cases h; exact .inr ⟨fun _ => hc, hm⟩
        · split at h <;> cases h

/-- An instruction that starts and moves an element stops as its element move stops. -/
theorem exec_of_movsElement {i : Instr} {s : State} (hs : StartOk i.size i.spelling s) (hm : MovesElement i s) :
    (∀ f, movsElement i.size (addrSizeOf s.codeCtx i.spelling) (srcSegOf s.codeCtx i.spelling) i.spelling.len (elementsOf i s) s = .fault f →
        exec i s = .fault f) ∧
      ∀ e, movsElement i.size (addrSizeOf s.codeCtx i.spelling) (srcSegOf s.codeCtx i.spelling) i.spelling.len (elementsOf i s) s = .refused e →
        exec i s = .refused e := by
  cases hr : i.isRep with
  | false =>
    rw [elementsOf_once hr, exec_eq, hr, movsOnce, begin_of_startOk hs]
    exact ⟨fun f h => by simp [h, raiseFault], fun e h => by simp [h]⟩
  | true =>
    rw [elementsOf_rep hr, exec_eq, hr, repMovs, begin_of_startOk hs]
    simp only [if_true, if_neg (hm hr)]
    exact ⟨fun f h => by simp [h, raiseFault], fun e h => by simp [h]⟩

/-- A step that answers a next state ran the instruction its bytes decode to. -/
theorem step_next {s t : State} (h : step s = .next t) :
    ∃ i u, s.fetchDecode = .insn i ∧ s.storedCode i = false ∧ exec i s = .next u ∧ t = u.tick := by
  unfold step at h
  split at h
  · cases h
  · cases h
  · cases h
  · cases h
  · rename_i i hd
    split at h
    · cases h
    · rename_i hst
      split at h
      · rename_i u hx
        cases h
        exact ⟨i, u, hd, by simpa using hst, hx, rfl⟩
      · cases h
      · cases h

end Sys2Proof.Machine
end

