-- ==== Sys2Proof/Laws/PerInstr.lean ====
section
/-! SUPPORT. Statements about every instruction, one lemma per constructor.

`SameBytes`: an instruction has the bytes of its no-operands form (30_encoding.md R70), as many as `Len`
says (R67), and the last of them is its opcode byte (R53, R74). -/

namespace Sys2Proof.Laws

/-- R53, R67, R70. -/
def SameBytes.Statement (i : Instr) : Prop :=
  encode i.noOperands = encode i ∧ (encode i).length = i.spelling.len ∧ (encode i).getLast? = some i.opcode

theorem SameBytes.movsM8M8 (p : Spelling) : SameBytes.Statement (.movsM8M8 p) :=
  ⟨rfl, encode_length _, by simp [encode]⟩

theorem SameBytes.movsM16M16 (p : Spelling) : SameBytes.Statement (.movsM16M16 p) :=
  ⟨rfl, encode_length _, by simp [encode]⟩

theorem SameBytes.movsM32M32 (p : Spelling) : SameBytes.Statement (.movsM32M32 p) :=
  ⟨rfl, encode_length _, by simp [encode]⟩

theorem SameBytes.movsM64M64 (p : Spelling) : SameBytes.Statement (.movsM64M64 p) :=
  ⟨rfl, encode_length _, by simp [encode]⟩

theorem SameBytes.movsb (p : Spelling) : SameBytes.Statement (.movsb p) :=
  ⟨rfl, encode_length _, by simp [encode]⟩

theorem SameBytes.movsw (p : Spelling) : SameBytes.Statement (.movsw p) :=
  ⟨rfl, encode_length _, by simp [encode]⟩

theorem SameBytes.movsd (p : Spelling) : SameBytes.Statement (.movsd p) :=
  ⟨rfl, encode_length _, by simp [encode]⟩

theorem SameBytes.movsq (p : Spelling) : SameBytes.Statement (.movsq p) :=
  ⟨rfl, encode_length _, by simp [encode]⟩

theorem SameBytes.repMovsb (p : Spelling) : SameBytes.Statement (.repMovsb p) :=
  ⟨rfl, encode_length _, by simp [encode]⟩

theorem SameBytes.repMovsw (p : Spelling) : SameBytes.Statement (.repMovsw p) :=
  ⟨rfl, encode_length _, by simp [encode]⟩

theorem SameBytes.repMovsd (p : Spelling) : SameBytes.Statement (.repMovsd p) :=
  ⟨rfl, encode_length _, by simp [encode]⟩

theorem SameBytes.repMovsq (p : Spelling) : SameBytes.Statement (.repMovsq p) :=
  ⟨rfl, encode_length _, by simp [encode]⟩

end Sys2Proof.Laws
end

