-- ==== Sys2Proof/Tests/Slice0.lean ====
section
/-! SUPPORT. The model's own tests, by hand from spec/, and a witness for the hypotheses of each statement.

Execution and decode vectors are those of 95_test_vectors.md, named by their ids there, or are worked out from
the rule a test names. -/

namespace Sys2Proof.Machine

/-! ### Well-formedness: one ill-formed term for each check -/

def ctx64 : CodeCtx := ⟨.long64, false, false⟩

def ctx32 : CodeCtx := ⟨.prot, false, false⟩

def ctx16 : CodeCtx := ⟨.real, true, false⟩

def plain : Spelling := ⟨[], none⟩

theorem test_wf_refuses_two_of_one_group : (Instr.movsb ⟨[.seg .cs, .seg .ds], none⟩).wf ctx64 = false := by decide

theorem test_wf_refuses_rex_outside_64bit_mode : (Instr.movsb ⟨[], some 0x0⟩).wf ctx32 = false := by decide

theorem test_wf_refuses_wrong_size : (Instr.movsw plain).wf ctx64 = false := by decide

theorem test_wf_refuses_quadword_outside_64bit_mode : (Instr.movsq ⟨[], some 0x8⟩).wf ctx32 = false := by decide

theorem test_wf_refuses_rep_form_without_rep : (Instr.repMovsb plain).wf ctx64 = false := by decide

theorem test_wf_refuses_rep_in_a_form_without_rep : (Instr.movsb ⟨[.rep], none⟩).wf ctx64 = false := by decide

theorem test_wf_refuses_repne_without_lock : (Instr.movsb ⟨[.repne], none⟩).wf ctx64 = false := by decide

theorem test_wf_admits_all_five_groups_and_rex :
    (Instr.repMovsq ⟨[.lock, .rep, .seg .gs, .opSize, .addrSize], some 0xF⟩).wf ctx64 = true := by decide

/-! ### Decoding, words written out from 30_encoding.md -/

theorem test_decode_K1_movsb : decode ctx64 [0xA4] = .insn (.movsb plain) := by decide

theorem test_decode_K3_movsw : decode ctx64 [0x66, 0xA5] = .insn (.movsw ⟨[.opSize], none⟩) := by decide

/-- R62: opcode byte A4 is a byte move whatever the prefixes. -/
theorem test_decode_66_A4_is_a_byte_move : decode ctx64 [0x66, 0xA4] = .insn (.movsb ⟨[.opSize], none⟩) := by decide

theorem test_decode_K2_movsd : decode ctx64 [0xA5] = .insn (.movsd plain) := by decide

theorem test_decode_K5_movsq : decode ctx64 [0x4F, 0xA5] = .insn (.movsq ⟨[], some 0xF⟩) := by decide

theorem test_decode_K14_repMovsb : decode ctx64 [0xF3, 0xA4] = .insn (.repMovsb ⟨[.rep], none⟩) := by decide

theorem test_decode_K15_repMovsw :
    decode ctx64 [0x66, 0xF3, 0xA5] = .insn (.repMovsw ⟨[.opSize, .rep], none⟩) := by decide

theorem test_decode_repMovsd_16bit_code :
    decode ctx16 [0xF3, 0x66, 0xA5] = .insn (.repMovsd ⟨[.rep, .opSize], none⟩) := by decide

theorem test_decode_K16_repMovsq :
    decode ctx64 [0xF3, 0x48, 0xA5] = .insn (.repMovsq ⟨[.rep], some 0x8⟩) := by decide

theorem test_encode_movsM8M8 : encode (.movsM8M8 plain) = [0xA4] := by decide

theorem test_encode_movsM16M16 : encode (.movsM16M16 ⟨[.opSize], none⟩) = [0x66, 0xA5] := by decide

theorem test_encode_movsM32M32 : encode (.movsM32M32 plain) = [0xA5] := by decide

theorem test_encode_movsM64M64 : encode (.movsM64M64 ⟨[], some 0x8⟩) = [0x48, 0xA5] := by decide

theorem test_decode_K8_rexw_beats_66 :
    decode ctx64 [0x66, 0x48, 0xA5] = .insn (.movsq ⟨[.opSize], some 0x8⟩) := by decide

theorem test_decode_K28_16bit_code : decode ctx16 [0xA5] = .insn (.movsw plain) := by decide

theorem test_decode_K19_lock_before_repne :
    decode ctx32 [0xF0, 0xF2, 0xA4] = .insn (.movsb ⟨[.lock, .repne], none⟩) := by decide

theorem test_decode_K20_repne : decode ctx32 [0xF2, 0xA4] = .repne := by decide

theorem test_decode_K21_repeated : decode ctx32 [0x67, 0x67, 0xA4] = .badSpelling := by decide

theorem test_decode_K22_rex_not_last : decode ctx64 [0x48, 0x66, 0xA5] = .badSpelling := by decide

theorem test_decode_K23_rex_outside_64bit_mode : decode ctx32 [0x48, 0xA5] = .notInScope := by decide

theorem test_attributes_K17 :
    let p : Spelling := ⟨[.addrSize, .opSize, .seg .cs, .rep], none⟩
    decode ctx64 [0x67, 0x66, 0x2E, 0xF3, 0xA5] = .insn (.repMovsw p) ∧ addrSizeOf ctx64 p = .a32 ∧
      srcSegOf ctx64 p = .ds ∧ p.len = 5 := by decide

theorem test_segment_K13_ss_where_honoured :
    srcSegOf ctx64 ⟨[.seg .ss], none⟩ = .ds ∧ srcSegOf ⟨.long64, false, true⟩ ⟨[.seg .ss], none⟩ = .ss ∧
      srcSegOf ctx32 ⟨[.seg .ss], none⟩ = .ss := by decide

/-! ### Execution -/

/-- The group A launch of 95_test_vectors.md. -/
def launch64 (si di cx : Word) (mem : List Host.Cell) : State :=
  { State.reset with mode := .long64, pc := 0x400000, rsi := si, rdi := di, rcx := cx, mem := mem }

def flat (base : Word) (limit : BitVec 32) : SegState :=
  { SegState.reset with base := base, limit := limit }

/-- The group B launch. -/
def launch32 (si di cx : Word) (mem : List Host.Cell) : State :=
  { State.reset with
    mode := .prot, codeDefault16 := false, pc := 0x1000, rsi := si, rdi := di, rcx := cx, mem := mem
    seg := ⟨{ flat 0 0xFFFFF with writable := false }, flat 0x300000 0xFFF, flat 0x100000 0xFFFF,
      flat 0x200000 0xFFFF, flat 0x100000 0xFFFF, flat 0x100000 0xFFFF⟩ }

/-- The group C launch. -/
def launchReal (si di cx : Word) (mem : List Host.Cell) : State :=
  { State.reset with
    pc := 0x7C00, rsi := si, rdi := di, rcx := cx, mem := mem
    seg := ⟨flat 0 0xFFFF, flat 0x30000 0xFFFF, flat 0x10000 0xFFFF, flat 0x20000 0xFFFF, flat 0 0xFFFF, flat 0 0xFFFF⟩ }

/-- The same with DF = 1. -/
def backward (s : State) : State := { s with eflags := 0x402 }

/-- The bytes 01 02 .. 08 from an address. -/
def eight (a : Nat) : List Host.Cell :=
  [(a, 1), (a + 1, 2), (a + 2, 3), (a + 3, 4), (a + 4, 5), (a + 5, 6), (a + 6, 7), (a + 7, 8)]

/-- RSI, RDI, RCX, `pc` and the bytes at some addresses, of the next state. -/
def view (o : Host.Outcome State Fault Refusal) (as : List Nat) : Option (List Nat × List Byte) :=
  (nextOf o).map fun s => ([s.rsi.toNat, s.rdi.toNat, s.rcx.toNat, s.pc.toNat], as.map (Memory.read s.mem))

theorem test_movsb_VA2_backward :
    view (exec (.movsb plain) (backward (launch64 0x1000 0x2000 9 [(0x1000, 0xAB)]))) [0x2000]
      = some ([0xFFF, 0x1FFF, 9, 0x400001], [0xAB]) := by decide

theorem test_movsb_VA7_addr32_clears_upper_halves :
    view (exec (.movsb ⟨[.addrSize], none⟩) (launch64 0xAAAAAAAA00001000 0xBBBBBBBB00002000 9 [(0x1000, 0xAB)])) [0x2000]
      = some ([0x1001, 0x2001, 9, 0x400002], [0xAB]) := by decide

theorem test_movsw_VB3_16bit_wrap_keeps_upper_bits :
    view (exec (.movsw ⟨[.opSize, .addrSize], none⟩) (launch32 0x1234FFFE 0x50010 9 [(0x10FFFE, 0xCD), (0x10FFFF, 0xAB)]))
        [0x200010, 0x200011]
      = some ([0x12340000, 0x50012, 9, 0x1003], [0xCD, 0xAB]) := by decide

theorem test_movsw_VC2_limit :
    faultOf (exec (.movsw plain) (launchReal 0xFFFF 0 9 [])) = some (.gp none) := by decide

theorem test_movsd_VA11_overlap :
    view (exec (.movsd plain) (launch64 0x1000 0x1002 9 (eight 0x1000))) [0x1000, 0x1001, 0x1002, 0x1003, 0x1004, 0x1005, 0x1006]
      = some ([0x1004, 0x1006, 9, 0x400001], [1, 2, 1, 2, 3, 4, 7]) := by decide

theorem test_movsd_VB4_limit :
    faultOf (exec (.movsd plain) (launch32 0xFFFD 0x20 9 [])) = some (.gp (some 0)) := by decide

theorem test_movsq_VA6_backward :
    view (exec (.movsq ⟨[], some 0x8⟩) (backward (launch64 0x1000 0x2000 9 (eight 0x1000)))) [0x2000, 0x2007, 0x2008]
      = some ([0xFF8, 0x1FF8, 9, 0x400002], [1, 8, 0]) := by decide

theorem test_movsq_VA14_non_canonical :
    faultOf (exec (.movsq ⟨[], some 0x8⟩) (launch64 0x7FFFFFFFFFFD 0x2000 9 [])) = some (.gp (some 0)) := by decide

theorem test_movsM8M8_VB7b_override :
    view (exec (.movsM8M8 ⟨[.seg .es], none⟩) (launch32 0x10 0x20 9 [(0x200010, 0x5C)])) [0x200020]
      = some ([0x11, 0x21, 9, 0x1002], [0x5C]) := by decide

theorem test_movsM16M16_VB2a :
    view (exec (.movsM16M16 ⟨[.opSize], none⟩) (launch32 0x10 0x20 9 (eight 0x100010))) [0x200020, 0x200021, 0x200022]
      = some ([0x12, 0x22, 9, 0x1002], [1, 2, 0]) := by decide

theorem test_movsM32M32_VC3a :
    view (exec (.movsM32M32 ⟨[.opSize], none⟩) (launchReal 0x100 0x200 9 (eight 0x10100))) [0x20200, 0x20203, 0x20204]
      = some ([0x104, 0x204, 9, 0x7C02], [1, 4, 0]) := by decide

theorem test_movsM64M64_VA5 :
    view (exec (.movsM64M64 ⟨[], some 0x8⟩) (launch64 0x1000 0x2000 9 (eight 0x1000))) [0x2000, 0x2007]
      = some ([0x1008, 0x2008, 9, 0x400002], [1, 8]) := by decide

theorem test_repMovsb_VE5_addr32_count :
    view (exec (.repMovsb ⟨[.addrSize, .rep], none⟩)
        (launch64 0xAAAAAAAA00001000 0xBBBBBBBB00002000 0xFFFFFFFF00000002 (eight 0x1000))) [0x2000, 0x2001]
      = some ([0x1001, 0x2001, 1, 0x400000], [1, 0]) := by decide

theorem test_repMovsb_VE6_zero_count :
    view (exec (.repMovsb ⟨[.addrSize, .rep], none⟩)
        (launch64 0xAAAAAAAA00001000 0xBBBBBBBB00002000 0xFFFFFFFF00000000 (eight 0x1000))) [0x2000]
      = some ([0xAAAAAAAA00001000, 0xBBBBBBBB00002000, 0xFFFFFFFF00000000, 0x400003], [0]) := by decide

theorem test_repMovsw_VE9_counts_in_cx :
    view (exec (.repMovsw ⟨[.rep], none⟩) (launchReal 0x100 0x200 0x50002 (eight 0x10100))) [0x20200, 0x20201, 0x20202]
      = some ([0x102, 0x202, 0x50001, 0x7C00], [1, 2, 0]) := by decide

theorem test_repMovsd_VE10_last_iteration :
    view (exec (.repMovsd ⟨[.rep], none⟩) (launch64 0x1000 0x2000 1 (eight 0x1000))) [0x2000, 0x2003, 0x2004]
      = some ([0x1004, 0x2004, 0, 0x400002], [1, 4, 0]) := by decide

theorem test_repMovsq_VE4_backward :
    view (exec (.repMovsq ⟨[.rep], some 0x8⟩) (backward (launch64 0x1008 0x2008 2 (eight 0x1008)))) [0x2008, 0x200F, 0x2000]
      = some ([0x1000, 0x2000, 1, 0x400000], [1, 8, 0]) := by decide

theorem test_VA9_wrap_is_refused :
    refusalOf (exec (.movsd ⟨[.addrSize], none⟩) (launch64 0xFFFFFFFE 0x2000 9 [])) = some .offsetWrap := by decide

theorem test_VA29_ss_where_honoured :
    let s := launch64 0x800000000000 0x2000 9 []
    faultOf (exec (.movsb ⟨[.seg .ss], none⟩) { s with cfg := { s.cfg with ssOverride64Honoured := true } })
      = some (.ss (some 0)) := by decide

theorem test_VB14b_alignment_on_linear_address :
    let s := launch32 0x10 0x20 9 []
    faultOf (exec (.movsw ⟨[.opSize], none⟩)
      { s with cpl := 3, alignCheckEnabled := true, seg := { s.seg with es := flat 0x200001 0xFFFF } }) = some (.ac 0) := by
  decide

theorem test_VC7_no_alignment_check_in_real_mode :
    view (exec (.movsw plain) { launchReal 0x11 0x21 9 (eight 0x10011) with alignCheckEnabled := true }) [0x20021]
      = some ([0x13, 0x23, 9, 0x7C01], [1]) := by decide

/-- Parameters that fault every access of one kind and CPL in one range. -/
def faulting (k : AccessKind) (cpl : BitVec 2) (first last : Nat) (code : BitVec 32) : Params :=
  { State.reset.cfg with translate := [⟨first, last, k, cpl, .pageFault code⟩] }

theorem test_VA27_page_fault_on_second_page :
    faultOf (exec (.movsd plain) { launch64 0x1000 0x2FFE 9 [] with cfg := faulting .write 0 0x3000 0x3FFF 2 })
      = some (.pf 2 0x3000) := by decide

theorem test_VD4_v86_has_cpl_3 :
    faultOf (exec (.movsw plain)
      { launchReal 0x10 0x20 9 [] with mode := .v86, cfg := faulting .write 3 0x20000 0x20FFF 6 }) = some (.pf 6 0x20020) := by
  decide

/-! ### The step -/

/-- `F3 A4` at `pc` in 64-bit mode, three elements to move. -/
def blockState : State :=
  { launch64 0x1000 0x2000 3 (eight 0x1000) with mem := eight 0x1000 ++ [(0x400000, 0xF3), (0x400001, 0xA4)] }

theorem test_step_VE1_first :
    view (step blockState) [0x2000, 0x2001] = some ([0x1001, 0x2001, 2, 0x400000], [1, 0]) := by decide

theorem test_step_first_after_reset :
    view (step (State.reset.withFetchWord 16 0xA548)) [0xFFF0, 0xFFF1] = some ([8, 8, 0, 0xFFF2], [0x48, 0xA5]) := by decide

theorem test_step_refuses_bytes_stored_to :
    refusalOf (step { blockState with stored := [0x400001] }) = some .storeIntoCode := by decide

/-- The final state of a run, if it ended. -/
def endedIn : RunOutcome → Option State
  | .ended s => some s
  | .fault _ => none
  | .refused _ => none
  | .running _ => none

/-- R133: the run to the address after `F3 A4` ends in three steps; two are not enough. -/
theorem test_run_ends_after_the_block :
    (endedIn (runTo 0x400002 3 blockState)).map (fun t => [t.rcx.toNat, t.pc.toNat, t.freeIndex]) = some [0, 0x400002, 3] ∧
      endedIn (runTo 0x400002 2 blockState) = none := by decide

/-- R133: a fault is not the end of a run. -/
theorem test_run_stops_at_a_fault :
    runTo 0x400002 3 { blockState with rsi := 0x800000000000 } = .fault (.gp (some 0)) := by decide

/-- Physical addresses 0x5000 to 0x5FFF are a device. -/
def withDevice (s : State) : State := { s with cfg := { s.cfg with devices := [⟨0x5000, 0x5FFF⟩] } }

/-- R45: refused, and no exception, whichever access is on the device and whichever would raise. -/
theorem test_device_is_refused_beside_an_exception :
    refusalOf (exec (.movsb plain) (withDevice (launch64 0x5000 0x800000000000 9 []))) = some .deviceMemory ∧
      refusalOf (exec (.movsb plain) (withDevice (launch64 0x800000000000 0x5FFF 9 []))) = some .deviceMemory := by
  decide

/-- R45: a REP form is refused before its first element where only a later one is on the device. -/
theorem test_launch_is_refused_for_a_later_element_on_a_device :
    refusalOf (exec (.repMovsb ⟨[.rep], none⟩) (withDevice (launch64 0x1000 0x4FFE 3 []))) = some .deviceMemory ∧
      faultOf (exec (.repMovsb ⟨[.rep], none⟩) (withDevice (launch64 0x800000000000 0x4FFE 2 []))) = some (.gp (some 0)) := by
  decide

/-- R50: the third element is the first byte of the instruction; the one before is not, either way round. -/
theorem test_launch_is_refused_for_a_later_store_into_its_own_bytes :
    refusalOf (exec (.repMovsb ⟨[.rep], none⟩) (launch64 0x1000 0x3FFFFE 3 [])) = some .storeIntoCode ∧
      view (exec (.repMovsb ⟨[.rep], none⟩) (launch64 0x1000 0x3FFFFE 2 [])) [] = some ([0x1001, 0x3FFFFF, 1, 0x400000], []) ∧
      refusalOf (exec (.repMovsw ⟨[.opSize, .rep], none⟩) (backward (launch64 0x1000 0x400004 2 []))) = some .storeIntoCode ∧
      view (exec (.repMovsw ⟨[.opSize, .rep], none⟩) (backward (launch64 0x1000 0x400005 1 []))) []
        = some ([0xFFE, 0x400003, 0, 0x400003], []) := by
  decide

/-- R50 over all of 2^64 - 1 iterations, which no run gets through: the range is everything. -/
theorem test_launch_over_the_whole_address_space :
    refusalOf (exec (.repMovsb ⟨[.rep], none⟩) (launch64 0x1000 0x2000 0xFFFFFFFFFFFFFFFF [])) = some .storeIntoCode := by
  decide

/-- R50 and R44: a page that maps to the instruction's bytes counts too; a page that faults does not. -/
theorem test_own_bytes_are_physical :
    let s := launch64 0x1000 0x2000 0x400000 []
    refusalOf (exec (.repMovsb ⟨[.rep], none⟩)
        { launch64 0x1000 0x7000 9 [] with
          cfg := { State.reset.cfg with translate := [⟨0x7000, 0x7FFF, .write, 0, .phys 0x3FFFFF⟩] } }) = some .storeIntoCode ∧
      view (exec (.repMovsb ⟨[.rep], none⟩) { s with cfg := faulting .write 0 0x400000 0x400FFF 2 }) []
        = some ([0x1001, 0x2001, 0x3FFFFF, 0x400000], []) := by
  decide

/-! ### Witnesses: a state and operands that meet the hypotheses of each statement -/

theorem exists_next {o : Host.Outcome State Fault Refusal} (h : (nextOf o).isSome = true) : ∃ t, o = .next t := by
  cases o with
  | next t => exact ⟨t, rfl⟩
  | fault f => cases h
  | refused e => cases h

theorem fault_of_faultOf {o : Host.Outcome State Fault Refusal} {f : Fault} (h : faultOf o = some f) : o = .fault f := by
  cases o with
  | next t => cases h
  | fault g => cases h; rfl
  | refused e => cases h

/-- The checks of an access pass. -/
def admits (s : State) (A : AddrSize) (r : SegReg) (off : Word) (n : Nat) (k : AccessKind) : Bool :=
  match s.check A r off n k with
  | .ok _ => decide (0 < n)
  | .raises _ _ => false
  | .refused => false

theorem accessOk_of_check {s : State} {A : AddrSize} {r : SegReg} {off : Word} {n : Nat} {k : AccessKind}
    (h : admits s A r off n k = true) : AccessOk s A r off n k := by
  unfold admits at h
  split at h
  · rename_i ph hc
    exact ((check_ok_iff s A r off (of_decide_eq_true h) k ph).1 hc).1
  · cases h
  · cases h

/-- A state in which every element size moves without an exception. -/
def okState : State := launch64 0x1000 0x2000 2 (eight 0x1000)

theorem witness_start (z : OpSize) : StartOk z plain okState := by
  cases z <;> exact ⟨by decide, by decide, by decide⟩

/-- Neither R45 nor R50 refuses the launch. -/
theorem launchOk {z : OpSize} {p : Spelling} {c : Nat} {s : State}
    (h : s.blockOnDevice z (addrSizeOf s.codeCtx p) (srcSegOf s.codeCtx p) c = false)
    (k : s.blockOnOwnBytes z (addrSizeOf s.codeCtx p) c p.len = false) : LaunchOk z p c s :=
  (launchOk_iff ..).2 ⟨h, k⟩

theorem witness_move_without_rep_completes :
    (Instr.movsM64M64 plain).isRep = false ∧ StartOk .qword plain okState ∧
      MoveOk .qword plain (elementsOf (.movsM64M64 plain) okState) okState :=
  ⟨rfl, witness_start _, accessOk_of_check (by decide), accessOk_of_check (by decide), launchOk (by decide) (by decide)⟩

theorem witness_rep_iteration_completes :
    (Instr.repMovsq plain).isRep = true ∧ okState.idxRcx (addrSizeOf okState.codeCtx plain) ≠ 0 ∧
      StartOk .qword plain okState ∧ MoveOk .qword plain (elementsOf (.repMovsq plain) okState) okState :=
  ⟨rfl, by decide, witness_start _, accessOk_of_check (by decide), accessOk_of_check (by decide),
    launchOk (by decide) (by decide)⟩

theorem witness_rep_with_zero_count :
    (Instr.repMovsb ⟨[.addrSize, .rep], none⟩).isRep = true ∧
      { okState with rcx := 0xFFFFFFFF00000000 }.idxRcx (addrSizeOf okState.codeCtx ⟨[.addrSize, .rep], none⟩) = 0 ∧
      StartOk .byte ⟨[.addrSize, .rep], none⟩ { okState with rcx := 0xFFFFFFFF00000000 } ∧
      (⟨[.lock, .rep], none⟩ : Spelling).has .lock = true :=
  ⟨rfl, by decide, ⟨by decide, by decide, by decide⟩, by decide⟩

theorem witness_decode_of_encode :
    (Instr.movsM64M64 ⟨[.seg .fs, .addrSize], some 0xF⟩).wf ctx64 = true ∧ (Instr.repMovsd ⟨[.opSize, .rep], none⟩).wf ctx16 = true := by
  decide

theorem witness_bad_spellings :
    distinctGroups [.rep, .opSize, .repne] = false ∧ distinctGroups [.opSize, .lock] = true ∧ ctx64.mode = .long64 ∧
      (legacyOf 0x67).isSome = true ∧ isRex 0x4F = true := by decide

theorem witness_repne :
    (⟨[.opSize, .repne], some 0x8⟩ : Spelling).wf ctx64 = true ∧ (⟨[.opSize, .repne], some 0x8⟩ : Spelling).has .repne = true ∧
      (⟨[.opSize, .repne], some 0x8⟩ : Spelling).has .lock = false ∧ (⟨[.repne, .lock], none⟩ : Spelling).wf ctx64 = true ∧
      (⟨[.repne, .lock], none⟩ : Spelling).has .lock = true := by decide

theorem witness_outside_64bit_mode :
    ctx16.mode ≠ .long64 ∧ plain.has .lock = false ∧ (launchReal 0 0 0 []).mode ≠ .long64 ∧
      0x40 ≤ (0x40 : Byte).toNat ∧ (0x4F : Byte).toNat ≤ 0x4F ∧ OpSize.dword ≠ .qword ∧ ctx64.mode = .long64 := by decide

theorem witness_address_size_rows :
    plain.has .addrSize = false ∧ (⟨[.addrSize], none⟩ : Spelling).has .addrSize = true ∧ ctx32.default16 = false ∧
      ctx32.mode ≠ .long64 ∧ ctx16.default16 = true ∧ ctx16.mode ≠ .long64 := by decide

theorem witness_element_size :
    let p : Spelling := ⟨[.opSize], none⟩
    p.wf ctx64 = true ∧ p.wf ctx16 = true ∧ p.has .repne = false ∧ (⟨[.repne, .lock], none⟩ : Spelling).wf ctx32 = true ∧
      decode ctx64 (p.encode ++ 0xA4 :: []) = .insn (.movsb p) ∧ decode ctx64 (p.encode ++ 0xA5 :: []) = .insn (.movsw p) ∧
      decode ctx64 [0x66, 0x48, 0xA5] = .insn (.movsq ⟨[.opSize], some 0x8⟩) ∧
      decode ctx16 (p.encode ++ 0xA5 :: []) = .insn (.movsd p) := by decide

theorem witness_rep_prefix :
    decode ctx16 [0x66, 0xF3, 0xA5] = .insn (.repMovsd ⟨[.opSize, .rep], none⟩) ∧
      decode ctx16 [0x66, 0xA5] = .insn (.movsd ⟨[.opSize], none⟩) := by decide

theorem witness_segment_override :
    (∀ q, LegacyPfx.seg q ∉ plain.legacy) ∧
      (⟨[.opSize, .seg .ss, .rep], none⟩ : Spelling).legacy = [.opSize] ++ .seg .ss :: [.rep] ∧
      ∀ q, LegacyPfx.seg q ∉ ([.opSize] : List LegacyPfx) := by
  refine ⟨?_, rfl, ?_⟩ <;> intro q <;> cases q <;> decide

theorem witness_step_runs :
    decode blockState.codeCtx blockState.fetchBytes = .insn (.repMovsb ⟨[.rep], none⟩) ∧
      blockState.storedCode (.repMovsb ⟨[.rep], none⟩) = false ∧
      { blockState with stored := [0x400001] }.storedCode (.repMovsb ⟨[.rep], none⟩) = true := by decide

/-- Two bytes up to the last offset of CS and the last linear address below 2^32, and 7 bytes in 64-bit mode. -/
theorem witness_fetch :
    let s := { launchReal 0 0 0 [] with pc := 0xFFFE, seg := State.reset.seg }
    s.mode = .real ∧ (∀ j < 2, s.codeOffsetOk (s.ipOffset + j) = true) ∧
      (s.seg.cs.base.toNat % 2 ^ 32 + s.ipOffset) % 2 ^ 32 + 2 = 2 ^ 32 ∧ s.codeAddrs 2 = [0xFFFFFFFE, 0xFFFFFFFF] ∧
      s.codeAddrs 3 = [0xFFFFFFFE, 0xFFFFFFFF] ∧
      blockState.cfg.translate = [] ∧ (∀ j < 7, blockState.codeOffsetOk (blockState.ipOffset + j) = true) := by decide

theorem witness_step_refuses :
    let at0 := fun b : List Host.Cell => { okState with mem := b }
    decode okState.codeCtx (at0 []).fetchBytes = .notInScope ∧
      decode okState.codeCtx (at0 [(0x400000, 0x66), (0x400001, 0x66)]).fetchBytes = .badSpelling ∧
      decode okState.codeCtx (at0 [(0x400000, 0xF2), (0x400001, 0xA4)]).fetchBytes = .repne ∧
      decode okState.codeCtx { okState with pc := 0x800000000000 }.fetchBytes = .truncated := by decide

theorem witness_reset_runs_a_table_word :
    decodeTableWord 16 0xA566 = some (.movsw ⟨[.opSize], none⟩) ∧
      ∃ t, exec (.movsw ⟨[.opSize], none⟩) (State.reset.withFetchWord 16 0xA566) = .next t :=
  ⟨by decide, exists_next (by decide)⟩

theorem witness_copy_in_place_order :
    Memory.wf okState.mem = true ∧ MovesElement (.repMovsd plain) okState ∧ (∃ t, exec (.repMovsd plain) okState = .next t) ∧
      (okState.dstBytes .dword plain).Nodup :=
  ⟨by decide, fun _ => by decide, exists_next (by decide), by decide⟩

theorem witness_without_paging :
    AccessOk (launchReal 0x10 0x20 0 []) .a16 .ds 0x10 2 .read ∧ (launchReal 0x10 0x20 0 []).mode = .real ∧
      AccessOk okState .a64 .ds 0x7FFFFFFFFFF8 8 .read ∧ okState.cfg.translate = [] :=
  ⟨accessOk_of_check (by decide), rfl,
    accessOk_of_check (by decide), rfl⟩

theorem witness_move_onto_itself :
    let s := { okState with rdi := 0x1000 }
    Memory.wf s.mem = true ∧ (Instr.movsq plain).isRep = false ∧ (∃ t, exec (.movsq plain) s = .next t) ∧
      s.srcBytes .qword plain = s.dstBytes .qword plain :=
  ⟨by decide, rfl, exists_next (by decide), by decide⟩

theorem witness_frame_16bit :
    (∃ t, exec (.repMovsw ⟨[.rep], none⟩) (launchReal 0x100 0x200 0x50002 (eight 0x10100)) = .next t) ∧
      addrSizeOf (launchReal 0x100 0x200 0x50002 (eight 0x10100)).codeCtx ⟨[.rep], none⟩ = .a16 ∧
      ¬ MovesElement (.repMovsb plain) { okState with rcx := 0 } :=
  ⟨exists_next (by decide), by decide, fun h => h rfl (by decide)⟩

theorem witness_flags :
    (0xFFFFFBFF : BitVec 32).getLsbD 10 = okState.eflags.getLsbD 10 ∧ ∃ t, exec (.movsb plain) okState = .next t :=
  ⟨by decide, exists_next (by decide)⟩

theorem witness_bits_above_the_address_size :
    let A := addrSizeOf okState.codeCtx ⟨[.addrSize], none⟩
    lowBits A 0xAAAAAAAA00001000 = okState.idxRsi A ∧ lowBits A 0xBBBBBBBB00002000 = okState.idxRdi A ∧
      lowBits A 0xCCCCCCCC00000002 = okState.idxRcx A := by decide

theorem witness_set_idx : 31 < 64 ∧ (31 < 32 ∨ okState.mode = .long64) ∧ 63 < 64 ∧ (63 < 32 ∨ okState.mode = .long64) := by
  decide

theorem witness_index_wraps :
    let s := launchReal 0xFFFE 0x200 0x50002 (eight 0x10100)
    MovesElement (.repMovsw ⟨[.rep], none⟩) s ∧ ∃ t, exec (.repMovsw ⟨[.rep], none⟩) s = .next t :=
  ⟨fun _ => by decide, exists_next (by decide)⟩

theorem witness_rep_block :
    (Instr.repMovsb plain).isRep = true ∧ 2 ≤ (okState.idxRcx (addrSizeOf okState.codeCtx plain)).toNat ∧
      (∃ t, execTimes (.repMovsb plain) 2 okState = .next t) ∧ ∃ t, execTimes (.repMovsb plain) 1 okState = .next t :=
  ⟨rfl, by decide, exists_next (by decide), exists_next (by decide)⟩

theorem witness_disjoint_block :
    let A := addrSizeOf okState.codeCtx plain
    let src := fun j => okState.physBytes .ds (indexAfter A okState.df 4 (okState.idxRsi A) j) 4 .read
    let dst := fun j => okState.physBytes .es (indexAfter A okState.df 4 (okState.idxRdi A) j) 4 .write
    Memory.wf okState.mem = true ∧ (okState.idxRcx A).toNat = 2 ∧ srcSegOf okState.codeCtx plain = .ds ∧
      (∃ t, execTimes (.repMovsd plain) 2 okState = .next t) ∧ (∀ j < 2, ∀ k < 2, ∀ a ∈ dst j, a ∉ src k) ∧
      (∀ j < 2, ∀ k < 2, j ≠ k → ∀ a ∈ dst j, a ∉ dst k) ∧ ∀ j < 2, (dst j).Nodup := by
  refine ⟨by decide, by decide, by decide, exists_next (by decide), by decide, ?_, by decide⟩
  intro j hj k hk
  interval_cases j <;> interval_cases k <;> decide

theorem endsAt_of_endedIn {exit k : Nat} {s : State} (h : (endedIn (runTo exit k s)).isSome = true) : ∃ t, EndsAt exit s t := by
  unfold endedIn at h
  split at h
  · rename_i t ht
    exact ⟨t, k, ht⟩
  all_goals cases h

theorem witness_run_ends : ∃ t, EndsAt 0x400002 blockState t := endsAt_of_endedIn (k := 3) (by decide)

theorem witness_run_of_a_rep_form :
    let i : Instr := .repMovsb ⟨[.rep], none⟩
    decode blockState.codeCtx blockState.fetchBytes = .insn i ∧ i.isRep = true ∧ blockState.storedCode i = false ∧
      max 1 (blockState.idxRcx (addrSizeOf blockState.codeCtx i.spelling)).toNat = 3 ∧
      ∃ t, execTimes i 3 blockState = .next t :=
  ⟨by decide, rfl, by decide, by decide, exists_next (by decide)⟩

theorem witness_lock : (Instr.repMovsq ⟨[.lock, .rep], some 0x8⟩).spelling.has .lock = true := by decide

theorem witness_fault_is_reported :
    exec (.movsq plain) (launch64 0x7FFFFFFFFFF9 0x2000 0 []) = .fault (.gp (some 0)) ∧
      exec (.movsb ⟨[.seg .ss], none⟩) (launch32 0x1000 0x20 9 []) = .fault (.ss (some 0)) :=
  ⟨fault_of_faultOf (by decide), fault_of_faultOf (by decide)⟩

/-- The hypotheses that the statements about exceptions share. -/
def Starts (i : Instr) (s : State) : Prop :=
  StartOk i.size i.spelling s ∧ MovesElement i s ∧ LaunchOk i.size i.spelling (elementsOf i s) s

theorem starts {i : Instr} {s : State} (h1 : i.spelling.has .lock = false) (h2 : i.size = .qword → s.mode = .long64)
    (h3 : s.codeOffsetOk (s.ipOffset + i.spelling.len) = true) (hr : i.isRep = false)
    (hd : s.blockOnDevice i.size (addrSizeOf s.codeCtx i.spelling) (srcSegOf s.codeCtx i.spelling) 1 = false)
    (ho : s.blockOnOwnBytes i.size (addrSizeOf s.codeCtx i.spelling) 1 i.spelling.len = false) :
    Starts i s :=
  ⟨⟨h1, h2, h3⟩, fun h => absurd h (by simp [hr]), by rw [elementsOf, hr]; exact launchOk hd ho⟩

/-- A source one byte past the limit of DS; the destination is admitted. -/
def pastLimit : State := launch32 0xFFFD 0x20 9 []

theorem witness_dst_ok_past_limit : DstOk .dword plain pastLimit :=
  accessOk_of_check (by decide)

theorem witness_access_raises :
    Starts (.movsd plain) pastLimit ∧
      SrcRaises .dword plain pastLimit (.gp (some 0)) ∧ ¬ SrcWraps4G .dword plain pastLimit :=
  ⟨starts (by decide) (by decide) (by decide) rfl (by decide) (by decide),
    .inl (.inr (.inl ⟨by decide, by decide, by decide⟩)), by decide⟩

theorem witness_destination_raises :
    let s := launch32 0x10 0xFFFD 9 []
    Starts (.movsd plain) s ∧ SrcOk .dword plain s ∧ DstRaises .dword plain s (.gp (some 0)) ∧ ¬ DstWraps4G .dword plain s :=
  ⟨starts (by decide) (by decide) (by decide) rfl (by decide) (by decide), accessOk_of_check (by decide),
    .inl (.inr (.inl ⟨by decide, by decide, by decide⟩)), by decide⟩

theorem witness_limit_of_the_source :
    Starts (.movsd plain) pastLimit ∧ pastLimit.mode ≠ .long64 ∧ DstOk .dword plain pastLimit ∧
      pastLimit.typeFaults .ds .read = [] ∧ srcSegOf pastLimit.codeCtx plain = .ds ∧ ¬ SrcWraps4G .dword plain pastLimit ∧
      (pastLimit.segOf .ds).inLimit (pastLimit.idxRsi .a32).toNat 4 = false ∧ addrSizeOf pastLimit.codeCtx plain = .a32 :=
  ⟨starts (by decide) (by decide) (by decide) rfl (by decide) (by decide), by decide, witness_dst_ok_past_limit, by decide, by decide, by decide, by decide, by decide⟩

theorem witness_limit_of_the_destination :
    let s := launchReal 0x10 0xFFFF 9 []
    Starts (.movsw plain) s ∧ SrcOk .word plain s ∧ s.typeFaults .es .write = [] ∧ ¬ DstWraps4G .word plain s ∧
      s.seg.es.inLimit (s.idxRdi (addrSizeOf s.codeCtx plain)).toNat 2 = false :=
  ⟨starts (by decide) (by decide) (by decide) rfl (by decide) (by decide),
    accessOk_of_check (by decide), by decide, by decide, by decide⟩

theorem witness_segment_type_of_the_source :
    let s := { launch32 0x10 0x20 9 [] with seg := { (launch32 0 0 0 []).seg with ds := { flat 0 0xFFFF with null := true } } }
    Starts (.movsb plain) s ∧ s.mode = .prot ∧ DstOk .byte plain s ∧ srcSegOf s.codeCtx plain = .ds ∧ s.seg.ds.null = true :=
  ⟨starts (by decide) (by decide) (by decide) rfl (by decide) (by decide), rfl,
    accessOk_of_check (by decide), by decide, rfl⟩

theorem witness_segment_type_of_the_destination :
    let s := { launch32 0x10 0x20 9 [] with seg := { (launch32 0 0 0 []).seg with es := { flat 0 0xFFFF with writable := false } } }
    Starts (.movsb plain) s ∧ s.mode = .prot ∧ SrcOk .byte plain s ∧ s.seg.es.writable = false :=
  ⟨starts (by decide) (by decide) (by decide) rfl (by decide) (by decide), rfl,
    accessOk_of_check (by decide), rfl⟩

theorem witness_execute_only_source :
    let s := { launch32 0x10 0x20 9 [] with seg := { (launch32 0 0 0 []).seg with cs := { flat 0 0xFFFFF with readable := false } } }
    Starts (.movsb ⟨[.seg .cs], none⟩) s ∧ s.mode = .prot ∧ DstOk .byte ⟨[.seg .cs], none⟩ s ∧
      srcSegOf s.codeCtx ⟨[.seg .cs], none⟩ = .cs ∧ s.seg.cs.readable = false :=
  ⟨starts (by decide) (by decide) (by decide) rfl (by decide) (by decide), rfl, accessOk_of_check (by decide), by decide, rfl⟩

theorem witness_null_destination :
    let s := { launch32 0x10 0x20 9 [] with seg := { (launch32 0 0 0 []).seg with es := { flat 0 0xFFFF with null := true } } }
    Starts (.movsb plain) s ∧ s.mode = .prot ∧ SrcOk .byte plain s ∧ s.seg.es.null = true :=
  ⟨starts (by decide) (by decide) (by decide) rfl (by decide) (by decide), rfl, accessOk_of_check (by decide), rfl⟩

theorem witness_non_canonical_source :
    let s := launch64 0x7FFFFFFFFFFD 0x2000 9 []
    Starts (.movsd plain) s ∧ s.mode = .long64 ∧ DstOk .dword plain s ∧
      (∃ a ∈ linBytes (s.lin .ds (s.idxRsi .a64)) 4, canonical s.cfg.vaBits a = false) ∧ s.cfg.ssOverride64Honoured = false :=
  ⟨starts (by decide) (by decide) (by decide) rfl (by decide) (by decide), rfl,
    accessOk_of_check (by decide),
    ⟨0x800000000000, by decide, by decide⟩, rfl⟩

theorem witness_non_canonical_destination :
    let s := launch64 0x1000 0xFFFF7FFFFFFFFFFF 9 []
    Starts (.movsb plain) s ∧ SrcOk .byte plain s ∧ ∃ a ∈ linBytes (s.lin .es (s.idxRdi .a64)) 1, canonical s.cfg.vaBits a = false :=
  ⟨starts (by decide) (by decide) (by decide) rfl (by decide) (by decide), accessOk_of_check (by decide),
    ⟨0xFFFF7FFFFFFFFFFF, by decide, by decide⟩⟩

theorem witness_unaligned_source :
    let s := { launch64 0x1001 0x2000 9 [] with cpl := 3, alignCheckEnabled := true }
    Starts (.movsd plain) s ∧ s.mode ≠ .real ∧ s.cpl = 3 ∧ DstOk .dword plain s ∧
      SrcOk .dword plain { s with alignCheckEnabled := false } ∧ (s.lin .ds (s.idxRsi .a64)).toNat % 4 ≠ 0 ∧
      exec (.movsd plain) s = .fault (.ac 0) :=
  ⟨starts (by decide) (by decide) (by decide) rfl (by decide) (by decide), by decide, rfl,
    accessOk_of_check (by decide),
    accessOk_of_check (by decide), by decide,
    fault_of_faultOf (by decide)⟩

theorem witness_unaligned_destination :
    let s := { launch64 0x1000 0x2002 9 [] with cpl := 3, alignCheckEnabled := true }
    Starts (.movsq plain) s ∧ SrcOk .qword plain s ∧ DstOk .qword plain { s with alignCheckEnabled := false } ∧
      (s.lin .es (s.idxRdi .a64)).toNat % 8 ≠ 0 :=
  ⟨starts (by decide) (by decide) (by decide) rfl (by decide) (by decide), accessOk_of_check (by decide),
    accessOk_of_check (by decide), by decide⟩

theorem witness_page_fault_of_the_source :
    let s := { launch64 0x1FFE 0x3000 9 [] with cfg := faulting .read 0 0x2000 0x2FFF 0 }
    Starts (.movsd plain) s ∧ DstOk .dword plain s ∧ SrcOk .dword plain { s with cfg := { s.cfg with translate := [] } } ∧
      linBytes (s.lin .ds (s.idxRsi .a64)) 4 = [0x1FFE, 0x1FFF] ++ 0x2000 :: [0x2001] ∧
      (∀ x ∈ [(0x1FFE : Word), 0x1FFF], (physOf (s.translate x .read)).isSome = true) ∧
      s.translate 0x2000 .read = .pageFault 0 :=
  ⟨starts (by decide) (by decide) (by decide) rfl (by decide) (by decide),
    accessOk_of_check (by decide),
    accessOk_of_check (by decide), by decide, List.forall_mem_cons.2 ⟨by decide, List.forall_mem_cons.2 ⟨by decide, by simp⟩⟩, by decide⟩

theorem witness_page_fault_of_the_destination :
    let s := { launch64 0x1000 0x2FFE 9 [] with cfg := faulting .write 0 0x3000 0x3FFF 2 }
    Starts (.movsd plain) s ∧ SrcOk .dword plain s ∧ DstOk .dword plain { s with cfg := { s.cfg with translate := [] } } ∧
      linBytes (s.lin .es (s.idxRdi .a64)) 4 = [0x2FFE, 0x2FFF] ++ 0x3000 :: [0x3001] ∧
      (∀ x ∈ [(0x2FFE : Word), 0x2FFF], (physOf (s.translate x .write)).isSome = true) ∧
      s.translate 0x3000 .write = .pageFault 2 :=
  ⟨starts (by decide) (by decide) (by decide) rfl (by decide) (by decide), accessOk_of_check (by decide),
    accessOk_of_check (by decide), by decide, List.forall_mem_cons.2 ⟨by decide, List.forall_mem_cons.2 ⟨by decide, by simp⟩⟩, by decide⟩

theorem witness_real_mode_exceptions :
    exec (.movsw ⟨[.seg .ss], none⟩) (launchReal 0xFFFF 0 9 []) = .fault (.ss none) ∧
      exec (.movsw plain) (launchReal 0x10 0xFFFF 9 []) = .fault (.gp none) ∧ (launchReal 0xFFFF 0 9 []).mode = .real :=
  ⟨fault_of_faultOf (by decide), fault_of_faultOf (by decide), rfl⟩

theorem witness_wrapping_accesses :
    let s := { launch32 0xFFFFFFFE 0x20 9 [] with seg := { (launch32 0 0 0 []).seg with ds := flat 0 0xFFFFFFFF } }
    StartOk .dword plain s ∧ s.typeFaults .ds .read = [] ∧ SrcWraps4G .dword plain s ∧
      SrcOk .dword plain (launch64 0x1000 0xFFFFFFFFFFFFFFFE 9 []) ∧
      2 ^ AddrSize.a64.bits < ((launch64 0x1000 0xFFFFFFFFFFFFFFFE 9 []).idxRdi .a64).toNat + 4 ∧
      (launch64 0x1000 0xFFFFFFFFFFFFFFFE 9 []).typeFaults .es .write = [] ∧
      (launch64 0x1000 0xFFFFFFFFFFFFFFFE 9 []).rangeFaults .es 0xFFFFFFFFFFFFFFFE 4 = [] :=
  ⟨⟨by decide, by decide, by decide⟩, by decide, by decide,
    accessOk_of_check (by decide), by decide, by decide, by decide⟩

theorem witness_wrapping_source_and_flat_destination :
    let s := launch64 0xFFFFFFFE 0x2000 9 []
    let d := { launch32 0x10 0xFFFFFFFE 9 [] with seg := { (launch32 0 0 0 []).seg with es := flat 0 0xFFFFFFFF } }
    StartOk .dword ⟨[.addrSize], none⟩ s ∧ (∀ f, ¬ SegRaises s .ds (s.idxRsi .a32) 4 .read f) ∧
      2 ^ AddrSize.a32.bits < (s.idxRsi .a32).toNat + 4 ∧ StartOk .dword plain d ∧ SrcOk .dword plain d ∧
      d.typeFaults .es .write = [] ∧ DstWraps4G .dword plain d :=
  ⟨⟨by decide, by decide, by decide⟩, (no_segRaises_iff ..).2 ⟨by decide, by decide⟩, by decide,
    ⟨by decide, by decide, by decide⟩, accessOk_of_check (by decide), by decide, by decide⟩

/-- A raising source beside a destination on the device; a source on the device only at the third of four elements. -/
theorem witness_device :
    let s := withDevice (launch64 0x800000000000 0x5FFF 9 [])
    let d := withDevice (launch64 0x4FFE 0x2000 4 [])
    StartOk .byte plain s ∧ MovesElement (.movsb plain) s ∧ ReachesDevice .byte plain (elementsOf (.movsb plain) s) s ∧
      SrcRaises .byte plain s (.gp (some 0)) ∧
      StartOk .byte plain d ∧ MovesElement (.repMovsb plain) d ∧
      ReachesDevice .byte plain (elementsOf (.repMovsb plain) d) d ∧ ¬ ReachesDevice .byte plain 2 d :=
  ⟨⟨by decide, by decide, by decide⟩, fun h => Bool.noConfusion h, (blockOnDevice_iff ..).1 (by decide),
    .inl (.inr (.inr ⟨rfl, ⟨0x800000000000, by decide, by decide⟩, by decide⟩)),
    ⟨by decide, by decide, by decide⟩, fun _ => by decide, (blockOnDevice_iff ..).1 (by decide),
    fun h => absurd ((blockOnDevice_iff ..).2 h) (by decide)⟩

/-- The own byte is met at the fourth of five elements; at the last byte of one element; the device is met by one. -/
theorem witness_device_and_own_bytes :
    let r := launch64 0x1000 0x3FFFFD 5 []
    let s := launch64 0x1000 0x3FFFFD 9 []
    StartOk .byte plain r ∧ MovesElement (.repMovsb plain) r ∧
      ¬ ReachesDevice .byte plain (elementsOf (.repMovsb plain) r) r ∧
      MeetsOwnBytes .byte plain (elementsOf (.repMovsb plain) r) r ∧ ¬ MeetsOwnBytes .byte plain 3 r ∧
      StartOk .dword plain s ∧ SrcOk .dword plain s ∧ DstOk .dword plain s ∧
      (∃ a ∈ s.dstBytes .dword plain, a ∈ s.codeAddrs plain.len) ∧
      { s with cfg := { s.cfg with devices := [⟨0x400000, 0x400000⟩] } }.onDevice (s.dstBytes .dword plain) = true :=
  ⟨⟨by decide, by decide, by decide⟩, fun _ => by decide,
    fun h => absurd ((blockOnDevice_iff ..).2 h) (by decide), (blockOnOwnBytes_iff ..).1 (by decide),
    fun h => absurd ((blockOnOwnBytes_iff ..).2 h) (by decide),
    ⟨by decide, by decide, by decide⟩,
    accessOk_of_check (by decide),
    accessOk_of_check (by decide),
    ⟨0x400000, by decide, by decide⟩, by decide⟩

theorem witness_rest_of_a_block :
    ∃ t, exec (.repMovsb ⟨[.rep], none⟩) blockState = .next t ∧ t.idxRcx (addrSizeOf t.codeCtx ⟨[.rep], none⟩) ≠ 0 := by
  have h : (nextOf (exec (.repMovsb ⟨[.rep], none⟩) blockState)).any
      (fun t => decide (t.idxRcx (addrSizeOf t.codeCtx ⟨[.rep], none⟩) ≠ 0)) = true := by decide
  cases hx : exec (.repMovsb ⟨[.rep], none⟩) blockState with
  | next t => rw [hx] at h; exact ⟨t, rfl, of_decide_eq_true h⟩
  | fault f => rw [hx] at h; cases h
  | refused e => rw [hx] at h; cases h

/-- Real-address mode, with the base of CS after reset too, and virtual-8086 mode; a base in virtual-8086 mode that is
not 16 times a 16-bit selector is not one that R23 gives. -/
theorem witness_segments_of_real_and_v86_mode :
    let s := launchReal 0xFFFF 0 9 []
    s.mode = .real ∧ s.realSegs = true ∧ { s with seg := State.reset.seg }.realSegs = true ∧
      { s with mode := .v86 }.realSegs = true ∧ { s with mode := .v86, seg := State.reset.seg }.realSegs = false ∧
      { s with mode := .v86, seg := { s.seg with es := flat 8 0xFFFF } }.realSegs = false ∧
      { s with seg := { s.seg with es := flat 0xFFFF0 0xFFFF } }.realSegs = true := by decide

theorem witness_next_instruction_outside_code :
    plain.has .lock = false ∧ { launchReal 0 0 0 [] with pc := 0xFFFF }.codeOffsetOk
      ({ launchReal 0 0 0 [] with pc := 0xFFFF }.ipOffset + plain.len) = false ∧
      { launchReal 0 0 0 [] with pc := 0xFFFE }.codeOffsetOk
        ({ launchReal 0 0 0 [] with pc := 0xFFFE }.ipOffset + plain.len) = true := by decide

theorem witness_linear_address : (launchReal 0 0 0 []).mode ≠ .long64 ∧ okState.mode = .long64 := by decide

theorem witness_real_mode : (launchReal 0x10 0x20 9 []).mode = .real ∧
    ∃ t, exec (.movsb plain) (launchReal 0x10 0x20 9 []) = .next t :=
  ⟨rfl, exists_next (by decide)⟩

theorem witness_unprivileged : okState.alignCheckEnabled = false ∧ okState.cfg.translate = [] := by decide

theorem witness_invariant_and_step : Inv blockState ∧ ∃ t, step blockState = .next t :=
  ⟨⟨by decide, by decide, by decide, by decide⟩, exists_next (by decide)⟩

end Sys2Proof.Machine
end

section
/-! PROOFS. One step of the machine, 00_scope.md R11: what it answers for each answer of the decoder, and what it
leaves alone when it completes. -/

namespace Sys2Proof.Machine

/-! ### What a step answers, by what its bytes decode to -/

section
variable {s : State}

theorem step_of_fetchDecode_notInScope (hd : s.fetchDecode = .notInScope) : step s = .refused .notInScope := by
  simp only [step, hd]

theorem step_of_fetchDecode_badSpelling (hd : s.fetchDecode = .badSpelling) : step s = .refused .badSpelling := by
  simp only [step, hd]

theorem step_of_fetchDecode_repne (hd : s.fetchDecode = .repne) : step s = .refused .repnePrefix := by
  simp only [step, hd]

theorem step_of_fetchDecode_truncated (hd : s.fetchDecode = .truncated) : step s = .refused .fetchFault := by
  simp only [step, hd]

variable {i : Instr} (hd : s.fetchDecode = .insn i)
include hd

theorem step_of_storedCode (hst : s.storedCode i = true) : step s = .refused .storeIntoCode := by
  simp only [step, hd, hst, if_true]

variable (hst : s.storedCode i = false)
include hst

theorem step_of_exec_next {t : State} (hx : exec i s = .next t) : step s = .next t.tick := by
  simp only [step, hd, hst, hx, Bool.false_eq_true, if_false]

theorem step_of_exec_fault {f : Fault} (hx : exec i s = .fault f) : step s = .fault f := by
  simp only [step, hd, hst, hx, Bool.false_eq_true, if_false]

theorem step_of_exec_refused {e : Refusal} (hx : exec i s = .refused e) : step s = .refused e := by
  simp only [step, hd, hst, hx, Bool.false_eq_true, if_false]

end

/-! ### What a completed step leaves alone -/

/-- R28, for an instruction that completes or makes one iteration: each of the three states it can end in differs
from `s` in the index and count registers, `pc` and the memory alone. -/
theorem sameEnv_of_exec_next {i : Instr} {s t : State} (h : exec i s = .next t) : SameEnv s t := by
  obtain ⟨-, ⟨-, -, rfl⟩ | ⟨-, -, rfl⟩ | ⟨-, -, -, rfl⟩⟩ := exec_next h
  case inl => exact (sameEnv_moved s i.size i.spelling).trans (sameEnv_setPc _ _)
  case inr.inl => exact sameEnv_setPc s _
  case inr.inr => exact sameEnv_iterated s i.size i.spelling

theorem sameEnv_of_step_next {s t : State} (h : step s = .next t) : SameEnv s t := by
  obtain ⟨i, u, -, -, hx, rfl⟩ := step_next h
  exact (sameEnv_of_exec_next hx).trans (sameEnv_tick u)

/-! ### The statements -/

/-- Settles O54: a completed step ran one instruction, which keeps what `SameEnv` lists, and the decoder's context and
the effective CPL are read from that alone. -/
theorem stepNeverLeavesTheMode : Obligations.StepNeverLeavesTheMode := by
  intro s t h
  have henv : SameEnv s t := sameEnv_of_step_next h
  exact ⟨henv, henv.codeCtx_eq, henv.effCpl_eq⟩

/-- Settles O12: one equation of `step` for each outcome of the decoded instruction, and one for bytes stored to. -/
theorem stepRunsTheDecodedInstruction : Obligations.StepRunsTheDecodedInstruction := by
  intro s i hd
  refine ⟨fun hst => ⟨?next, ?fault, ?refused⟩, step_of_storedCode hd⟩
  case next => exact fun _ => step_of_exec_next hd hst
  case fault => exact fun _ => step_of_exec_fault hd hst
  case refused => exact fun _ => step_of_exec_refused hd hst

/-- Settles O14: one equation of `step` for each answer of the decoder that is no instruction. -/
theorem stepRefusesWhatDoesNotDecode : Obligations.StepRefusesWhatDoesNotDecode := fun _ =>
  ⟨step_of_fetchDecode_notInScope, step_of_fetchDecode_badSpelling, step_of_fetchDecode_repne,
    step_of_fetchDecode_truncated⟩

end Sys2Proof.Machine
end

section
/-! PROOFS. What an instruction writes and what it reads, 10_state.md R15 to R28: the state in which it ends, the
frame of that state, and that its outcome depends on nothing outside what it reads. -/

namespace Sys2Proof.Machine

/-! ### The fields after an element move -/

section
variable (s : State) (z : OpSize) (p : Spelling)

@[simp] theorem State.moved_rsi : (s.moved z p).rsi = setLow s.mode (addrSizeOf s.codeCtx p) s.rsi
    (stepIndex (addrSizeOf s.codeCtx p) s.df z.bytes (s.idxRsi (addrSizeOf s.codeCtx p))) := rfl
@[simp] theorem State.moved_rdi : (s.moved z p).rdi = setLow s.mode (addrSizeOf s.codeCtx p) s.rdi
    (stepIndex (addrSizeOf s.codeCtx p) s.df z.bytes (s.idxRdi (addrSizeOf s.codeCtx p))) := rfl
@[simp] theorem State.moved_rcx : (s.moved z p).rcx = s.rcx := rfl
@[simp] theorem State.moved_pc : (s.moved z p).pc = s.pc := rfl
@[simp] theorem State.moved_mem : (s.moved z p).mem =
    Memory.writeAll s.mem (s.dstBytes z p) (Memory.readAll s.mem (s.srcBytes z p)) := rfl
@[simp] theorem State.moved_stored : (s.moved z p).stored = (s.dstBytes z p).foldr insertAddr s.stored := rfl
@[simp] theorem State.moved_freeIndex : (s.moved z p).freeIndex = s.freeIndex := rfl

/-- R75: `Idx(RSI, A)` is stepped. -/
theorem State.moved_idxRsi : (s.moved z p).idxRsi (addrSizeOf s.codeCtx p) =
    stepIndex (addrSizeOf s.codeCtx p) s.df z.bytes (s.idxRsi (addrSizeOf s.codeCtx p)) :=
  (lowBits_setLow ..).trans (lowBits_lowBits ..)

/-- R75: `Idx(RDI, A)` is stepped. -/
theorem State.moved_idxRdi : (s.moved z p).idxRdi (addrSizeOf s.codeCtx p) =
    stepIndex (addrSizeOf s.codeCtx p) s.df z.bytes (s.idxRdi (addrSizeOf s.codeCtx p)) :=
  (lowBits_setLow ..).trans (lowBits_lowBits ..)

/-- R93: the count goes down by one. -/
theorem State.iterated_idxRcx : (s.iterated z p).idxRcx (addrSizeOf s.codeCtx p) =
    lowBits (addrSizeOf s.codeCtx p) (s.idxRcx (addrSizeOf s.codeCtx p) - 1) :=
  lowBits_setLow ..

end

/-! ### The state in which an instruction ends -/

/-- The address of the following instruction, R67. -/
def State.pcAfter (s : State) (p : Spelling) : Word :=
  s.pc + BitVec.ofNat 64 p.len

/-- The state in which an instruction ends that completes, or makes one iteration (R90, R93, R99). -/
def State.after (s : State) (i : Instr) : State :=
  if i.isRep then
    if s.idxRcx (addrSizeOf s.codeCtx i.spelling) = 0 then s.setPc (s.pcAfter i.spelling)
    else s.iterated i.size i.spelling
  else (s.moved i.size i.spelling).setPc (s.pcAfter i.spelling)

theorem exec_next_eq_after {i : Instr} {s t : State} (h : exec i s = .next t) : t = s.after i := by
  obtain ⟨-, ⟨hr, -, rfl⟩ | ⟨hr, hc, rfl⟩ | ⟨hr, hc, -, rfl⟩⟩ := exec_next h
  case inl => simp [State.after, State.pcAfter, hr]
  case inr.inl => simp [State.after, State.pcAfter, hr, hc]
  case inr.inr => simp only [State.after, hr, if_true, if_neg hc]

section
variable {s : State} {i : Instr}

/-- R99: an instruction that moves no element is a REP form with a zero count. -/
theorem not_movesElement_iff :
    ¬ MovesElement i s ↔ i.isRep = true ∧ s.idxRcx (addrSizeOf s.codeCtx i.spelling) = 0 := by
  simp [MovesElement]

/-- R99: a zero count changes `pc` alone. -/
theorem after_of_not_movesElement (h : ¬ MovesElement i s) : s.after i = s.setPc (s.pcAfter i.spelling) := by
  obtain ⟨hr, hc⟩ := not_movesElement_iff.1 h
  simp [State.after, hr, hc]

/-- R90, R93: an element is moved, and besides that only `pc` and the count can change. -/
theorem after_of_movesElement (h : MovesElement i s) :
    s.after i = { s.moved i.size i.spelling with rcx := (s.after i).rcx, pc := (s.after i).pc } := by
  cases hr : i.isRep with
  | false => simp only [State.after, hr, Bool.false_eq_true, if_false]; rfl
  | true => simp only [State.after, hr, if_true, if_neg (h hr)]; rfl

/-- R15: a form without REP leaves the count register alone. -/
theorem after_rcx_of_once (h : i.isRep = false) : (s.after i).rcx = s.rcx := by
  simp [State.after, h]

/-- `pc` goes on to the next instruction, or stays for the next iteration of a REP form. -/
theorem after_pc_eq_or : (s.after i).pc = s.pcAfter i.spelling ∨ (s.after i).pc = s.pc := by
  unfold State.after
  split
  · split
    · exact .inl rfl
    · by_cases h : s.idxRcx (addrSizeOf s.codeCtx i.spelling) = 1
      · exact .inl (if_pos h)
      · exact .inr (if_neg h)
  · exact .inl rfl

@[simp] theorem after_freeIndex : (s.after i).freeIndex = s.freeIndex := by
  by_cases h : MovesElement i s
  · rw [after_of_movesElement h]; rfl
  · rw [after_of_not_movesElement h]; rfl

theorem SameEnv.symm {s t : State} (h : SameEnv s t) : SameEnv t s :=
  ⟨h.other.symm, h.eflags.symm, h.mode.symm, h.cpl.symm, h.alignCheckEnabled.symm, h.codeDefault16.symm, h.seg.symm,
    h.cfg.symm⟩

/-- R28: what no instruction writes. -/
theorem sameEnv_after (s : State) (i : Instr) : SameEnv s (s.after i) := by
  by_cases h : MovesElement i s
  · rw [after_of_movesElement h]
    exact ⟨rfl, rfl, rfl, rfl, rfl, rfl, rfl, rfl⟩
  · rw [after_of_not_movesElement h]
    exact sameEnv_setPc ..

/-- R46: the bytes outside the destination element stay. -/
theorem read_after_of_notMem {a : Nat} (ha : a ∉ s.dstBytes i.size i.spelling) :
    Memory.read (s.after i).mem a = Memory.read s.mem a := by
  by_cases h : MovesElement i s
  · rw [after_of_movesElement h]
    exact Memory.read_writeAll_other _ _ ha
  · rw [after_of_not_movesElement h, State.setPc_mem]

/-- The record of stores grows by the destination bytes (R50, log entry 13). -/
theorem mem_stored_after_iff {a : Nat} :
    a ∈ (s.after i).stored ↔ a ∈ s.stored ∨ (MovesElement i s ∧ a ∈ s.dstBytes i.size i.spelling) := by
  by_cases h : MovesElement i s
  · rw [after_of_movesElement h]
    simp only [State.moved_stored, mem_foldr_insertAddr, h, true_and, or_comm]
  · simp [after_of_not_movesElement h, h]

/-- R18: a 16-bit write keeps bits 31..16. -/
theorem setLow_a16_bits31_16 (m : Mode) (old v : Word) :
    (setLow m .a16 old v).extractLsb' 16 16 = old.extractLsb' 16 16 := by
  apply BitVec.eq_of_getLsbD_eq
  intro k _
  simp [BitVec.getLsbD_extractLsb', setLow_getLsbD, AddrSize.bits]

/-- R15, R18: at address size 16 bits 31..16 of the index and count registers stay. -/
theorem after_bits31_16 (hA : addrSizeOf s.codeCtx i.spelling = .a16) :
    (s.after i).rsi.extractLsb' 16 16 = s.rsi.extractLsb' 16 16 ∧
      (s.after i).rdi.extractLsb' 16 16 = s.rdi.extractLsb' 16 16 ∧
      (s.after i).rcx.extractLsb' 16 16 = s.rcx.extractLsb' 16 16 := by
  unfold State.after
  split
  · split
    · exact ⟨rfl, rfl, rfl⟩
    · simp only [State.iterated, State.moved_rsi, State.moved_rdi, hA, setLow_a16_bits31_16, and_self]
  · simp only [State.setPc_rsi, State.setPc_rdi, State.setPc_rcx, State.moved_rsi, State.moved_rdi, State.moved_rcx, hA,
      setLow_a16_bits31_16, and_self]

end

/-! ### The invariant -/

theorem State.ipBits_le (s : State) : s.ipBits ≤ 64 := by
  unfold State.ipBits
  split
  · exact le_refl _
  all_goals split <;> decide

/-- An offset an instruction byte may have is below the width of the instruction pointer. -/
theorem lt_of_codeOffsetOk {s : State} {off : Nat} (h : s.codeOffsetOk off = true) : off < 2 ^ s.ipBits := by
  unfold State.codeOffsetOk at h
  exact of_decide_eq_true (Bool.and_eq_true_iff.1 h).1

/-- R19: where `pc + Len` does not pass the instruction-pointer width, it is the next offset used for fetch. -/
theorem ipOffset_of_pc_eq_pcAfter {s t : State} {p : Spelling} (henv : SameEnv s t) (hpc : t.pc = s.pcAfter p)
    (hlt : s.ipOffset + p.len < 2 ^ s.ipBits) : t.ipOffset = s.ipOffset + p.len := by
  have hd : 2 ^ s.ipBits ∣ 2 ^ 64 := pow_dvd_pow 2 s.ipBits_le
  calc t.ipOffset = (s.pc.toNat + p.len) % 2 ^ s.ipBits := by
        rw [State.ipOffset, henv.ipBits_eq, hpc, State.pcAfter, BitVec.toNat_add, BitVec.toNat_ofNat,
          Nat.mod_mod_of_dvd _ hd, Nat.add_mod, Nat.mod_mod_of_dvd _ hd, ← Nat.add_mod]
    _ = (s.ipOffset + p.len) % 2 ^ s.ipBits := by rw [State.ipOffset, Nat.mod_add_mod]
    _ = s.ipOffset + p.len := Nat.mod_eq_of_lt hlt

/-- R19, U9: an instruction that starts in the code, and whose following address is in the code, ends in the code. -/
theorem codeOffsetOk_after {i : Instr} {s : State} (hs : StartOk i.size i.spelling s)
    (hpc : s.codeOffsetOk s.ipOffset = true) : (s.after i).codeOffsetOk (s.after i).ipOffset = true := by
  have henv := sameEnv_after s i
  rw [henv.codeOffsetOk_eq]
  rcases after_pc_eq_or (s := s) (i := i) with h | h
  · rw [ipOffset_of_pc_eq_pcAfter henv h (lt_of_codeOffsetOk hs.nextInCode)]
    exact hs.nextInCode
  · rwa [henv.ipOffset_eq h]

theorem wf_mem_after {s : State} (h : Memory.wf s.mem = true) (i : Instr) : Memory.wf (s.after i).mem = true := by
  by_cases hm : MovesElement i s
  · rw [after_of_movesElement hm]
    exact Memory.wf_writeAll h _ _
  · rwa [after_of_not_movesElement hm]

theorem risingAddrs_stored_after {s : State} (h : risingAddrs s.stored = true) (i : Instr) :
    risingAddrs (s.after i).stored = true := by
  by_cases hm : MovesElement i s
  · rw [after_of_movesElement hm]
    exact risingAddrs_foldr_insertAddr h _
  · rwa [after_of_not_movesElement hm]

theorem Inv.after {i : Instr} {s : State} (h : Inv s) (hs : StartOk i.size i.spelling s) : Inv (s.after i) where
  memCanonical := wf_mem_after h.memCanonical i
  storedRising := risingAddrs_stored_after h.storedRising i
  pcInCode := codeOffsetOk_after hs h.pcInCode
  segShape := (sameEnv_after s i).realSegs_eq.trans h.segShape

/-- The counter of the free value is no part of the invariant (log entry 6). -/
theorem Inv.tick {s : State} (h : Inv s) : Inv s.tick :=
  ⟨h.memCanonical, h.storedRising, h.pcInCode, h.segShape⟩

/-! ### What an instruction reads -/

/-- R21: the flags do not enter the translation of an access. -/
theorem translateAll_of_eflags (s : State) (e : BitVec 32) (k : AccessKind) (as : List Word) :
    { s with eflags := e }.translateAll k as = s.translateAll k as := by
  induction as with
  | nil => rfl
  | cons a as ih => rw [State.translateAll, State.translateAll, ih]; rfl

/-- R21: the flags do not enter the checks of an access. -/
theorem check_of_eflags (s : State) (e : BitVec 32) (A : AddrSize) (r : SegReg) (off : Word) (n : Nat)
    (k : AccessKind) : { s with eflags := e }.check A r off n k = s.check A r off n k := by
  simp only [State.check, translateAll_of_eflags]
  rfl

/-- R21: the flags do not enter the fetch. -/
theorem codeAddrs_of_eflags (s : State) (e : BitVec 32) (k : Nat) :
    { s with eflags := e }.codeAddrs k = s.codeAddrs k := by
  have hfrom : ∀ i, { s with eflags := e }.codeAddrsFrom i k = s.codeAddrsFrom i k := by
    induction k with
    | zero => exact fun _ => rfl
    | succ k ih => exact fun i => by rw [State.codeAddrsFrom, State.codeAddrsFrom, ih]; rfl
  exact hfrom 0

/-- Two states agree in everything that an instruction of address size `A` reads: of RSI, RDI and RCX their `Idx` (R17),
of EFLAGS only DF (R21). -/
structure ReadsSame (A : AddrSize) (s u : State) : Prop where
  env : SameEnv s { u with eflags := s.eflags }
  df : u.df = s.df
  rsi : u.idxRsi A = s.idxRsi A
  rdi : u.idxRdi A = s.idxRdi A
  rcx : u.idxRcx A = s.idxRcx A
  pc : u.pc = s.pc
  mem : u.mem = s.mem
  freeIndex : u.freeIndex = s.freeIndex

section
variable {A : AddrSize} {s u : State} (h : ReadsSame A s u)
include h

theorem ReadsSame.cfg_eq : u.cfg = s.cfg := h.env.cfg

theorem ReadsSame.mode_eq : u.mode = s.mode := h.env.mode

theorem ReadsSame.seg_eq : u.seg = s.seg := h.env.seg

theorem ReadsSame.codeCtx_eq : u.codeCtx = s.codeCtx := h.env.codeCtx_eq

theorem ReadsSame.codeOffsetOk_eq (off : Nat) : u.codeOffsetOk off = s.codeOffsetOk off := h.env.codeOffsetOk_eq off

theorem ReadsSame.ipOffset_eq : u.ipOffset = s.ipOffset := h.env.ipOffset_eq h.pc

theorem ReadsSame.codeAddrs_eq (k : Nat) : u.codeAddrs k = s.codeAddrs k :=
  (codeAddrs_of_eflags u s.eflags k).symm.trans (h.env.codeAddrs_eq h.pc k)

theorem ReadsSame.check_eq (r : SegReg) (off : Word) (n : Nat) (k : AccessKind) :
    u.check A r off n k = s.check A r off n k :=
  (check_of_eflags u s.eflags A r off n k).symm.trans (h.env.check_eq A r off n k)

theorem ReadsSame.physBytes_eq (r : SegReg) (off : Word) (n : Nat) (k : AccessKind) :
    u.physBytes r off n k = s.physBytes r off n k := h.env.physBytes_eq r off n k

theorem ReadsSame.reached_eq (r : SegReg) (off : Word) (n : Nat) (k : AccessKind) :
    u.reached A r off n k = s.reached A r off n k := h.env.reached_eq A r off n k

theorem ReadsSame.onDevice_eq (as : List Nat) : u.onDevice as = s.onDevice as := h.env.onDevice_eq as

theorem ReadsSame.offsetOf_eq (r : SegReg) (a : Word) : u.offsetOf r a = s.offsetOf r a := by
  unfold State.offsetOf State.base64 State.segOf
  rw [h.mode_eq, h.seg_eq]

theorem ReadsSame.blockOnDevice_eq (z : OpSize) (r : SegReg) (c : Nat) :
    u.blockOnDevice z A r c = s.blockOnDevice z A r c := by
  simp only [State.blockOnDevice, State.srcElement, State.dstElement, h.df, h.rsi, h.rdi, h.reached_eq, h.onDevice_eq,
    h.cfg_eq]

theorem ReadsSame.blockStoresTo_eq (z : OpSize) (c : Nat) : u.blockStoresTo z A c = s.blockStoresTo z A c := by
  funext x
  simp only [State.blockStoresTo, State.dstElement, h.df, h.rdi, h.reached_eq, h.offsetOf_eq, h.cfg_eq]

theorem ReadsSame.blockOnOwnBytes_eq (z : OpSize) (c len : Nat) :
    u.blockOnOwnBytes z A c len = s.blockOnOwnBytes z A c len := by
  simp only [State.blockOnOwnBytes, h.codeAddrs_eq, h.blockStoresTo_eq]

theorem ReadsSame.begin_eq (z : OpSize) (p : Spelling) : begin z p u = begin z p s := by
  simp only [begin, State.nextPc, h.mode_eq, h.codeOffsetOk_eq, h.ipOffset_eq, h.pc]

theorem ReadsSame.chooseFault_eq (f : Fault) (fs : List Fault) : u.chooseFault f fs = s.chooseFault f fs := by
  simp only [State.chooseFault, h.freeIndex]

end

/-- R21: of the flags only DF is read. -/
theorem readsSame_of_df_eq (A : AddrSize) {s : State} {e : BitVec 32} (he : e.getLsbD 10 = s.eflags.getLsbD 10) :
    ReadsSame A s { s with eflags := e } :=
  ⟨SameEnv.refl s, he, rfl, rfl, rfl, rfl, rfl, rfl⟩

/-- R17: of RSI, RDI and RCX only `Idx` is read. -/
theorem readsSame_of_idx_eq {A : AddrSize} {s : State} {x y z : Word} (hx : lowBits A x = s.idxRsi A)
    (hy : lowBits A y = s.idxRdi A) (hz : lowBits A z = s.idxRcx A) :
    ReadsSame A s { s with rsi := x, rdi := y, rcx := z } :=
  ⟨⟨rfl, rfl, rfl, rfl, rfl, rfl, rfl, rfl⟩, rfl, hx, hy, hz, rfl, rfl, rfl⟩

/-! ### How an instruction stops, by what it reads -/

/-- An outcome without the next state. -/
def stopOf : Host.Outcome State Fault Refusal → Host.Outcome Unit Fault Refusal
  | .next _ => .next ()
  | .fault f => .fault f
  | .refused e => .refused e

section
variable {o : Host.Outcome State Fault Refusal}

theorem stopOf_eq_next_iff : stopOf o = .next () ↔ ∃ t, o = .next t := by cases o <;> simp [stopOf]

theorem stopOf_eq_fault_iff {f : Fault} : stopOf o = .fault f ↔ o = .fault f := by cases o <;> simp [stopOf]

theorem stopOf_eq_refused_iff {e : Refusal} : stopOf o = .refused e ↔ o = .refused e := by cases o <;> simp [stopOf]

end

/-- The stop of an instruction whose start answers `start` and whose element move then stops like `rest`. -/
def firstStop (start : Host.Outcome Word Fault Refusal) (rest : Host.Outcome Unit Fault Refusal) :
    Host.Outcome Unit Fault Refusal :=
  match start with
  | .next _ => rest
  | .fault f => .fault f
  | .refused e => .refused e

theorem stopOf_movsOnce (z : OpSize) (p : Spelling) (s : State) :
    stopOf (movsOnce z p s) =
      firstStop (begin z p s) (stopOf (movsElement z (addrSizeOf s.codeCtx p) (srcSegOf s.codeCtx p) p.len 1 s)) := by
  unfold movsOnce
  cases begin z p s with
  | fault f => rfl
  | refused e => rfl
  | next pc => cases movsElement z (addrSizeOf s.codeCtx p) (srcSegOf s.codeCtx p) p.len 1 s <;> rfl

theorem stopOf_repMovs (z : OpSize) (p : Spelling) (s : State) :
    stopOf (repMovs z p s) =
      firstStop (begin z p s)
        (if s.idxRcx (addrSizeOf s.codeCtx p) = 0 then .next ()
        else stopOf (movsElement z (addrSizeOf s.codeCtx p) (srcSegOf s.codeCtx p) p.len
          (s.idxRcx (addrSizeOf s.codeCtx p)).toNat s)) := by
  unfold repMovs
  cases begin z p s with
  | fault f => rfl
  | refused e => rfl
  | next pc =>
    by_cases hc : s.idxRcx (addrSizeOf s.codeCtx p) = 0
    · simp only [firstStop, hc, if_true]; rfl
    · simp only [firstStop, if_neg hc]
      cases movsElement z (addrSizeOf s.codeCtx p) (srcSegOf s.codeCtx p) p.len
        (s.idxRcx (addrSizeOf s.codeCtx p)).toNat s with
      | fault f => rfl
      | refused e => rfl
      | next t => simp only; split <;> rfl

theorem ReadsSame.stopOf_movsElement_eq {A : AddrSize} {s u : State} (h : ReadsSame A s u) (z : OpSize) (r : SegReg)
    (len c : Nat) : stopOf (movsElement z A r len c u) = stopOf (movsElement z A r len c s) := by
  simp only [movsElement, h.blockOnDevice_eq, h.blockOnOwnBytes_eq, h.check_eq, h.rsi, h.rdi, h.chooseFault_eq]
  split
  · rfl
  · split
    · rfl
    · split
      · rfl
      · rfl
      · split <;> rfl

section
variable {i : Instr} {s u : State} (h : ReadsSame (addrSizeOf s.codeCtx i.spelling) s u)
include h

theorem ReadsSame.stopOf_exec_eq : stopOf (exec i u) = stopOf (exec i s) := by
  rw [exec_eq, exec_eq]
  split
  · rw [stopOf_repMovs, stopOf_repMovs, h.codeCtx_eq, h.begin_eq, h.rcx, h.stopOf_movsElement_eq]
  · rw [stopOf_movsOnce, stopOf_movsOnce, h.codeCtx_eq, h.begin_eq, h.stopOf_movsElement_eq]

theorem ReadsSame.exec_next {t : State} (hx : exec i s = .next t) : exec i u = .next (u.after i) := by
  obtain ⟨v, hv⟩ := stopOf_eq_next_iff.1 (h.stopOf_exec_eq.trans (stopOf_eq_next_iff.2 ⟨t, hx⟩))
  rw [hv, exec_next_eq_after hv]

theorem ReadsSame.exec_fault {f : Fault} (hx : exec i s = .fault f) : exec i u = .fault f :=
  stopOf_eq_fault_iff.1 (h.stopOf_exec_eq.trans (stopOf_eq_fault_iff.2 hx))

theorem ReadsSame.exec_refused {e : Refusal} (hx : exec i s = .refused e) : exec i u = .refused e :=
  stopOf_eq_refused_iff.1 (h.stopOf_exec_eq.trans (stopOf_eq_refused_iff.2 hx))

end

/-! ### What an instruction writes, by what it reads -/

/-- Two states agree in everything that an instruction of address size `A` writes: of RSI, RDI and RCX their `Idx`. -/
structure WritesSame (A : AddrSize) (t v : State) : Prop where
  mem : v.mem = t.mem
  stored : v.stored = t.stored
  pc : v.pc = t.pc
  rsi : v.idxRsi A = t.idxRsi A
  rdi : v.idxRdi A = t.idxRdi A
  rcx : v.idxRcx A = t.idxRcx A

theorem WritesSame.setPc {A : AddrSize} {t v : State} (h : WritesSame A t v) (pc : Word) :
    WritesSame A (t.setPc pc) (v.setPc pc) :=
  ⟨h.mem, h.stored, rfl, h.rsi, h.rdi, h.rcx⟩

section
variable {p : Spelling} {s u : State} (h : ReadsSame (addrSizeOf s.codeCtx p) s u) (hst : u.stored = s.stored)
include h

theorem ReadsSame.pcAfter_eq : u.pcAfter p = s.pcAfter p := by
  rw [State.pcAfter, State.pcAfter, h.pc]

theorem ReadsSame.srcBytes_eq (z : OpSize) : u.srcBytes z p = s.srcBytes z p := by
  rw [State.srcBytes, State.srcBytes, h.codeCtx_eq, h.rsi, h.physBytes_eq]

theorem ReadsSame.dstBytes_eq (z : OpSize) : u.dstBytes z p = s.dstBytes z p := by
  rw [State.dstBytes, State.dstBytes, h.codeCtx_eq, h.rdi, h.physBytes_eq]

include hst

theorem ReadsSame.writesSame_moved (z : OpSize) :
    WritesSame (addrSizeOf s.codeCtx p) (s.moved z p) (u.moved z p) where
  mem := by rw [State.moved_mem, State.moved_mem, h.srcBytes_eq, h.dstBytes_eq, h.mem]
  stored := by rw [State.moved_stored, State.moved_stored, h.dstBytes_eq, hst]
  pc := h.pc
  rsi := by
    rw [State.moved_idxRsi, ← h.codeCtx_eq, State.moved_idxRsi, h.codeCtx_eq, h.df, h.rsi]
  rdi := by
    rw [State.moved_idxRdi, ← h.codeCtx_eq, State.moved_idxRdi, h.codeCtx_eq, h.df, h.rdi]
  rcx := h.rcx

theorem ReadsSame.writesSame_iterated (z : OpSize) :
    WritesSame (addrSizeOf s.codeCtx p) (s.iterated z p) (u.iterated z p) where
  mem := (h.writesSame_moved hst z).mem
  stored := (h.writesSame_moved hst z).stored
  pc := by simp only [State.iterated, h.codeCtx_eq, h.rcx, h.pc]
  rsi := (h.writesSame_moved hst z).rsi
  rdi := (h.writesSame_moved hst z).rdi
  rcx := by rw [State.iterated_idxRcx, ← h.codeCtx_eq, State.iterated_idxRcx, h.codeCtx_eq, h.rcx]

end

/-- Instructions that read the same end alike, whichever of the three ends it is. -/
theorem ReadsSame.writesSame_after {i : Instr} {s u : State} (h : ReadsSame (addrSizeOf s.codeCtx i.spelling) s u)
    (hst : u.stored = s.stored) : WritesSame (addrSizeOf s.codeCtx i.spelling) (s.after i) (u.after i) := by
  unfold State.after
  rw [h.codeCtx_eq, h.rcx, h.pcAfter_eq]
  split
  · split
    · exact WritesSame.setPc ⟨h.mem, hst, h.pc, h.rsi, h.rdi, h.rcx⟩ _
    · exact h.writesSame_iterated hst _
  · exact (h.writesSame_moved hst _).setPc _

/-- R21: an instruction ends in the same state but for the flags, which it leaves alone. -/
theorem after_of_eflags {s : State} {e : BitVec 32} (he : e.getLsbD 10 = s.eflags.getLsbD 10) (i : Instr) :
    { s with eflags := e }.after i = { s.after i with eflags := e } := by
  have hdf : { s with eflags := e }.df = s.df := he
  have hmoved : { s with eflags := e }.moved i.size i.spelling = { s.moved i.size i.spelling with eflags := e } := by
    simp only [State.moved, hdf]
    rfl
  have hr := readsSame_of_df_eq (addrSizeOf s.codeCtx i.spelling) he
  unfold State.after State.iterated
  rw [hr.codeCtx_eq, hr.rcx, hr.pcAfter_eq, hmoved]
  split
  · split <;> rfl
  · rfl

/-! ### An instruction refused at its start -/

/-- R19, U9: the start of an instruction whose following address is outside the code. -/
theorem begin_of_next_outside_code {z : OpSize} {p : Spelling} {s : State} (hl : p.has .lock = false)
    (hq : z = .qword → s.mode = .long64) (hc : s.codeOffsetOk (s.ipOffset + p.len) = false) :
    begin z p s = .refused .pcOverflow := by
  have hquad : ¬ (z = .qword ∧ s.mode ≠ .long64) := fun h => h.2 (hq h.1)
  simp only [begin, State.nextPc, hl, hc, if_neg hquad, Bool.false_eq_true, if_false]

/-- What the start refuses, the instruction refuses. -/
theorem exec_of_begin_refused {i : Instr} {s : State} {e : Refusal} (h : begin i.size i.spelling s = .refused e) :
    exec i s = .refused e := by
  rw [exec_eq]
  split
  · rw [repMovs, h]
  · rw [movsOnce, h]

/-! ### The statements -/

/-- Settles O52: a completed step ran one instruction, the instruction keeps each part of the invariant, and the counter
is no part of it. -/
theorem stepKeepsInvariant : Obligations.StepKeepsInvariant := by
  intro s t hinv h
  obtain ⟨i, u, -, -, hx, rfl⟩ := step_next h
  obtain rfl := exec_next_eq_after hx
  exact (hinv.after (exec_next hx).1).tick

/-- Settles O22: each clause is a frame lemma of the state in which the instruction ends. -/
theorem instructionsChangeOnlyWhatTheyShould : Obligations.InstructionsChangeOnlyWhatTheyShould := by
  intro i s t h
  obtain rfl := exec_next_eq_after h
  refine ⟨sameEnv_after s i, after_freeIndex, after_rcx_of_once, fun _ => read_after_of_notMem,
    fun _ => mem_stored_after_iff, fun hm => ?zeroCount, after_bits31_16⟩
  case zeroCount =>
    rw [after_of_not_movesElement hm]
    exact ⟨rfl, rfl, rfl, rfl, rfl⟩

/-- Settles O25, by R18 bit by bit. -/
theorem setIdxWritesTheAddressSize : Obligations.SetIdxWritesTheAddressSize := by
  intro s A v k _ _
  exact ⟨setLow_getLsbD .., setLow_getLsbD .., setLow_getLsbD ..⟩

/-- Settles O47: the start of the instruction, which comes before its operands, refuses it. -/
theorem nextInstructionOutsideCodeIsRefused : Obligations.NextInstructionOutsideCodeIsRefused :=
  fun _ _ hl hq hc => exec_of_begin_refused (begin_of_next_outside_code hl hq hc)

/-- Settles O23: with other flags of the same DF the instruction reads the same, so it stops alike, and where it
completes it leaves the flags alone. -/
theorem noFlagIsWrittenAndOnlyDfIsRead : Obligations.NoFlagIsWrittenAndOnlyDfIsRead := by
  intro i s
  refine ⟨fun t h => (sameEnv_of_exec_next h).eflags, fun e he => ?_⟩
  have hr := readsSame_of_df_eq (addrSizeOf s.codeCtx i.spelling) he
  cases hx : exec i s with
  | next t =>
    obtain rfl := exec_next_eq_after hx
    exact (hr.exec_next hx).trans (congrArg _ (after_of_eflags he i))
  | fault f => exact hr.exec_fault hx
  | refused r => exact hr.exec_refused hx

/-- Settles O24: `Idx` bit by bit is R17; with registers of the same `Idx` the instruction reads the same, so it stops
alike, and where it completes it writes the same. -/
theorem bitsAboveTheAddressSizeDoNotMatter : Obligations.BitsAboveTheAddressSizeDoNotMatter := by
  intro i s x y z
  refine ⟨lowBits_getLsbD _ _, lowBits_getLsbD _ _, lowBits_getLsbD _ _, fun hx hy hz => ?_⟩
  have hr := readsSame_of_idx_eq hx hy hz
  cases he : exec i s with
  | next t =>
    obtain rfl := exec_next_eq_after he
    have hw := hr.writesSame_after rfl
    have henv : SameEnv s { s with rsi := x, rdi := y, rcx := z } := ⟨rfl, rfl, rfl, rfl, rfl, rfl, rfl, rfl⟩
    exact ⟨_, hr.exec_next he, (sameEnv_after s i).symm.trans (henv.trans (sameEnv_after _ i)), hw.mem, hw.stored,
      hw.pc, hw.rsi, hw.rdi, hw.rcx⟩
  | fault f => exact hr.exec_fault he
  | refused r => exact hr.exec_refused he

end Sys2Proof.Machine
end

section
/-! PROOFS. Memory, 20_memory.md: linear addresses and canonical form (R36, R37, R40), the bytes of an access and of an
instruction (R33, R44, R46, R50), and which accesses and launches raise or are refused (R41, R42, R45, R50). -/

namespace Sys2Proof.Machine

/-! ### Linear addresses and canonical form -/

section
variable {s : State}

/-- R36. -/
theorem lin_toNat_of_ne_long64 (hm : s.mode ≠ .long64) (r : SegReg) (off : Word) :
    (s.lin r off).toNat = ((s.segOf r).base.toNat % 2 ^ 32 + off.toNat) % 2 ^ 32 := by
  have hlin : s.lin r off = ((s.segOf r).base.setWidth 32 + off.setWidth 32).setWidth 64 := by
    unfold State.lin
    split
    · exact absurd ‹_› hm
    all_goals rfl
  simp only [hlin, BitVec.toNat_setWidth, BitVec.toNat_add]
  omega

/-- R37. -/
theorem lin_of_long64 (hm : s.mode = .long64) (r : SegReg) (off : Word) : s.lin r off = s.base64 r + off := by
  simp only [State.lin, hm]

/-- R37: in 64-bit mode only FS and GS have a base. -/
theorem base64_eq (s : State) (r : SegReg) :
    s.base64 r = if r = .fs ∨ r = .gs then (s.segOf r).base else 0 := by
  cases r <;> rfl

end

/-- The bits of a bit vector are all the same bit. -/
theorem forall_getLsbD_eq_iff {w : Nat} (x : BitVec w) (b : Bool) :
    (∀ j < w, x.getLsbD j = b) ↔ x = if b then BitVec.allOnes w else 0#w := by
  constructor
  · intro h
    apply BitVec.eq_of_getLsbD_eq
    intro j hj
    rw [h j hj]
    cases b <;> simp [hj]
  · rintro rfl j hj
    cases b <;> simp [hj]

/-- The bits of a word from bit `m` up, as a number. -/
theorem toNat_upperBits (a : Word) {m : Nat} (hm : m < 64) :
    (a.extractLsb' m (64 - m)).toNat = a.toNat / 2 ^ m := by
  have hpow : 2 ^ m * 2 ^ (64 - m) = 2 ^ 64 := by rw [← pow_add, Nat.add_sub_cancel' hm.le]
  rw [BitVec.extractLsb'_toNat, Nat.shiftRight_eq_div_pow,
    Nat.mod_eq_of_lt (Nat.div_lt_of_lt_mul (hpow ▸ a.isLt))]

/-- The bits of a word from bit `m` up are all equal exactly when the number they make is the least or the greatest. -/
theorem upperBits_eq_iff (a : Word) {m : Nat} (hm : m < 64) :
    (∀ k, m ≤ k → k < 64 → a.getLsbD k = a.getLsbD 63) ↔
      a.toNat / 2 ^ m = 0 ∨ a.toNat / 2 ^ m = 2 ^ (64 - m) - 1 := by
  have hbit : ∀ j < 64 - m, (a.extractLsb' m (64 - m)).getLsbD j = a.getLsbD (m + j) := fun j hj => by
    rw [BitVec.getLsbD_extractLsb', decide_eq_true hj, Bool.true_and]
  calc (∀ k, m ≤ k → k < 64 → a.getLsbD k = a.getLsbD 63)
      ↔ ∃ b, ∀ j < 64 - m, (a.extractLsb' m (64 - m)).getLsbD j = b := by
        constructor
        · exact fun h => ⟨a.getLsbD 63, fun j hj => (hbit j hj).trans (h (m + j) (by omega) (by omega))⟩
        · rintro ⟨b, h⟩
          have hb : ∀ k, m ≤ k → k < 64 → a.getLsbD k = b := fun k hk hk' => by
            rw [← h (k - m) (by omega), hbit (k - m) (by omega), Nat.add_sub_cancel' hk]
          exact fun k hk hk' => (hb k hk hk').trans (hb 63 (by omega) (by omega)).symm
    _ ↔ a.extractLsb' m (64 - m) = 0#(64 - m) ∨ a.extractLsb' m (64 - m) = BitVec.allOnes (64 - m) := by
        simp only [forall_getLsbD_eq_iff, Bool.exists_bool, Bool.false_eq_true, if_false, if_true]
    _ ↔ a.toNat / 2 ^ m = 0 ∨ a.toNat / 2 ^ m = 2 ^ (64 - m) - 1 := by
        rw [← BitVec.toNat_inj, ← BitVec.toNat_inj, toNat_upperBits a hm, BitVec.toNat_ofNat, Nat.zero_mod,
          BitVec.toNat_allOnes]

/-! ### Bytes without paging -/

/-- R33: where the linear addresses do not wrap they are consecutive. -/
theorem map_toNat_linBytes {a : Word} {n : Nat} (h : a.toNat + n ≤ 2 ^ 64) :
    (linBytes a n).map BitVec.toNat = List.range' a.toNat n := by
  induction n generalizing a with
  | zero => rfl
  | succ n ih =>
    rw [linBytes, List.map_cons, List.range'_succ]
    rcases Nat.eq_zero_or_pos n with rfl | hn
    · rfl
    · have hsucc : (a + 1).toNat = a.toNat + 1 := by rw [BitVec.toNat_add_of_lt] <;> simp; omega
      rw [ih (by omega), hsucc]

section
variable {s : State} (hflat : s.mode = .real ∨ s.cfg.translate = [])
include hflat

/-- R44: without paging a linear address is the physical address. -/
theorem translate_of_flat (a : Word) (k : AccessKind) : s.translate a k = .phys a.toNat := by
  rcases hflat with hm | ht
  · simp only [State.translate, hm]
  · simp only [State.translate, ht, translateIn]
    split <;> rfl

theorem physBytes_of_flat (r : SegReg) (off : Word) (n : Nat) (k : AccessKind) :
    s.physBytes r off n k = (linBytes (s.lin r off) n).map BitVec.toNat := by
  simp only [State.physBytes, translate_of_flat hflat, physOf_phys, List.filterMap_eq_map']

end

/-! ### The bytes of the instruction at `pc` -/

/-- The linear address of the first instruction byte (R36, R37, R50). -/
def State.codeLin (s : State) : Nat :=
  if s.mode = .long64 then s.ipOffset else (s.seg.cs.base.toNat % 2 ^ 32 + s.ipOffset) % 2 ^ 32

/-- The number of linear addresses (R36, R37). -/
def State.linSize (s : State) : Nat :=
  if s.mode = .long64 then 2 ^ 64 else 2 ^ 32

section
variable {s : State}

/-- R19: the width of the instruction pointer, and with it the offset of the instruction. -/
theorem ipOffset_of_long64 (hm : s.mode = .long64) : s.ipOffset = s.pc.toNat := by
  simp only [State.ipOffset, State.ipBits, hm]
  exact Nat.mod_eq_of_lt s.pc.isLt

theorem ipOffset_of_ne_long64 (hm : s.mode ≠ .long64) :
    s.ipOffset = s.pc.toNat % 2 ^ (if s.default16 = true then 16 else 32) := by
  unfold State.ipOffset State.ipBits
  split
  · exact absurd ‹_› hm
  all_goals rfl

/-- Instruction bytes whose linear address does not wrap are consecutive from the first. -/
theorem lin_cs_toNat {i : Nat} (h : s.codeLin + i < s.linSize) :
    (s.lin .cs (BitVec.ofNat 64 (s.ipOffset + i))).toNat = s.codeLin + i := by
  by_cases hm : s.mode = .long64
  · simp only [State.codeLin, State.linSize, if_pos hm] at *
    rw [lin_of_long64 hm, State.base64, zero_add, BitVec.toNat_ofNat, Nat.mod_eq_of_lt h]
  · simp only [State.codeLin, State.linSize, if_neg hm] at *
    rw [lin_toNat_of_ne_long64 hm, BitVec.toNat_ofNat]
    simp only [State.segOf]
    omega

/-- R50: without paging the instruction bytes from number `i` on are consecutive. -/
theorem codeAddrsFrom_of_flat (hflat : s.mode = .real ∨ s.cfg.translate = []) {k i : Nat}
    (hcode : ∀ j < k, s.codeOffsetOk (s.ipOffset + (i + j)) = true) (hlin : s.codeLin + (i + k) ≤ s.linSize) :
    s.codeAddrsFrom i k = List.range' (s.codeLin + i) k := by
  induction k generalizing i with
  | zero => rfl
  | succ k ih =>
    have hfirst : s.codeAddr i = some (s.codeLin + i) := by
      rw [State.codeAddr, if_pos (Nat.add_zero i ▸ hcode 0 (Nat.succ_pos k)), translate_of_flat hflat, physOf_phys,
        lin_cs_toNat (by omega)]
    have hrest := ih (i := i + 1) (fun j hj => by
      rw [Nat.add_right_comm, Nat.add_assoc i]; exact hcode (j + 1) (Nat.succ_lt_succ hj)) (by omega)
    simp only [State.codeAddrsFrom, hfirst, hrest, List.range'_succ, Nat.add_assoc]

end

/-! ### The statements about addresses and bytes -/

/-- Settles O49: the two cases of `State.lin` as numbers. -/
theorem linearAddressIsBasePlusOffset : Obligations.LinearAddressIsBasePlusOffset := by
  intro s r off
  refine ⟨fun hm => lin_toNat_of_ne_long64 hm r off, fun hm => ?_⟩
  rw [lin_of_long64 hm, BitVec.toNat_add, base64_eq]
  split <;> rfl

/-- Settles O48: `canonical` divides away the bits below `VA_BITS - 1`, and compares the rest with all zeros and all
ones. -/
theorem canonicalMeansUpperBitsEqual : Obligations.CanonicalMeansUpperBitsEqual := by
  intro v a
  cases v with
  | v48 => simp only [upperBits_eq_iff a (show 47 < 64 by decide), canonical, vaBitsOf, Bool.or_eq_true, beq_iff_eq]
  | v57 => simp only [upperBits_eq_iff a (show 56 < 64 by decide), canonical, vaBitsOf, Bool.or_eq_true, beq_iff_eq]

/-- Settles O20: each linear address is its physical address, and an admitted access does not wrap. -/
theorem withoutPagingAccessBytesAreConsecutive : Obligations.WithoutPagingAccessBytesAreConsecutive := by
  intro s A r off n k hok hflat
  have hwrap : (s.lin r off).toNat + n ≤ 2 ^ 64 := hok.noLinearWrap.trans (by split <;> decide)
  rw [physBytes_of_flat hflat, map_toNat_linBytes hwrap]

/-- Settles O13: `pc` is reduced to the width of the instruction pointer, and without paging each instruction byte stands
at the linear address after that of the byte before it. -/
theorem fetchReadsTheBytesAtCsPc : Obligations.FetchReadsTheBytesAtCsPc := by
  intro s
  refine ⟨ipOffset_of_long64, fun hm h16 => ?_, fun hm h16 => ?_, fun k hflat hcode hlin => ?_, rfl⟩
  · rw [ipOffset_of_ne_long64 hm, h16]; rfl
  · rw [ipOffset_of_ne_long64 hm, h16]; rfl
  · exact codeAddrsFrom_of_flat (i := 0) hflat (fun j hj => (Nat.zero_add j).symm ▸ hcode j hj)
      ((Nat.zero_add k).symm ▸ hlin)

/-! ### The bytes of an element move -/

/-- An instruction that moved an element was one whose move is admitted. -/
theorem moveOk_of_exec_next {i : Instr} {s t : State} (h : exec i s = .next t) (hm : MovesElement i s) :
    MoveOk i.size i.spelling (elementsOf i s) s := by
  obtain ⟨-, ⟨-, hmove, -⟩ | ⟨hr, hc, -⟩ | ⟨-, -, hmove, -⟩⟩ := exec_next h
  case inl => exact hmove
  case inr.inl => exact absurd hc (hm hr)
  case inr.inr => exact hmove

/-- Settles O19: the move is admitted, so both lists have a byte for each byte of the element, and reading back what was
stored at different addresses gives the stored bytes. -/
theorem elementMoveCopiesBytesInPlaceOrder : Obligations.ElementMoveCopiesBytesInPlaceOrder := by
  intro i s t hwf hm hx hnodup
  obtain rfl := exec_next_eq_after hx
  have hmove : MoveOk i.size i.spelling (elementsOf i s) s := moveOk_of_exec_next hx hm
  have hsrc : (s.srcBytes i.size i.spelling).length = i.size.bytes := physBytes_length hmove.srcOk
  have hdst : (s.dstBytes i.size i.spelling).length = i.size.bytes := physBytes_length hmove.dstOk
  have hcopy : Memory.readAll (s.after i).mem (s.dstBytes i.size i.spelling) =
      Memory.readAll s.mem (s.srcBytes i.size i.spelling) := by
    rw [after_of_movesElement hm]
    exact Memory.readAll_writeAll hwf hnodup ((Memory.readAll_length ..).trans (hsrc.trans hdst.symm))
  refine ⟨hsrc, hdst, fun j x y hj hk => ?_, fun a => read_after_of_notMem⟩
  have hbyte := congrArg (·[j]?) hcopy
  simpa only [Memory.readAll, List.getElem?_map, hj, hk, Option.map_some, Option.some.injEq] using hbyte

/-! ### What the checks of an access answer -/

section
variable {s : State} {A : AddrSize} {r : SegReg} {off : Word} {n : Nat} {k : AccessKind}

/-- R41: the checks refuse an access that no exception of the segment type stops, and that is past 2^32 in a 4-GByte
segment, or wraps and is within the limit or canonical. -/
theorem check_refused_iff :
    s.check A r off n k = .refused ↔
      s.typeFaults r k = [] ∧
        (s.wraps4G r off n = true ∨ (s.rangeFaults r off n = [] ∧ s.wraps A r off n = true)) := by
  constructor
  · intro h
    rw [State.check] at h
    split at h
    case isTrue h4 =>
      split at h
      case h_1 ht => exact ⟨ht, .inl h4⟩
      case h_2 => cases h
    case isFalse =>
      split at h
      case h_1 => cases h
      case h_2 hl =>
        obtain ⟨ht, hr⟩ := List.append_eq_nil_iff.1 hl
        rw [ht, newFaults_nil_left] at hr
        split at h
        case isTrue hw => exact ⟨ht, .inr ⟨hr, hw⟩⟩
        case isFalse => split at h <;> cases h
  · rintro ⟨ht, h⟩
    by_cases h4 : s.wraps4G r off n = true
    · simp only [State.check, h4, ht, if_true]
    · obtain ⟨hr, hw⟩ := h.resolve_left h4
      simp only [State.check, h4, ht, hr, hw, newFaults_nil_left, List.append_nil, if_true, Bool.false_eq_true, if_false]

/-- R41: an access wraps when it runs past the top of the offset space or of the linear address space. -/
theorem wraps_iff (hn : 0 < n) :
    s.wraps A r off n = true ↔ 2 ^ A.bits < off.toNat + n ∨ s.linSize < (s.lin r off).toNat + n := by
  rw [← Bool.not_eq_false, wraps_false_iff s A r off hn, not_and_or, not_le, not_le, State.linSize]

/-- The conditions of `Reaches`, as a conjunction. -/
theorem reaches_iff_and :
    Reaches s A r off n k ↔
      (∀ f, ¬ SegRaises s r off n k f) ∧ off.toNat + n ≤ 2 ^ A.bits ∧ (s.lin r off).toNat + n ≤ s.linSize :=
  ⟨fun h => ⟨h.noSegFault, h.noWrap, h.noLinearWrap⟩, fun ⟨hseg, hoff, hlin⟩ => ⟨hseg, hoff, hlin⟩⟩

/-- An admitted access raises nothing. -/
theorem AccessOk.not_accessRaises (h : AccessOk s A r off n k) (f : Fault) : ¬ AccessRaises s A r off n k f := by
  rintro (hseg | ⟨-, -, -, ⟨-, hen, hm, hl, hun⟩ | ⟨before, a, after, c, hlin, hpf, -⟩⟩)
  · exact h.reaches.noSegFault f hseg
  · exact hun (h.alignedOrUnchecked hen hm hl)
  · have htr := h.noPageFault a (hlin ▸ List.mem_append_right before List.mem_cons_self)
    rw [hpf] at htr
    cases htr

/-- An access that would raise, and not for a segment-level exception, does not wrap (R119 item 2). -/
theorem AccessRaises.wraps_eq_false {f : Fault} (h : AccessRaises s A r off n k f) (hn : 0 < n)
    (ht : s.typeFaults r k = []) (hr : s.rangeFaults r off n = []) : s.wraps A r off n = false := by
  obtain hseg | ⟨-, hoff, hlin, -⟩ := h
  · exact absurd hseg ((no_segRaises_iff ..).2 ⟨ht, hr⟩ f)
  · exact (wraps_false_iff s A r off hn).2 ⟨hoff, hlin⟩

/-- R42: an access that would raise is neither admitted nor, beside R41's second item, refused. -/
theorem check_of_accessRaises {f : Fault} (h : AccessRaises s A r off n k f) (hn : 0 < n)
    (h4 : ¬ s.wraps4G r off n = true) : ∃ g gs, s.check A r off n k = .raises g gs := by
  cases hc : s.check A r off n k with
  | raises g gs => exact ⟨g, gs, rfl⟩
  | ok ph => exact absurd h (((check_ok_iff s A r off hn k ph).1 hc).1.not_accessRaises f)
  | refused =>
    obtain ⟨ht, h4' | ⟨hr, hw⟩⟩ := check_refused_iff.1 hc
    · exact absurd h4' h4
    · rw [h.wraps_eq_false hn ht hr] at hw
      cases hw

/-- R41: the two kinds of access the checks refuse, past 2^32 in a 4-GByte segment of the right type, and past the top of
the offset space or of the linear address space. -/
theorem check_of_past (hn : 0 < n)
    (h : (s.typeFaults r k = [] ∧ s.wraps4G r off n = true) ∨
      ((∀ f, ¬ SegRaises s r off n k f) ∧
        (2 ^ A.bits < off.toNat + n ∨ s.linSize < (s.lin r off).toNat + n))) :
    s.check A r off n k = .refused := by
  obtain ⟨ht, h4⟩ | ⟨hseg, hpast⟩ := h
  · exact check_refused_iff.2 ⟨ht, .inl h4⟩
  · obtain ⟨ht, hr⟩ := (no_segRaises_iff ..).1 hseg
    exact check_refused_iff.2 ⟨ht, .inr ⟨hr, (wraps_iff hn).2 hpast⟩⟩

end

/-! ### What the element move answers, by its two accesses -/

/-- What the checks of the source read answer (R42, R92). -/
abbrev State.srcCheck (s : State) (z : OpSize) (p : Spelling) : Access :=
  s.check (addrSizeOf s.codeCtx p) (srcSegOf s.codeCtx p) (s.idxRsi (addrSizeOf s.codeCtx p)) z.bytes .read

/-- What the checks of the destination write answer (R42, R92). -/
abbrev State.dstCheck (s : State) (z : OpSize) (p : Spelling) : Access :=
  s.check (addrSizeOf s.codeCtx p) .es (s.idxRdi (addrSizeOf s.codeCtx p)) z.bytes .write

/-- The element move of an instruction with `c` elements still to move (R75, R92). -/
abbrev State.elementMove (s : State) (z : OpSize) (p : Spelling) (c : Nat) : Host.Outcome State Fault Refusal :=
  movsElement z (addrSizeOf s.codeCtx p) (srcSegOf s.codeCtx p) p.len c s

section
variable {z : OpSize} {p : Spelling} {c : Nat} {s : State}

theorem SrcOk.srcCheck_eq (h : SrcOk z p s) : s.srcCheck z p = .ok (s.srcBytes z p) :=
  (check_ok_iff s _ _ _ (OpSize_bytes_pos z) _ _).2 ⟨h, rfl⟩

theorem elementMove_of_not_launchOk (h : ¬ LaunchOk z p c s) : ∃ e, s.elementMove z p c = .refused e := by
  by_cases hd : ReachesDevice z p c s
  · exact ⟨_, (movsElement_of_not_launchOk z p c s).1 hd⟩
  · have ho : MeetsOwnBytes z p c s := by_contra fun ho => h ⟨hd, ho⟩
    exact ⟨_, (movsElement_of_not_launchOk z p c s).2 hd ho⟩

section
variable (hl : LaunchOk z p c s)
include hl

theorem elementMove_of_srcCheck_raises {f : Fault} {fs : List Fault} (h : s.srcCheck z p = .raises f fs) :
    ∃ g, s.elementMove z p c = .fault g := by
  unfold State.srcCheck at h
  rw [State.elementMove, movsElement_of_launchOk hl, h]
  exact ⟨_, rfl⟩

theorem elementMove_of_dstCheck_raises (hs : SrcOk z p s) {f : Fault} {fs : List Fault}
    (h : s.dstCheck z p = .raises f fs) : ∃ g, s.elementMove z p c = .fault g := by
  have hsrc := hs.srcCheck_eq
  unfold State.srcCheck at hsrc
  unfold State.dstCheck at h
  rw [State.elementMove, movsElement_of_launchOk hl, hsrc, h]
  exact ⟨_, rfl⟩

theorem elementMove_of_srcCheck_refused (h : s.srcCheck z p = .refused) :
    s.elementMove z p c = .refused .offsetWrap := by
  unfold State.srcCheck at h
  rw [State.elementMove, movsElement_of_launchOk hl, h]

theorem elementMove_of_dstCheck_refused (hs : SrcOk z p s) (h : s.dstCheck z p = .refused) :
    s.elementMove z p c = .refused .offsetWrap := by
  have hsrc := hs.srcCheck_eq
  unfold State.srcCheck at hsrc
  unfold State.dstCheck at h
  rw [State.elementMove, movsElement_of_launchOk hl, hsrc, h]

/-- Where the launch is not refused, only the checks of an access refuse, as R41 says. -/
theorem elementMove_refused {e : Refusal} (h : s.elementMove z p c = .refused e) :
    e = .offsetWrap ∧ (s.srcCheck z p = .refused ∨ s.dstCheck z p = .refused) := by
  rw [State.elementMove, movsElement_of_launchOk hl] at h
  split at h
  case h_1 hs => cases h; exact ⟨rfl, .inl hs⟩
  case h_2 => cases h
  case h_3 =>
    split at h
    case h_1 hd => cases h; exact ⟨rfl, .inr hd⟩
    case h_2 => cases h
    case h_3 => cases h

end

/-- A launch that R45 or R50 refuses is refused under another name than R41's. -/
theorem launchOk_of_elementMove_offsetWrap (h : s.elementMove z p c = .refused .offsetWrap) : LaunchOk z p c s := by
  have hd : ¬ ReachesDevice z p c s := fun hd =>
    absurd (h.symm.trans ((movsElement_of_not_launchOk z p c s).1 hd)) (by simp)
  exact ⟨hd, fun ho => absurd (h.symm.trans ((movsElement_of_not_launchOk z p c s).2 hd ho)) (by simp)⟩

end

/-! ### What a launched instruction answers -/

section
variable {i : Instr} {s : State} (hs : StartOk i.size i.spelling s) (hm : MovesElement i s)
include hs hm

theorem exec_of_elementMove_fault (h : ∃ g, s.elementMove i.size i.spelling (elementsOf i s) = .fault g) :
    ∃ g, exec i s = .fault g :=
  h.imp (exec_of_movsElement hs hm).1

theorem exec_of_elementMove_refused {e : Refusal}
    (h : s.elementMove i.size i.spelling (elementsOf i s) = .refused e) : exec i s = .refused e :=
  (exec_of_movsElement hs hm).2 e h

/-- R41: an element move that the checks of an access refuse is refused as R41 says, or as R45 and R50 say. -/
theorem exec_of_offsetWrap
    (h : LaunchOk i.size i.spelling (elementsOf i s) s →
      s.elementMove i.size i.spelling (elementsOf i s) = .refused .offsetWrap) :
    exec i s = .refused .offsetWrap ∨
      (¬ LaunchOk i.size i.spelling (elementsOf i s) s ∧ ∃ e, exec i s = .refused e) := by
  by_cases hl : LaunchOk i.size i.spelling (elementsOf i s) s
  · exact .inl (exec_of_elementMove_refused hs hm (h hl))
  · obtain ⟨e, he⟩ := elementMove_of_not_launchOk hl
    exact .inr ⟨hl, e, exec_of_elementMove_refused hs hm he⟩

/-- R45. -/
theorem exec_of_reachesDevice (h : ReachesDevice i.size i.spelling (elementsOf i s) s) :
    exec i s = .refused .deviceMemory :=
  exec_of_elementMove_refused hs hm ((movsElement_of_not_launchOk ..).1 h)

/-- R50. -/
theorem exec_of_meetsOwnBytes (hd : ¬ ReachesDevice i.size i.spelling (elementsOf i s) s)
    (h : MeetsOwnBytes i.size i.spelling (elementsOf i s) s) : exec i s = .refused .storeIntoCode :=
  exec_of_elementMove_refused hs hm ((movsElement_of_not_launchOk ..).2 hd h)

end

/-- The element that is moved next is among those the launch is refused for. -/
theorem reachesDevice_first {z : OpSize} {p : Spelling} {c : Nat} {s : State} (hc : 0 < c) (hs : SrcOk z p s)
    (hd : DstOk z p s) (h : s.onDevice (s.srcBytes z p) = true ∨ s.onDevice (s.dstBytes z p) = true) :
    ReachesDevice z p c s := by
  refine ⟨0, hc, h.imp (fun h => ?src) fun h => ?dst⟩
  case src => rw [srcIndex_zero]; exact ⟨hs.reaches, h⟩
  case dst => rw [dstIndex_zero]; exact ⟨hd.reaches, h⟩

theorem meetsOwnBytes_first {z : OpSize} {p : Spelling} {c : Nat} {s : State} (hc : 0 < c) (hd : DstOk z p s)
    (h : ∃ a ∈ s.dstBytes z p, a ∈ s.codeAddrs p.len) : MeetsOwnBytes z p c s := by
  refine ⟨0, hc, ?_⟩
  rw [dstIndex_zero]
  exact ⟨hd.reaches, h⟩

/-! ### The statements about a launched instruction -/

/-- Settles O34: the checks of the access answer exceptions, and the element move reports one. -/
theorem anAccessThatWouldRaiseDoesFault : Obligations.AnAccessThatWouldRaiseDoesFault := by
  intro i s hstart hm hl
  have hn := OpSize_bytes_pos i.size
  refine ⟨fun f hr h4 => ?src, fun f hs hr h4 => ?dst⟩
  case src =>
    obtain ⟨g, gs, hc⟩ := check_of_accessRaises hr hn h4
    exact exec_of_elementMove_fault hstart hm (elementMove_of_srcCheck_raises hl hc)
  case dst =>
    obtain ⟨g, gs, hc⟩ := check_of_accessRaises hr hn h4
    exact exec_of_elementMove_fault hstart hm (elementMove_of_dstCheck_raises hl hs hc)

/-- Settles O42: the checks refuse the access, and the element move answers that refusal unless the launch is refused
before it. -/
theorem wrappingAccessesAreRefused : Obligations.WrappingAccessesAreRefused := by
  intro i s hstart hm
  have hn := OpSize_bytes_pos i.size
  exact ⟨fun h => exec_of_offsetWrap hstart hm fun hl => elementMove_of_srcCheck_refused hl (check_of_past hn h),
    fun hs h => exec_of_offsetWrap hstart hm fun hl => elementMove_of_dstCheck_refused hl hs (check_of_past hn h)⟩

/-- Settles O43: the element move looks for devices before its accesses are checked. -/
theorem deviceMemoryIsRefused : Obligations.DeviceMemoryIsRefused :=
  fun _ _ => exec_of_reachesDevice

/-- Settles O44: the element that is moved next is one of the launch's. -/
theorem deviceMemoryAndOwnBytesAreRefused : Obligations.DeviceMemoryAndOwnBytesAreRefused := by
  intro i s hstart hm
  have hc := elementsOf_pos hm
  refine ⟨exec_of_meetsOwnBytes hstart hm, fun hs hd => ⟨fun h => ?device, fun h => ?own⟩⟩
  case device => exact exec_of_reachesDevice hstart hm (reachesDevice_first hc hs hd h)
  case own =>
    by_cases hdev : ReachesDevice i.size i.spelling (elementsOf i s) s
    · exact .inl (exec_of_reachesDevice hstart hm hdev)
    · exact .inr (exec_of_meetsOwnBytes hstart hm hdev (meetsOwnBytes_first hc hd h))

/-! ### The rest of a REP form's launch -/

section
variable {s t : State} (h : SameEnv s t)
include h

/-- Which bytes an access reaches depends on nothing an instruction writes. -/
theorem SameEnv.reaches_iff (A : AddrSize) (r : SegReg) (off : Word) (n : Nat) (k : AccessKind) :
    Reaches t A r off n k ↔ Reaches s A r off n k := by
  rw [reaches_iff_and, reaches_iff_and, h.eq_update]
  rfl

/-- R19: whether an instruction can start depends on `pc` and on nothing else an instruction writes. -/
theorem SameEnv.startOk {z : OpSize} {p : Spelling} (hpc : t.pc = s.pc) (hs : StartOk z p s) : StartOk z p t where
  noLock := hs.noLock
  quadIn64 := fun hz => h.mode.trans (hs.quadIn64 hz)
  nextInCode := by rw [h.codeOffsetOk_eq, h.ipOffset_eq hpc]; exact hs.nextInCode

end

section
variable (s : State) (z : OpSize) (p : Spelling)

/-- R102: the elements that follow an iteration are those after its own. -/
theorem State.iterated_srcIndex (j : Nat) : (s.iterated z p).srcIndex z p j = s.srcIndex z p (j + 1) := by
  have henv := sameEnv_iterated s z p
  have hidx : (s.iterated z p).idxRsi (addrSizeOf s.codeCtx p) = _ := s.moved_idxRsi z p
  rw [State.srcIndex, henv.codeCtx_eq, henv.df_eq, hidx, indexAfter_stepIndex]
  rfl

theorem State.iterated_dstIndex (j : Nat) : (s.iterated z p).dstIndex z p j = s.dstIndex z p (j + 1) := by
  have henv := sameEnv_iterated s z p
  have hidx : (s.iterated z p).idxRdi (addrSizeOf s.codeCtx p) = _ := s.moved_idxRdi z p
  rw [State.dstIndex, henv.codeCtx_eq, henv.df_eq, hidx, indexAfter_stepIndex]
  rfl

variable {s z p} {c : Nat}

/-- R45: a device that the rest of the launch reaches, the launch reaches. -/
theorem ReachesDevice.of_iterated (h : ReachesDevice z p c (s.iterated z p)) : ReachesDevice z p (c + 1) s := by
  have henv := sameEnv_iterated s z p
  obtain ⟨j, hj, h⟩ := h
  rw [s.iterated_srcIndex, s.iterated_dstIndex, henv.codeCtx_eq] at h
  simp only [henv.reaches_iff, henv.physBytes_eq, henv.onDevice_eq] at h
  exact ⟨j + 1, Nat.succ_lt_succ hj, h⟩

/-- R50: the instruction's own bytes are the same as long as `pc` is. -/
theorem MeetsOwnBytes.of_iterated (hpc : (s.iterated z p).pc = s.pc) (h : MeetsOwnBytes z p c (s.iterated z p)) :
    MeetsOwnBytes z p (c + 1) s := by
  have henv := sameEnv_iterated s z p
  obtain ⟨j, hj, h⟩ := h
  rw [s.iterated_dstIndex, henv.codeCtx_eq, henv.reaches_iff, henv.physBytes_eq, henv.codeAddrs_eq hpc] at h
  exact ⟨j + 1, Nat.succ_lt_succ hj, h⟩

theorem LaunchOk.iterated (hpc : (s.iterated z p).pc = s.pc) (h : LaunchOk z p (c + 1) s) :
    LaunchOk z p c (s.iterated z p) :=
  ⟨fun hd => h.noDevice hd.of_iterated, fun ho => h.notOwnBytes (ho.of_iterated hpc)⟩

end

/-- R98: a count that is not zero goes down by one as a number. -/
theorem lowBits_sub_one_toNat {A : AddrSize} {v : Word} (h : lowBits A v ≠ 0) :
    (lowBits A (lowBits A v - 1)).toNat + 1 = (lowBits A v).toNat := by
  have hlt : (lowBits A v).toNat < 2 ^ A.bits := by
    rw [lowBits_toNat]
    exact Nat.mod_lt _ (by positivity)
  have hsub : (lowBits A v - 1).toNat + 1 = (lowBits A v).toNat := by bv_omega
  rw [lowBits_toNat A (lowBits A v - 1), Nat.mod_eq_of_lt (by omega), hsub]

theorem State.iterated_idxRcx_toNat {s : State} {z : OpSize} {p : Spelling}
    (h : s.idxRcx (addrSizeOf s.codeCtx p) ≠ 0) :
    ((s.iterated z p).idxRcx (addrSizeOf s.codeCtx p)).toNat + 1 = (s.idxRcx (addrSizeOf s.codeCtx p)).toNat := by
  rw [State.iterated_idxRcx]
  exact lowBits_sub_one_toNat h

/-- R93: `pc` stays while there are elements to move. -/
theorem State.iterated_pc {s : State} {z : OpSize} {p : Spelling}
    (h : (s.iterated z p).idxRcx (addrSizeOf s.codeCtx p) ≠ 0) : (s.iterated z p).pc = s.pc := by
  refine if_neg fun h1 => h ?_
  rw [State.iterated_idxRcx, h1]
  cases addrSizeOf s.codeCtx p <;> rfl

/-- A REP form that answers a next state with elements left to move made an iteration. -/
theorem exec_next_of_count_left {i : Instr} {s t : State} (hr : i.isRep = true) (hx : exec i s = .next t)
    (hc : t.idxRcx (addrSizeOf s.codeCtx i.spelling) ≠ 0) :
    StartOk i.size i.spelling s ∧ MovesElement i s ∧ t = s.iterated i.size i.spelling := by
  obtain ⟨hs, ⟨hr', -, -⟩ | ⟨-, h0, rfl⟩ | ⟨-, h0, -, rfl⟩⟩ := exec_next hx
  · rw [hr] at hr'
    cases hr'
  · exact absurd h0 hc
  · exact ⟨hs, fun _ => h0, rfl⟩

/-- An instruction that can start is refused by its element move alone. -/
theorem elementMove_of_exec_refused {i : Instr} {s : State} {e : Refusal} (hs : StartOk i.size i.spelling s)
    (h : exec i s = .refused e) : s.elementMove i.size i.spelling (elementsOf i s) = .refused e := by
  obtain hb | ⟨-, hm⟩ := exec_refused h
  · rw [begin_of_startOk hs] at hb
    cases hb
  · exact hm

/-- Settles O45: the elements of the rest are those of the launch but for the first, and `pc` has stayed, so what would
refuse the rest would have refused the launch. -/
theorem repFormIsRefusedBeforeItsFirstIteration : Obligations.RepFormIsRefusedBeforeItsFirstIteration := by
  intro i s t hr hx hc
  rw [(sameEnv_of_exec_next hx).codeCtx_eq] at hc
  obtain ⟨hs, hm, rfl⟩ := exec_next_of_count_left hr hx hc
  have henv := sameEnv_iterated s i.size i.spelling
  have hpc : (s.iterated i.size i.spelling).pc = s.pc := State.iterated_pc hc
  have hcount : elementsOf i (s.iterated i.size i.spelling) + 1 = elementsOf i s := by
    rw [elementsOf_rep hr, elementsOf_rep hr, henv.codeCtx_eq, State.iterated_idxRcx_toNat (hm hr)]
  have hl : LaunchOk i.size i.spelling (elementsOf i (s.iterated i.size i.spelling)) (s.iterated i.size i.spelling) :=
    LaunchOk.iterated hpc (hcount ▸ (moveOk_of_exec_next hx hm).launchOk)
  refine ⟨hl, fun e he => ?_⟩
  exact (elementMove_refused hl (elementMove_of_exec_refused (henv.startOk hpc hs) he)).1

/-! ### Real-address and virtual-8086 mode -/

/-- R23: the segment registers of real-address and virtual-8086 mode have the limit 0xFFFF, and at most 0xFFFF0000 for
base, which CS has after reset (log entry 1). -/
structure SegState.RealBounds (d : SegState) : Prop where
  topBound : d.topBound = 0xFFFF
  base_le : d.base.toNat ≤ 0xFFFF0000

theorem topBound_of_realLimit {d : SegState} (h : d.realLimit = true) : d.topBound = 0xFFFF := by
  simp only [SegState.realLimit, Bool.and_eq_true, beq_iff_eq, Bool.not_eq_true'] at h
  obtain ⟨⟨⟨⟨hlimit, hup⟩, -⟩, -⟩, -⟩ := h
  simp [SegState.topBound, hup, hlimit]

theorem realBounds_of_realShape {d : SegState} (h : d.realShape = true) : d.RealBounds := by
  simp only [SegState.realShape, Bool.and_eq_true, beq_iff_eq, decide_eq_true_eq] at h
  obtain ⟨⟨hlimit, -⟩, hbase⟩ := h
  exact ⟨topBound_of_realLimit hlimit, by omega⟩

theorem realBounds_of_realCsShape {d : SegState} (h : d.realCsShape = true) : d.RealBounds := by
  simp only [SegState.realCsShape, Bool.or_eq_true, Bool.and_eq_true, beq_iff_eq] at h
  obtain hshape | ⟨hlimit, hbase⟩ := h
  · exact realBounds_of_realShape hshape
  · exact ⟨topBound_of_realLimit hlimit, by rw [hbase]; decide⟩

theorem realCsShape_of_realShape {d : SegState} (h : d.realShape = true) : d.realCsShape = true := by
  rw [SegState.realCsShape, h, Bool.true_or]

theorem realBounds_of_realSegs {s : State} (hm : s.mode = .real ∨ s.mode = .v86) (h : s.realSegs = true) (r : SegReg) :
    (s.segOf r).RealBounds := by
  have hshape : s.seg.cs.realCsShape = true ∧ s.seg.ss.realShape = true ∧ s.seg.ds.realShape = true ∧
      s.seg.es.realShape = true ∧ s.seg.fs.realShape = true ∧ s.seg.gs.realShape = true := by
    unfold State.realSegs at h
    rcases hm with hm | hm <;> simp only [hm, Bool.and_eq_true, and_assoc] at h
    · exact h
    · exact ⟨realCsShape_of_realShape h.1, h.2⟩
  obtain ⟨hcs, hss, hds, hes, hfs, hgs⟩ := hshape
  cases r with
  | cs => exact realBounds_of_realCsShape hcs
  | ss => exact realBounds_of_realShape hss
  | ds => exact realBounds_of_realShape hds
  | es => exact realBounds_of_realShape hes
  | fs => exact realBounds_of_realShape hfs
  | gs => exact realBounds_of_realShape hgs

theorem AddrSize_bits_ge (A : AddrSize) : 2 ^ 16 ≤ 2 ^ A.bits :=
  Nat.pow_le_pow_right (by decide) (by cases A <;> decide)

/-- R41, R23: an access within the limit 0xFFFF does not wrap, and one outside it is stopped by the limit. -/
theorem check_ne_refused_of_realBounds {s : State} {A : AddrSize} {r : SegReg} {off : Word} {n : Nat} {k : AccessKind}
    (hm : s.mode ≠ .long64) (hb : (s.segOf r).RealBounds) (hn : 0 < n) : s.check A r off n k ≠ .refused := by
  intro hc
  obtain ⟨-, h4 | ⟨hr, hw⟩⟩ := check_refused_iff.1 hc
  · simp [State.wraps4G, hb.topBound] at h4
  · have hlast := inLimit_last (((rangeFaults_nil_iff ..).1 hr).1 hm)
    have hbase := hb.base_le
    have hA := AddrSize_bits_ge A
    rw [hb.topBound] at hlast
    rw [wraps_iff hn, lin_toNat_of_ne_long64 hm, State.linSize, if_neg hm] at hw
    omega

/-- What refuses an instruction at its start has another name than R41's. -/
theorem begin_ne_offsetWrap {z : OpSize} {p : Spelling} {s : State} : begin z p s ≠ .refused .offsetWrap := by
  unfold begin
  split
  · simp
  · split
    · simp
    · split <;> simp

/-- Settles O46: a refusal of this name comes from the checks of the source read or of the destination write. -/
theorem noAccessWrapsInRealAndV86Mode : Obligations.NoAccessWrapsInRealAndV86Mode := by
  intro i s hm hsegs hx
  have hm64 : s.mode ≠ .long64 := by rcases hm with hm | hm <;> simp [hm]
  have hn := OpSize_bytes_pos i.size
  obtain hb | ⟨-, hmove⟩ := exec_refused hx
  · exact begin_ne_offsetWrap hb
  · obtain ⟨-, hc | hc⟩ := elementMove_refused (launchOk_of_elementMove_offsetWrap hmove) hmove
    · exact check_ne_refused_of_realBounds hm64 (realBounds_of_realSegs hm hsegs _) hn hc
    · exact check_ne_refused_of_realBounds hm64 (realBounds_of_realSegs hm hsegs _) hn hc

/-! ### Another translation in real-address mode -/

/-- The state with another list of translations. -/
def State.withTranslation (s : State) (l : List TransRange) : State :=
  { s with cfg := { s.cfg with translate := l } }

section
variable (s : State) (l : List TransRange)

theorem withTranslation_codeCtx : (s.withTranslation l).codeCtx = s.codeCtx := rfl
theorem withTranslation_idxRsi (A : AddrSize) : (s.withTranslation l).idxRsi A = s.idxRsi A := rfl
theorem withTranslation_idxRdi (A : AddrSize) : (s.withTranslation l).idxRdi A = s.idxRdi A := rfl
theorem withTranslation_idxRcx (A : AddrSize) : (s.withTranslation l).idxRcx A = s.idxRcx A := rfl
theorem withTranslation_chooseFault (f : Fault) (fs : List Fault) :
    (s.withTranslation l).chooseFault f fs = s.chooseFault f fs := rfl

end

section
variable {s : State} (hm : s.mode = .real) (l : List TransRange)
include hm

theorem translate_withTranslation (a : Word) (k : AccessKind) :
    (s.withTranslation l).translate a k = s.translate a k :=
  (translate_of_flat (s := s.withTranslation l) (.inl hm) a k).trans (translate_of_flat (.inl hm) a k).symm

theorem translateAll_withTranslation (k : AccessKind) (as : List Word) :
    (s.withTranslation l).translateAll k as = s.translateAll k as := by
  induction as with
  | nil => rfl
  | cons a as ih => simp only [State.translateAll, translate_withTranslation hm, ih]

theorem check_withTranslation (A : AddrSize) (r : SegReg) (off : Word) (n : Nat) (k : AccessKind) :
    (s.withTranslation l).check A r off n k = s.check A r off n k := by
  simp only [State.check, translateAll_withTranslation hm]
  rfl

theorem physBytes_withTranslation (r : SegReg) (off : Word) (n : Nat) (k : AccessKind) :
    (s.withTranslation l).physBytes r off n k = s.physBytes r off n k := by
  simp only [State.physBytes, translate_withTranslation hm]
  rfl

theorem codeAddrs_withTranslation (k : Nat) : (s.withTranslation l).codeAddrs k = s.codeAddrs k := by
  have haddr : ∀ i, (s.withTranslation l).codeAddr i = s.codeAddr i := fun i => by
    simp only [State.codeAddr, translate_withTranslation hm]
    rfl
  have hfrom : ∀ i, (s.withTranslation l).codeAddrsFrom i k = s.codeAddrsFrom i k := by
    induction k with
    | zero => exact fun _ => rfl
    | succ k ih => exact fun i => by rw [State.codeAddrsFrom, State.codeAddrsFrom, haddr, ih]
  exact hfrom 0

/-- R45: the launch reaches the same devices. -/
theorem reachesDevice_withTranslation (z : OpSize) (p : Spelling) (c : Nat) :
    ReachesDevice z p c (s.withTranslation l) ↔ ReachesDevice z p c s := by
  simp only [ReachesDevice, physBytes_withTranslation hm, reaches_iff_and]
  rfl

/-- R50: the launch stores to the same bytes of the instruction. -/
theorem meetsOwnBytes_withTranslation (z : OpSize) (p : Spelling) (c : Nat) :
    MeetsOwnBytes z p c (s.withTranslation l) ↔ MeetsOwnBytes z p c s := by
  simp only [MeetsOwnBytes, physBytes_withTranslation hm, codeAddrs_withTranslation hm, reaches_iff_and]
  rfl

/-- The element move stops alike: what refuses the launch, and what the two accesses answer, are the same. -/
theorem stopOf_elementMove_withTranslation (z : OpSize) (p : Spelling) (c : Nat) :
    stopOf ((s.withTranslation l).elementMove z p c) = stopOf (s.elementMove z p c) := by
  have hdev : (s.withTranslation l).blockOnDevice z (addrSizeOf s.codeCtx p) (srcSegOf s.codeCtx p) c =
      s.blockOnDevice z (addrSizeOf s.codeCtx p) (srcSegOf s.codeCtx p) c :=
    Bool.eq_iff_iff.2 ((blockOnDevice_iff (s.withTranslation l) z p c).trans
      ((reachesDevice_withTranslation hm l z p c).trans (blockOnDevice_iff s z p c).symm))
  have hown : (s.withTranslation l).blockOnOwnBytes z (addrSizeOf s.codeCtx p) c p.len =
      s.blockOnOwnBytes z (addrSizeOf s.codeCtx p) c p.len :=
    Bool.eq_iff_iff.2 ((blockOnOwnBytes_iff (s.withTranslation l) z p c).trans
      ((meetsOwnBytes_withTranslation hm l z p c).trans (blockOnOwnBytes_iff s z p c).symm))
  simp only [State.elementMove, movsElement, withTranslation_codeCtx, withTranslation_idxRsi, withTranslation_idxRdi,
    withTranslation_chooseFault, hdev, hown, check_withTranslation hm]
  split
  · rfl
  · split
    · rfl
    · split
      · rfl
      · rfl
      · split <;> rfl

theorem stopOf_exec_withTranslation (i : Instr) : stopOf (exec i (s.withTranslation l)) = stopOf (exec i s) := by
  have hbegin : begin i.size i.spelling (s.withTranslation l) = begin i.size i.spelling s := rfl
  have hmove := stopOf_elementMove_withTranslation hm l i.size i.spelling
  rw [exec_eq, exec_eq]
  split
  · rw [stopOf_repMovs, stopOf_repMovs, hbegin, withTranslation_codeCtx, withTranslation_idxRcx]
    exact congrArg _ (congrArg _ (hmove _))
  · rw [stopOf_movsOnce, stopOf_movsOnce, hbegin]
    exact congrArg _ (hmove 1)

theorem after_withTranslation (i : Instr) : (s.withTranslation l).after i = (s.after i).withTranslation l := by
  have hmoved : (s.withTranslation l).moved i.size i.spelling = (s.moved i.size i.spelling).withTranslation l := by
    simp only [State.moved, State.srcBytes, State.dstBytes, physBytes_withTranslation hm]
    rfl
  unfold State.after State.iterated
  rw [hmoved, withTranslation_codeCtx, withTranslation_idxRcx]
  split
  · split <;> rfl
  · rfl

end

/-- Settles O50: nothing an instruction asks of the translation depends on the list, so it stops alike, and where it
completes it leaves the list alone. -/
theorem realModeIgnoresTranslation : Obligations.RealModeIgnoresTranslation := by
  intro i s l hm
  have hstop := stopOf_exec_withTranslation hm l i
  cases hx : exec i s with
  | next t =>
    obtain ⟨u, hu⟩ := stopOf_eq_next_iff.1 (hstop.trans (stopOf_eq_next_iff.2 ⟨t, hx⟩))
    obtain rfl := exec_next_eq_after hx
    exact hu.trans (congrArg _ ((exec_next_eq_after hu).trans (after_withTranslation hm l i)))
  | fault f => exact stopOf_eq_fault_iff.1 (hstop.trans (stopOf_eq_fault_iff.2 hx))
  | refused e => exact stopOf_eq_refused_iff.1 (hstop.trans (stopOf_eq_refused_iff.2 hx))

end Sys2Proof.Machine
end

section
/-! PROOFS. The encoding, 30_encoding.md: the decoder and the encoder are inverse to each other (R53, R57, R69, R73), the
spellings that are refused (R57, R65), and what the prefixes make of an instruction (R58, R60, R62, R64, R66). -/

namespace Sys2Proof

/-! ### Prefixes of distinct groups -/

/-- R57: no group occurs twice among the prefixes. -/
theorem distinctGroups_iff_nodup (l : List LegacyPfx) : distinctGroups l = true ↔ (l.map LegacyPfx.group).Nodup := by
  induction l with
  | nil => simp [distinctGroups]
  | cons q l ih => simp [distinctGroups, ih]

/-- Among prefixes of distinct groups the next one is of a group not seen yet. -/
theorem group_not_seen {seen l : List LegacyPfx} {q : LegacyPfx} (h : distinctGroups (seen ++ q :: l) = true) :
    seen.any (fun r => r.group == q.group) = false := by
  rw [distinctGroups_iff_nodup, List.map_append, List.map_cons, List.nodup_append] at h
  obtain ⟨-, -, hne⟩ := h
  simpa using fun (r : LegacyPfx) hr => hne r.group (List.mem_map_of_mem hr) q.group List.mem_cons_self

theorem distinctGroups_snoc {seen : List LegacyPfx} {q : LegacyPfx} (hs : distinctGroups seen = true)
    (hq : seen.any (fun r => r.group == q.group) = false) : distinctGroups (seen ++ [q]) = true := by
  rw [distinctGroups_iff_nodup] at hs ⊢
  rw [List.map_append, List.map_singleton, ← List.concat_eq_append]
  exact hs.concat (by simpa using hq)

/-- There are five groups (R56, R57). -/
theorem length_le_of_distinctGroups {l : List LegacyPfx} (h : distinctGroups l = true) : l.length ≤ 5 := by
  have hsub : l.map LegacyPfx.group ⊆ [.gL, .g1, .g2, .g3, .g4] := fun g _ => by cases g <;> simp
  simpa using (List.subperm_of_subset ((distinctGroups_iff_nodup l).1 h) hsub).length_le

/-- R67: five legacy prefixes, a REX byte and the opcode byte at most. -/
theorem len_le_of_wf {c : CodeCtx} {p : Spelling} (h : p.wf c = true) : p.len ≤ 7 := by
  simp only [Spelling.wf, Bool.and_eq_true] at h
  have hl := length_le_of_distinctGroups h.1
  unfold Spelling.len
  split <;> omega

/-! ### Legacy prefixes and the REX byte are read -/

/-- The loop of R69 reads legacy prefixes of distinct groups to their end. -/
theorem decodeFrom_map_byte (c : CodeCtx) (seen l : List LegacyPfx) (rest : List Byte)
    (h : distinctGroups (seen ++ l) = true) :
    decodeFrom c seen (l.map LegacyPfx.byte ++ rest) = decodeFrom c (seen ++ l) rest := by
  induction l generalizing seen with
  | nil => simp
  | cons q l ih =>
    rw [List.map_cons, List.cons_append, decodeFrom_legacy c _ (group_not_seen h),
      ih (seen ++ [q]) (by simpa using h), List.append_assoc, List.singleton_append]

theorem decode_map_byte (c : CodeCtx) {l : List LegacyPfx} (rest : List Byte) (h : distinctGroups l = true) :
    decode c (l.map LegacyPfx.byte ++ rest) = decodeFrom c l rest :=
  decodeFrom_map_byte c [] l rest h

/-- R57: the loop stops at the first of the prefixes whose group it has seen. -/
theorem decodeFrom_of_clash (c : CodeCtx) {seen l : List LegacyPfx} (rest : List Byte)
    (hs : distinctGroups seen = true) (h : distinctGroups (seen ++ l) = false) :
    decodeFrom c seen (l.map LegacyPfx.byte ++ rest) = .badSpelling := by
  induction l generalizing seen with
  | nil => simp [hs] at h
  | cons q l ih =>
    rw [List.map_cons, List.cons_append]
    cases hq : seen.any (fun r => r.group == q.group) with
    | true => rw [decodeFrom, legacyOf_byte]; simp only [hq, if_true]
    | false =>
      rw [decodeFrom_legacy c _ hq]
      exact ih (distinctGroups_snoc hs hq) (by simpa using h)

/-- R57: a REX byte that is not the last of the prefixes, for the byte after it is one too. -/
theorem decodeTail_rex_badSpelling {c : CodeCtx} (seen : List LegacyPfx) (w : BitVec 4) {b : Byte} (rest : List Byte)
    (hm : c.mode = .long64) (hb : (legacyOf b).isSome = true ∨ isRex b = true) :
    decodeTail c seen (rexByte w) (b :: rest) = .badSpelling := by
  unfold decodeTail
  rw [if_pos ⟨hm, isRex_rexByte w⟩]
  exact if_pos hb

/-- R69: the prefixes of an admitted spelling are read back, whatever byte that is none itself follows them. -/
theorem decode_spelling {c : CodeCtx} {p : Spelling} {b : Byte} (rest : List Byte) (hp : p.wf c = true)
    (hl : legacyOf b = none) (hr : isRex b = false) : decode c (p.encode ++ b :: rest) = decodeOpcode c p b := by
  obtain ⟨l, rex⟩ := p
  simp only [Spelling.wf, Bool.and_eq_true] at hp
  obtain ⟨hd, hrex⟩ := hp
  rw [Spelling.encode, List.append_assoc, decode_map_byte c _ hd]
  cases rex with
  | none =>
    rw [List.nil_append, decodeFrom_other c l rest hl, decodeTail_opcode c l rest (by simp [hr])]
  | some w =>
    rw [List.singleton_append, decodeFrom_other c l _ (legacyOf_rexByte w),
      decodeTail_rex l w rest (by simpa using hrex) hl hr]

/-! ### The element size, R62 -/

section
variable {c : CodeCtx} (p : Spelling)

theorem opSizeA5_of_long64 (hm : c.mode = .long64) :
    opSizeA5 c p = if p.rexW then .qword else if p.has .opSize then .word else .dword := by
  simp only [opSizeA5, hm]

theorem opSizeA5_of_ne_long64 (hm : c.mode ≠ .long64) :
    opSizeA5 c p = if c.default16 != p.has .opSize then .word else .dword := by
  unfold opSizeA5
  split
  · exact absurd ‹_› hm
  all_goals rfl

theorem opSizeA5_ne_byte : opSizeA5 c p ≠ .byte := by
  by_cases hm : c.mode = .long64
  · rw [opSizeA5_of_long64 p hm]
    split
    · simp
    · split <;> simp
  · rw [opSizeA5_of_ne_long64 p hm]
    split <;> simp

/-- R66. -/
theorem opSizeA5_ne_qword (hm : c.mode ≠ .long64) : opSizeA5 c p ≠ .qword := by
  rw [opSizeA5_of_ne_long64 p hm]
  split <;> simp

end

/-! ### The opcode byte -/

theorem legacyOf_opcode {b : Byte} (h : b = opcodeA4 ∨ b = opcodeA5) : legacyOf b = none := by
  rcases h with rfl | rfl <;> simp

theorem isRex_opcode {b : Byte} (h : b = opcodeA4 ∨ b = opcodeA5) : isRex b = false := by
  rcases h with rfl | rfl <;> simp

theorem Instr.opcode_of_byte {i : Instr} (h : i.size = .byte) : i.opcode = opcodeA4 := by
  simp only [Instr.opcode, h]

theorem Instr.opcode_of_ne_byte {i : Instr} (h : i.size ≠ .byte) : i.opcode = opcodeA5 := by
  unfold Instr.opcode
  split
  · exact absurd ‹_› h
  all_goals rfl

theorem Instr.opcode_cases (i : Instr) : i.opcode = opcodeA4 ∨ i.opcode = opcodeA5 :=
  (em (i.size = .byte)).imp Instr.opcode_of_byte Instr.opcode_of_ne_byte

/-- The size that an opcode byte and the prefixes before it select, R62. -/
def opcodeSize (c : CodeCtx) (p : Spelling) (b : Byte) : OpSize :=
  if b = opcodeA4 then .byte else opSizeA5 c p

theorem opcodeSize_opcodeA4 (c : CodeCtx) (p : Spelling) : opcodeSize c p opcodeA4 = .byte := if_pos rfl

theorem opcodeSize_opcodeA5 (c : CodeCtx) (p : Spelling) : opcodeSize c p opcodeA5 = opSizeA5 c p := if_neg (by decide)

theorem Instr.sizeOk_iff (c : CodeCtx) (i : Instr) :
    i.sizeOk c = true ↔ i.size = .byte ∨ i.size = opSizeA5 c i.spelling := by
  simp only [Instr.sizeOk, Bool.or_eq_true, beq_iff_eq]

/-- R62: the opcode byte of a row selects the row's size, where the row is of a size its bytes have. -/
theorem opcodeSize_opcode {c : CodeCtx} {i : Instr} (h : i.sizeOk c = true) :
    opcodeSize c i.spelling i.opcode = i.size := by
  by_cases hz : i.size = .byte
  · rw [Instr.opcode_of_byte hz, opcodeSize_opcodeA4, hz]
  · rw [Instr.opcode_of_ne_byte hz, opcodeSize_opcodeA5]
    exact (((Instr.sizeOk_iff c i).1 h).resolve_left hz).symm

/-- R65: opcode bytes after an admitted spelling are refused for 0xF2 without LOCK. -/
theorem decodeOpcode_of_repne {c : CodeCtx} {p : Spelling} {b : Byte} (hb : b = opcodeA4 ∨ b = opcodeA5)
    (hn : p.has .repne = true) (hl : p.has .lock = false) : decodeOpcode c p b = .repne := by
  rw [decodeOpcode, if_pos hb, if_pos (by simp [hn, hl])]

/-- R69, R73: otherwise they are the row of their size and prefixes. -/
theorem decodeOpcode_of_row {c : CodeCtx} {p : Spelling} {b : Byte} (hb : b = opcodeA4 ∨ b = opcodeA5)
    (hn : p.has .repne = false ∨ p.has .lock = true) :
    decodeOpcode c p b = .insn (rowOf (opcodeSize c p b) (p.has .rep) p) := by
  have hrepne : ¬ (p.has .repne = true ∧ ¬ p.has .lock = true) := by rcases hn with hn | hn <;> simp [hn]
  rw [decodeOpcode, if_pos hb, if_neg hrepne, opcodeSize]

theorem decode_row {c : CodeCtx} {p : Spelling} {b : Byte} (rest : List Byte) (hp : p.wf c = true)
    (hb : b = opcodeA4 ∨ b = opcodeA5) (hn : p.has .repne = false ∨ p.has .lock = true) :
    decode c (p.encode ++ b :: rest) = .insn (rowOf (opcodeSize c p b) (p.has .rep) p) :=
  (decode_spelling rest hp (legacyOf_opcode hb) (isRex_opcode hb)).trans (decodeOpcode_of_row hb hn)

/-! ### Decoding what was encoded -/

theorem Instr.wf_iff (c : CodeCtx) (i : Instr) :
    i.wf c = true ↔ i.spelling.wf c = true ∧ i.sizeOk c = true ∧ i.isRep = i.spelling.has .rep ∧
      (i.spelling.has .repne = false ∨ i.spelling.has .lock = true) := by
  simp [Instr.wf, Instr.repOk, and_assoc]

/-- R66: a well-formed instruction outside 64-bit mode is no quadword form. -/
theorem size_ne_qword_of_wf {c : CodeCtx} {i : Instr} (hm : c.mode ≠ .long64) (h : i.wf c = true) : i.size ≠ .qword := by
  obtain ⟨-, hz, -⟩ := (Instr.wf_iff c i).1 h
  rcases (Instr.sizeOk_iff c i).1 hz with hb | ha
  · simp [hb]
  · exact ha ▸ opSizeA5_ne_qword i.spelling hm

/-- R53, R69. -/
theorem decode_encode {c : CodeCtx} {i : Instr} (rest : List Byte) (h : i.wf c = true) :
    decode c (encode i ++ rest) = .insn i.noOperands := by
  obtain ⟨hp, hz, hrep, hn⟩ := (Instr.wf_iff c i).1 h
  rw [encode, List.append_assoc, List.singleton_append, decode_row rest hp i.opcode_cases hn,
    opcodeSize_opcode hz, ← hrep, rowOf_eq_noOperands]

/-! ### Encoding what was decoded -/

/-- R69, the end: what was read and what is read now are an admitted spelling and the opcode byte. -/
theorem decodeTail_insn {c : CodeCtx} {seen : List LegacyPfx} {b : Byte} {rest : List Byte} {i : Instr}
    (hs : distinctGroups seen = true) (h : decodeTail c seen b rest = .insn i) :
    ∃ p op after, p.wf c = true ∧ decodeOpcode c p op = .insn i ∧
      seen.map LegacyPfx.byte ++ b :: rest = p.encode ++ op :: after := by
  by_cases hx : c.mode = .long64 ∧ isRex b = true
  · unfold decodeTail at h
    rw [if_pos hx] at h
    obtain ⟨hm, hb⟩ := hx
    cases rest with
    | nil => simp at h
    | cons op after =>
      simp only at h
      split at h
      · cases h
      · exact ⟨_, op, after, by simp [Spelling.wf, hs, hm], h, by simp [Spelling.encode, rexByte_of_isRex hb]⟩
  · rw [decodeTail_opcode c seen rest hx] at h
    exact ⟨_, b, rest, by simp [Spelling.wf, hs], h, by simp [Spelling.encode]⟩

/-- R69, the loop: what was read, and the bytes that it reads, are an admitted spelling and the opcode byte. -/
theorem decodeFrom_insn {c : CodeCtx} {seen : List LegacyPfx} {bytes : List Byte} {i : Instr}
    (hs : distinctGroups seen = true) (h : decodeFrom c seen bytes = .insn i) :
    ∃ p op after, p.wf c = true ∧ decodeOpcode c p op = .insn i ∧
      seen.map LegacyPfx.byte ++ bytes = p.encode ++ op :: after := by
  induction bytes generalizing seen with
  | nil => cases h
  | cons b rest ih =>
    cases hb : legacyOf b with
    | none =>
      rw [decodeFrom_other c seen rest hb] at h
      exact decodeTail_insn hs h
    | some q =>
      obtain rfl := byte_of_legacyOf hb
      cases hq : seen.any (fun r => r.group == q.group) with
      | true => simp [decodeFrom, hq] at h
      | false =>
        rw [decodeFrom_legacy c rest hq] at h
        simpa using ih (distinctGroups_snoc hs hq) h

/-- R62: the row that an opcode byte selects has that opcode byte. -/
theorem opcode_rowOf_opcodeSize (c : CodeCtx) {p : Spelling} {b : Byte} (rep : Bool)
    (hb : b = opcodeA4 ∨ b = opcodeA5) :
    (rowOf (opcodeSize c p b) rep p).opcode = b := by
  rcases hb with rfl | rfl
  · exact Instr.opcode_of_byte ((rowOf_size ..).trans (opcodeSize_opcodeA4 c p))
  · have hne : (rowOf (opcodeSize c p opcodeA5) rep p).size ≠ .byte := by
      rw [rowOf_size, opcodeSize_opcodeA5]
      exact opSizeA5_ne_byte p
    exact Instr.opcode_of_ne_byte hne

theorem sizeOk_rowOf_opcodeSize (c : CodeCtx) (p : Spelling) {b : Byte} (rep : Bool)
    (hb : b = opcodeA4 ∨ b = opcodeA5) :
    (rowOf (opcodeSize c p b) rep p).sizeOk c = true := by
  rw [Instr.sizeOk_iff, rowOf_size, rowOf_spelling]
  rcases hb with rfl | rfl
  · exact .inl (opcodeSize_opcodeA4 c p)
  · exact .inr (opcodeSize_opcodeA5 c p)

theorem noOperands_rowOf (z : OpSize) (rep : Bool) (p : Spelling) : (rowOf z rep p).noOperands = rowOf z rep p := by
  rw [← rowOf_eq_noOperands, rowOf_size, rowOf_isRep, rowOf_spelling]

/-- What the opcode byte completes to an instruction is a well-formed no-operands form with these bytes. -/
theorem wf_of_decodeOpcode {c : CodeCtx} {p : Spelling} {op : Byte} {i : Instr} (hp : p.wf c = true)
    (h : decodeOpcode c p op = .insn i) : i.wf c = true ∧ i.noOperands = i ∧ encode i = p.encode ++ [op] := by
  obtain ⟨hb, hn, hi⟩ := decodeOpcode_insn h
  obtain rfl : i = rowOf (opcodeSize c p op) (p.has .rep) p := hi
  refine ⟨(Instr.wf_iff c _).2 ⟨?_, sizeOk_rowOf_opcodeSize c p _ hb, ?_, ?_⟩, noOperands_rowOf .., ?_⟩
  · rwa [rowOf_spelling]
  · rw [rowOf_isRep, rowOf_spelling]
  · rw [rowOf_spelling, or_iff_not_imp_left, Bool.not_eq_false]
    exact hn
  · rw [encode, rowOf_spelling, opcode_rowOf_opcodeSize c _ hb]

/-- R57, R69: what decodes to an instruction is the encoding of a well-formed no-operands form. -/
theorem decode_insn {c : CodeCtx} {bytes : List Byte} {i : Instr} (h : decode c bytes = .insn i) :
    i.wf c = true ∧ i.noOperands = i ∧ ∃ rest, bytes = encode i ++ rest := by
  obtain ⟨p, op, after, hp, hop, hbytes⟩ := decodeFrom_insn rfl h
  obtain ⟨hwf, hno, henc⟩ := wf_of_decodeOpcode hp hop
  exact ⟨hwf, hno, after, by simpa [henc] using hbytes⟩

/-! ### Prefixes among the bytes -/

theorem LegacyPfx.byte_injective {q r : LegacyPfx} (h : q.byte = r.byte) : q = r := by
  have hq := legacyOf_byte q
  rw [h, legacyOf_byte] at hq
  exact (Option.some.inj hq).symm

theorem LegacyPfx.byte_ne_of_legacyOf_none {b : Byte} (q : LegacyPfx) (h : legacyOf b = none) : q.byte ≠ b := by
  rintro rfl
  simp at h

/-- A byte of R56 is among the bytes of an instruction only for one of its prefixes: no REX or opcode byte is one. -/
theorem byte_mem_encode_iff (q : LegacyPfx) (i : Instr) : q.byte ∈ encode i ↔ i.spelling.has q = true := by
  have hop : q.byte ≠ i.opcode := q.byte_ne_of_legacyOf_none (legacyOf_opcode i.opcode_cases)
  have hleg : q.byte ∈ i.spelling.legacy.map LegacyPfx.byte ↔ i.spelling.has q = true := by
    rw [Spelling.has, List.contains_iff_mem, List.mem_map]
    exact ⟨fun ⟨_, hr, he⟩ => LegacyPfx.byte_injective he ▸ hr, fun hq => ⟨q, hq, rfl⟩⟩
  unfold encode Spelling.encode
  cases i.spelling.rex with
  | none => simp only [List.mem_append, List.mem_singleton, List.not_mem_nil, hleg, hop, or_false]
  | some w =>
    have hrex : q.byte ≠ rexByte w := q.byte_ne_of_legacyOf_none (legacyOf_rexByte w)
    simp only [List.mem_append, List.mem_singleton, hleg, hop, hrex, or_false]

/-! ### The address size, R58 -/

section
variable {c : CodeCtx} (p : Spelling)

theorem addrSizeOf_of_long64 (hm : c.mode = .long64) :
    addrSizeOf c p = if p.has .addrSize then .a32 else .a64 := by
  simp only [addrSizeOf, hm]

theorem addrSizeOf_of_ne_long64 (hm : c.mode ≠ .long64) :
    addrSizeOf c p = if c.default16 != p.has .addrSize then .a16 else .a32 := by
  unfold addrSizeOf
  split
  · exact absurd ‹_› hm
  all_goals rfl

end

/-! ### The source segment, R60 -/

/-- Prefixes that are no override are passed over. -/
theorem segOverride_append {before : List LegacyPfx} (l : List LegacyPfx) (h : ∀ q, LegacyPfx.seg q ∉ before) :
    segOverride (before ++ l) = segOverride l := by
  induction before with
  | nil => rfl
  | cons x before ih =>
    have hrest := ih fun q hq => h q (List.mem_cons_of_mem x hq)
    cases x with
    | seg r => exact absurd List.mem_cons_self (h r)
    | lock => exact hrest
    | rep => exact hrest
    | repne => exact hrest
    | opSize => exact hrest
    | addrSize => exact hrest

theorem segOverride_of_no_seg {l : List LegacyPfx} (h : ∀ q, LegacyPfx.seg q ∉ l) : segOverride l = none := by
  simpa [segOverride] using segOverride_append [] h

theorem segOverride_first {before : List LegacyPfx} (r : SegReg) (after : List LegacyPfx)
    (h : ∀ q, LegacyPfx.seg q ∉ before) : segOverride (before ++ .seg r :: after) = some r :=
  segOverride_append _ h

section
variable {c : CodeCtx} {p : Spelling}

theorem srcSegOf_of_no_override (h : segOverride p.legacy = none) : srcSegOf c p = .ds := by
  simp only [srcSegOf, h]

variable {r : SegReg} (h : segOverride p.legacy = some r)
include h

theorem srcSegOf_of_ne_long64 (hm : c.mode ≠ .long64) : srcSegOf c p = r := by
  simp only [srcSegOf, h]
  split
  case h_5 => exact absurd ‹_› hm
  all_goals rfl

theorem srcSegOf_of_long64 (hm : c.mode = .long64) :
    srcSegOf c p = if r = .fs ∨ r = .gs ∨ (r = .ss ∧ c.ssHonoured = true) then r else .ds := by
  simp only [srcSegOf, h, hm]
  cases r <;> simp

end

/-! ### REX bytes, R59, and a spelling of each row, R66, R73 -/

theorem isRex_of_bounds {b : Byte} (hlo : 0x40 ≤ b.toNat) (hhi : b.toNat ≤ 0x4F) : isRex b = true := by
  revert b; decide

theorem legacyOf_of_isRex {b : Byte} (h : isRex b = true) : legacyOf b = none := by
  rw [← rexByte_of_isRex h, legacyOf_rexByte]

/-- R66: outside 64-bit mode a REX byte is an opcode byte of no instruction of the family. -/
theorem decode_rex_of_ne_long64 {c : CodeCtx} {b : Byte} (rest : List Byte) (hm : c.mode ≠ .long64)
    (hb : isRex b = true) : decode c (b :: rest) = .notInScope := by
  have hop : ¬ (b = opcodeA4 ∨ b = opcodeA5) := fun h => by simp [isRex_opcode h] at hb
  rw [decode, decodeFrom_other c [] rest (legacyOf_of_isRex hb), decodeTail_opcode c [] rest (fun h => hm h.1),
    decodeOpcode, if_neg hop]

/-- Whether 0x66 is needed for a size, R62. -/
def needsOpSize (c : CodeCtx) : OpSize → Bool
  | .byte => false
  | .word => c.mode == .long64 || !c.default16
  | .dword => c.mode != .long64 && c.default16
  | .qword => false

/-- The prefixes that spell the row of a size, with REP or without, R62, R64. -/
def spellingFor (c : CodeCtx) (z : OpSize) (rep : Bool) : Spelling :=
  ⟨(if rep then [.rep] else []) ++ (if needsOpSize c z then [.opSize] else []), if z = .qword then some 0x8 else none⟩

section
variable (c : CodeCtx) (z : OpSize) (rep : Bool)

theorem has_opSize_spellingFor : (spellingFor c z rep).has .opSize = needsOpSize c z := by
  cases rep <;> cases h : needsOpSize c z <;> simp [spellingFor, Spelling.has, h]

theorem has_rep_spellingFor : (spellingFor c z rep).has .rep = rep := by
  cases rep <;> cases h : needsOpSize c z <;> simp [spellingFor, Spelling.has, h]

theorem has_repne_spellingFor : (spellingFor c z rep).has .repne = false := by
  cases rep <;> cases h : needsOpSize c z <;> simp [spellingFor, Spelling.has, h]

theorem rexW_spellingFor : (spellingFor c z rep).rexW = decide (z = .qword) := by
  cases z <;> rfl

theorem distinctGroups_spellingFor : distinctGroups (spellingFor c z rep).legacy = true := by
  cases rep <;> cases h : needsOpSize c z <;> simp [spellingFor, h, distinctGroups, LegacyPfx.group]

end

section
variable {c : CodeCtx} {z : OpSize} (h : z ≠ .qword ∨ c.mode = .long64) (rep : Bool)
include h

theorem wf_spellingFor : (spellingFor c z rep).wf c = true := by
  rw [Spelling.wf, distinctGroups_spellingFor, Bool.true_and]
  rcases h with hz | hm
  · simp [spellingFor, hz]
  · simp [hm]

theorem opSizeA5_spellingFor (hz : z ≠ .byte) : opSizeA5 c (spellingFor c z rep) = z := by
  by_cases hm : c.mode = .long64
  · rw [opSizeA5_of_long64 _ hm, rexW_spellingFor, has_opSize_spellingFor]
    cases z with
    | byte => exact absurd rfl hz
    | word => simp [needsOpSize, hm]
    | dword => simp [needsOpSize, hm]
    | qword => rfl
  · rw [opSizeA5_of_ne_long64 _ hm, has_opSize_spellingFor]
    cases z with
    | byte => exact absurd rfl hz
    | word => simp [needsOpSize, hm]
    | dword => simp [needsOpSize, hm]
    | qword => exact absurd (h.resolve_left (· rfl)) hm

/-- R66, R73: every row exists in every mode, but for the quadword rows in 64-bit mode only. -/
theorem wf_rowOf_spellingFor : (rowOf z rep (spellingFor c z rep)).wf c = true := by
  have hsize : (rowOf z rep (spellingFor c z rep)).sizeOk c = true := by
    rw [Instr.sizeOk_iff, rowOf_size, rowOf_spelling, or_iff_not_imp_left]
    exact fun hz => (opSizeA5_spellingFor h rep hz).symm
  rw [Instr.wf_iff, rowOf_spelling, rowOf_isRep, has_rep_spellingFor, has_repne_spellingFor]
  exact ⟨wf_spellingFor h rep, hsize, rfl, .inl rfl⟩

end

/-! ### The statements about the decoder -/

/-- Settles O1: the prefixes are read back one by one, and the opcode byte gives the row its size. -/
theorem decodeOfEncodeIsTheInstruction : Obligations.DecodeOfEncodeIsTheInstruction :=
  fun _ _ rest h => decode_encode rest h

/-- Settles O2: what the loop has read and the bytes left are, at its end, the encoding of what it answers; there are
five groups of prefixes. -/
theorem decodedBytesAreAnEncoding : Obligations.DecodedBytesAreAnEncoding := by
  intro c bytes i h
  obtain ⟨hwf, hno, hrest⟩ := decode_insn h
  obtain ⟨hp, -⟩ := (Instr.wf_iff c i).1 hwf
  exact ⟨hwf, hno, (encode_length i).trans_le (len_le_of_wf hp), encode_length i, hrest⟩

/-- Settles O3: the loop stops at the second of two prefixes of one group, and after a REX byte the next byte is
looked at. -/
theorem badSpellingsAreRefused : Obligations.BadSpellingsAreRefused := by
  refine ⟨fun c l rest h => decodeFrom_of_clash c rest rfl h, fun c l w b rest hl hm hb => ?_⟩
  rw [decode_map_byte c _ hl, decodeFrom_other c l _ (legacyOf_rexByte w)]
  exact decodeTail_rex_badSpelling l w rest hm hb

/-- Settles O4: the prefixes are read back, and the opcode byte decides by 0xF2 and LOCK. -/
theorem repneIsRefusedUnlessLocked : Obligations.RepneIsRefusedUnlessLocked := by
  intro c p op rest hp hn hop
  refine ⟨fun hl => ?_, fun hl => ⟨_, decode_row rest hp hop (.inr hl), rowOf_spelling ..⟩⟩
  rw [decode_spelling rest hp (legacyOf_opcode hop) (isRex_opcode hop)]
  exact decodeOpcode_of_repne hop hn hl

/-- Settles O5: what decodes is well-formed, a REX byte is no opcode byte, and each other row has a spelling. -/
theorem noQuadwordMoveOutside64BitMode : Obligations.NoQuadwordMoveOutside64BitMode := by
  refine fun c => ⟨fun hm => ⟨fun bytes i h => ?_, fun b rest hlo hhi => ?_⟩, fun z rep hz => ?_⟩
  · exact size_ne_qword_of_wf hm (decode_insn h).1
  · exact decode_rex_of_ne_long64 rest hm (isRex_of_bounds hlo hhi)
  · have h := decode_encode [] (wf_rowOf_spellingFor hz rep)
    rw [noOperands_rowOf] at h
    exact ⟨_, _, h⟩

/-- Settles O10: the prefixes are read back, and the opcode byte gives the row of its size (R62). -/
theorem elementSizeFollowsOpcodeAndPrefixes : Obligations.ElementSizeFollowsOpcodeAndPrefixes := by
  intro c p op rest hp hop hn
  refine ⟨_, decode_row rest hp hop hn, rowOf_spelling .., ?_⟩
  rw [rowOf_size]
  refine ⟨?byteMove, ?in64, ?default32, ?default16⟩
  case byteMove => rintro rfl; exact opcodeSize_opcodeA4 c p
  case in64 => rintro rfl hm; exact (opcodeSize_opcodeA5 c p).trans (opSizeA5_of_long64 p hm)
  case default32 =>
    rintro rfl hm hd
    exact (opcodeSize_opcodeA5 c p).trans (by simp [opSizeA5_of_ne_long64 p hm, hd])
  case default16 =>
    rintro rfl hm hd
    exact (opcodeSize_opcodeA5 c p).trans (by cases h : p.has .opSize <;> simp [opSizeA5_of_ne_long64 p hm, hd, h])

/-- Settles O11: the first override among the prefixes is the one that counts. -/
theorem sourceSegmentFollowsOverride : Obligations.SourceSegmentFollowsOverride := by
  intro c p before after r
  refine ⟨fun h => srcSegOf_of_no_override (segOverride_of_no_seg h), fun hp hb => ?_⟩
  have hr : segOverride p.legacy = some r := hp ▸ segOverride_first r after hb
  exact ⟨srcSegOf_of_ne_long64 hr, srcSegOf_of_long64 hr⟩

/-- Settles O9: one equation for 64-bit mode and one for the other modes. -/
theorem addressSizeFollowsModeAndPrefix : Obligations.AddressSizeFollowsModeAndPrefix := by
  refine fun c p => ⟨fun hm ha => ?_, fun hm ha => ?_, fun hm hd ha => ?_, fun hm hd ha => ?_, fun hm hd ha => ?_,
    fun hm hd ha => ?_⟩
  · simp [addrSizeOf_of_long64 p hm, ha]
  · simp [addrSizeOf_of_long64 p hm, ha]
  all_goals simp [addrSizeOf_of_ne_long64 p hm, hd, ha]

namespace Machine

/-! ### The statements about what is decoded -/

/-- Settles O6: a decoded instruction is well-formed, and 0xF3 is among its bytes only for one of its prefixes. -/
theorem repPrefixSelectsTheRepForm : Obligations.RepPrefixSelectsTheRepForm := by
  intro c bytes i h
  obtain ⟨-, -, hrep, -⟩ := (Instr.wf_iff c i).1 (decode_insn h).1
  refine ⟨?_, fun s => ⟨fun hr => ?_, fun hr => ?_⟩⟩
  · rw [hrep]
    exact (byte_mem_encode_iff .rep i).symm
  · rw [exec_eq, if_pos hr]
  · rw [exec_eq, if_neg (by simp [hr])]

/-- R66, U1. -/
theorem begin_of_quad_outside_long64 {p : Spelling} {s : State} (hl : p.has .lock = false) (hm : s.mode ≠ .long64) :
    begin .qword p s = .refused .quadOutsideLong64 := by
  rw [begin, if_neg (by simp [hl]), if_pos ⟨rfl, hm⟩]

/-- Settles O7: the start of an instruction, which is the same for the three forms, refuses it. -/
theorem quadwordFormsStopOutside64BitMode : Obligations.QuadwordFormsStopOutside64BitMode := by
  intro p s hl hm
  have hbegin := begin_of_quad_outside_long64 hl hm
  exact ⟨exec_of_begin_refused hbegin, exec_of_begin_refused hbegin, exec_of_begin_refused hbegin⟩

end Machine

end Sys2Proof
end

section
/-! PROOFS. The move of one element, 40_movs.md: when an instruction completes and in which state (R75, R90), how the index
registers step (R85), and a move of bytes onto themselves (R87). -/

namespace Sys2Proof.Machine

/-! ### Storing bytes where they are -/

/-- Bytes of `m` stored back where they were read, over a memory that reads like `m`, change no byte, also where an address
is listed twice. -/
theorem Memory.read_writeAll_readAll {m m' : List Host.Cell} (hwf : Memory.wf m' = true)
    (hsame : ∀ a, Memory.read m' a = Memory.read m a) (as : List Nat) (a : Nat) :
    Memory.read (Memory.writeAll m' as (Memory.readAll m as)) a = Memory.read m a := by
  induction as generalizing m' with
  | nil => exact hsame a
  | cons x as ih =>
    refine ih (Memory.wf_write hwf x _) fun b => ?_
    by_cases hb : b = x
    · rw [hb, Memory.read_write_same hwf]
    · rw [Memory.read_write_other hb, hsame]

/-- R87: with the same source and destination bytes an element move leaves every byte as it was. -/
theorem read_moved_of_srcBytes_eq_dstBytes {s : State} {z : OpSize} {p : Spelling} (hwf : Memory.wf s.mem = true)
    (h : s.srcBytes z p = s.dstBytes z p) (a : Nat) : Memory.read (s.moved z p).mem a = Memory.read s.mem a := by
  rw [State.moved_mem, h]
  exact Memory.read_writeAll_readAll hwf (fun _ => rfl) _ a

/-! ### The state after an instruction that moved an element -/

section
variable {i : Instr} {s : State}

theorem movesElement_of_once (h : i.isRep = false) : MovesElement i s := fun hr => by
  rw [h] at hr
  cases hr

/-- R90: a form without REP moves its element and goes on to `pc + Len`. -/
theorem after_of_once (h : i.isRep = false) :
    s.after i = (s.moved i.size i.spelling).setPc (s.pcAfter i.spelling) := by
  simp [State.after, h]

/-- R75: `Idx(RSI, A)` is stepped, also in an iteration of a REP form. -/
theorem after_idxRsi (h : MovesElement i s) :
    (s.after i).idxRsi (addrSizeOf s.codeCtx i.spelling) =
      stepIndex (addrSizeOf s.codeCtx i.spelling) s.df i.size.bytes (s.idxRsi (addrSizeOf s.codeCtx i.spelling)) := by
  rw [after_of_movesElement h]
  exact State.moved_idxRsi ..

/-- R75: `Idx(RDI, A)` is stepped, also in an iteration of a REP form. -/
theorem after_idxRdi (h : MovesElement i s) :
    (s.after i).idxRdi (addrSizeOf s.codeCtx i.spelling) =
      stepIndex (addrSizeOf s.codeCtx i.spelling) s.df i.size.bytes (s.idxRdi (addrSizeOf s.codeCtx i.spelling)) := by
  rw [after_of_movesElement h]
  exact State.moved_idxRdi ..

/-- R90, R93: an instruction that starts, and whose element can be moved, completes or makes one iteration. -/
theorem exec_of_moveOk (hs : StartOk i.size i.spelling s) (hm : MovesElement i s)
    (hmove : MoveOk i.size i.spelling (elementsOf i s) s) : exec i s = .next (s.after i) := by
  have helem := movsElement_of_moveOk hmove
  have hstop : stopOf (exec i s) = .next () := by
    rw [exec_eq]
    split
    · rename_i hr
      rw [stopOf_repMovs, begin_of_startOk hs, if_neg (hm hr), ← elementsOf_rep hr, helem]
      rfl
    · rename_i hr
      rw [stopOf_movsOnce, begin_of_startOk hs, ← elementsOf_once (Bool.eq_false_of_not_eq_true hr) s, helem]
      rfl
  obtain ⟨t, hx⟩ := stopOf_eq_next_iff.1 hstop
  rw [hx, exec_next_eq_after hx]

end

/-- R85: the step of an index is plus or minus the element size, modulo `2^A`. -/
theorem stepIndex_toNat (A : AddrSize) (df : Bool) (n : Nat) (idx : Word) :
    ((stepIndex A df n idx).toNat : Int) = (idx.toNat + if df then -(n : Int) else n) % 2 ^ A.bits :=
  lowBits_offset_toNat A df n idx

/-- A state is the same as itself in everything a claim may read. -/
theorem SameVisible.refl (s : State) : SameVisible s s := ⟨SameEnv.refl s, rfl, rfl, rfl, rfl, rfl, rfl, rfl⟩

/-! ### The statements -/

/-- Settles O16: the start and the element move pass every check, and the state in which the instruction ends is the one
said, also in the bits that no claim reads. -/
theorem moveWithoutRepCompletes : Obligations.MoveWithoutRepCompletes := by
  intro i s hr hs hmove
  have hx : exec i s = .next (s.after i) := exec_of_moveOk hs (movesElement_of_once hr) hmove
  rw [after_of_once hr] at hx
  exact ⟨_, hx, SameVisible.refl _⟩

/-- Settles O21: each byte is stored where it was read, and the index registers step as in every element move. -/
theorem moveOntoItselfKeepsMemory : Obligations.MoveOntoItselfKeepsMemory := by
  intro i s t hwf hr hx hsame
  obtain rfl := exec_next_eq_after hx
  have hm : MovesElement i s := movesElement_of_once hr
  refine ⟨fun a => ?_, after_idxRsi hm, after_idxRdi hm⟩
  rw [after_of_once hr, State.setPc_mem]
  exact read_moved_of_srcBytes_eq_dstBytes hwf hsame a

/-- Settles O26: an element move steps both index registers, and a step is modulo `2^A`. -/
theorem indexUpdateIsModuloTheAddressSize : Obligations.IndexUpdateIsModuloTheAddressSize := by
  intro i s t hm hx A n
  obtain rfl := exec_next_eq_after hx
  rw [after_idxRsi hm, after_idxRdi hm]
  exact ⟨stepIndex_toNat .., stepIndex_toNat ..⟩

end Sys2Proof.Machine
end

section
/-! PROOFS. The REP forms, 41_rep_movs.md: one iteration (R93, R99), the state after `k` iterations (R98, R102), the
completed block as a copy (R102), and the run over a REP form (R133). -/

namespace Sys2Proof.Machine

/-! ### One execution -/

theorem ne_zero_of_toNat_pos {v : Word} (h : 0 < v.toNat) : v ≠ 0 := by
  rintro rfl
  exact absurd h (by decide)

section
variable {i : Instr} {s : State}

/-- R93, R99: a REP form with a zero count completes without a look at its operands. -/
theorem exec_of_zeroCount (hs : StartOk i.size i.spelling s) (hm : ¬ MovesElement i s) :
    exec i s = .next (s.after i) := by
  obtain ⟨hr, hc⟩ := not_movesElement_iff.1 hm
  rw [after_of_not_movesElement hm, exec_eq, if_pos hr, repMovs, begin_of_startOk hs]
  simp only [if_pos hc]
  rfl

/-- An instruction that starts, and whose element, if it moves one, can be moved, answers the state it ends in. -/
theorem exec_of_startOk (hs : StartOk i.size i.spelling s)
    (hmove : MovesElement i s → MoveOk i.size i.spelling (elementsOf i s) s) : exec i s = .next (s.after i) := by
  by_cases hm : MovesElement i s
  · exact exec_of_moveOk hs hm (hmove hm)
  · exact exec_of_zeroCount hs hm

/-- R63, R105: #UD comes before all else. -/
theorem exec_of_lock (hl : i.spelling.has .lock = true) : exec i s = .fault .ud := by
  have hbegin : begin i.size i.spelling s = .fault .ud := if_pos hl
  rw [exec_eq]
  split
  · rw [repMovs, hbegin]; rfl
  · rw [movsOnce, hbegin]; rfl

/-- R93: a REP form with a count that is not zero makes one iteration. -/
theorem after_of_rep (hr : i.isRep = true) (hc : s.idxRcx (addrSizeOf s.codeCtx i.spelling) ≠ 0) :
    s.after i = s.iterated i.size i.spelling := by
  simp only [State.after, hr, if_true, if_neg hc]

/-- R93: `pc` moves on with the last iteration. -/
theorem State.iterated_pc_of_count_one {z : OpSize} {p : Spelling}
    (h : (s.idxRcx (addrSizeOf s.codeCtx p)).toNat = 1) : (s.iterated z p).pc = s.pcAfter p :=
  if_pos (BitVec.eq_of_toNat_eq h)

/-- R93, R99: with a count of at most one a REP form is finished. -/
theorem after_pc_of_count_le_one (hr : i.isRep = true)
    (hc : (s.idxRcx (addrSizeOf s.codeCtx i.spelling)).toNat ≤ 1) : (s.after i).pc = s.pcAfter i.spelling := by
  by_cases h0 : s.idxRcx (addrSizeOf s.codeCtx i.spelling) = 0
  · rw [after_of_not_movesElement (not_movesElement_iff.2 ⟨hr, h0⟩), State.setPc_pc]
  · have hpos : (s.idxRcx (addrSizeOf s.codeCtx i.spelling)).toNat ≠ 0 := fun h => h0 (BitVec.eq_of_toNat_eq h)
    rw [after_of_rep hr h0, State.iterated_pc_of_count_one (by omega)]

end

/-! ### The state after some iterations -/

/-- The state after `k` iterations of a REP form, R102. -/
def State.iterations (s : State) (z : OpSize) (p : Spelling) (k : Nat) : State :=
  (fun u => u.iterated z p)^[k] s

/-- The source bytes of element `j` of a block, R102. -/
def State.blockSrc (s : State) (z : OpSize) (p : Spelling) (j : Nat) : List Nat :=
  s.physBytes (srcSegOf s.codeCtx p) (s.srcIndex z p j) z.bytes .read

/-- The destination bytes of element `j` of a block, R102. -/
def State.blockDst (s : State) (z : OpSize) (p : Spelling) (j : Nat) : List Nat :=
  s.physBytes .es (s.dstIndex z p j) z.bytes .write

section
variable (s : State) (z : OpSize) (p : Spelling)

/-- The last iteration split off. -/
theorem State.iterations_succ (k : Nat) : s.iterations z p (k + 1) = (s.iterations z p k).iterated z p :=
  Function.iterate_succ_apply' ..

/-- The first iteration split off. -/
theorem State.iterations_iterated (k : Nat) : (s.iterated z p).iterations z p k = s.iterations z p (k + 1) := rfl

theorem sameEnv_iterations (k : Nat) : SameEnv s (s.iterations z p k) := by
  induction k with
  | zero => exact SameEnv.refl s
  | succ k ih => rw [State.iterations_succ]; exact ih.trans (sameEnv_iterated ..)

/-- R102: the elements that follow `k` iterations are those from element `k` on. -/
theorem State.iterations_srcIndex (k j : Nat) : (s.iterations z p k).srcIndex z p j = s.srcIndex z p (j + k) := by
  induction k generalizing j with
  | zero => rfl
  | succ k ih => rw [State.iterations_succ, State.iterated_srcIndex, ih]; congr 1; omega

theorem State.iterations_dstIndex (k j : Nat) : (s.iterations z p k).dstIndex z p j = s.dstIndex z p (j + k) := by
  induction k generalizing j with
  | zero => rfl
  | succ k ih => rw [State.iterations_succ, State.iterated_dstIndex, ih]; congr 1; omega

/-- R102: the indices after `k` iterations are those of element `k`. -/
theorem State.iterations_idxRsi (k : Nat) :
    (s.iterations z p k).idxRsi (addrSizeOf s.codeCtx p) = s.srcIndex z p k := by
  rw [← (sameEnv_iterations s z p k).codeCtx_eq, ← srcIndex_zero _ z p, State.iterations_srcIndex, Nat.zero_add]

theorem State.iterations_idxRdi (k : Nat) :
    (s.iterations z p k).idxRdi (addrSizeOf s.codeCtx p) = s.dstIndex z p k := by
  rw [← (sameEnv_iterations s z p k).codeCtx_eq, ← dstIndex_zero _ z p, State.iterations_dstIndex, Nat.zero_add]

/-- R102: iteration `k` moves element `k` of the block. -/
theorem State.iterations_srcBytes (k : Nat) : (s.iterations z p k).srcBytes z p = s.blockSrc z p k := by
  have henv := sameEnv_iterations s z p k
  rw [State.srcBytes, henv.codeCtx_eq, s.iterations_idxRsi, henv.physBytes_eq, State.blockSrc]

theorem State.iterations_dstBytes (k : Nat) : (s.iterations z p k).dstBytes z p = s.blockDst z p k := by
  have henv := sameEnv_iterations s z p k
  rw [State.dstBytes, henv.codeCtx_eq, s.iterations_idxRdi, henv.physBytes_eq, State.blockDst]

theorem State.blockMem_succ (k : Nat) :
    s.blockMem z p (k + 1) =
      Memory.writeAll (s.blockMem z p k) (s.blockDst z p k)
        (Memory.readAll (s.blockMem z p k) (s.blockSrc z p k)) := rfl

/-- R102: memory is the element moves one after the other. -/
theorem State.iterations_mem (k : Nat) : (s.iterations z p k).mem = s.blockMem z p k := by
  induction k with
  | zero => rfl
  | succ k ih =>
    have hmoved : (s.iterations z p (k + 1)).mem = ((s.iterations z p k).moved z p).mem := by
      rw [State.iterations_succ]; rfl
    rw [hmoved, State.moved_mem, ih, State.iterations_srcBytes, State.iterations_dstBytes, State.blockMem_succ]

variable {s z p}

/-- R93, R98: up to the count, every iteration takes one off it. -/
theorem State.iterations_idxRcx_toNat {k : Nat} (hk : k ≤ (s.idxRcx (addrSizeOf s.codeCtx p)).toNat) :
    ((s.iterations z p k).idxRcx (addrSizeOf s.codeCtx p)).toNat + k = (s.idxRcx (addrSizeOf s.codeCtx p)).toNat := by
  induction k with
  | zero => rfl
  | succ k ih =>
    have ih := ih (by omega)
    have henv := sameEnv_iterations s z p k
    have hdown := State.iterated_idxRcx_toNat (s := s.iterations z p k) (z := z) (p := p)
    rw [henv.codeCtx_eq] at hdown
    have hdown := hdown (ne_zero_of_toNat_pos (by omega))
    rw [State.iterations_succ]
    omega

/-- R93: `pc` stays before the last iteration. -/
theorem State.iterations_pc_of_lt {k : Nat} (hk : k < (s.idxRcx (addrSizeOf s.codeCtx p)).toNat) :
    (s.iterations z p k).pc = s.pc := by
  induction k with
  | zero => rfl
  | succ k ih =>
    have hcount := State.iterations_idxRcx_toNat (z := z) hk.le
    rw [State.iterations_succ] at hcount ⊢
    rw [State.iterated_pc, ih (by omega)]
    rw [(sameEnv_iterations s z p k).codeCtx_eq]
    exact ne_zero_of_toNat_pos (by omega)

/-- R93: `pc` moves on with the last iteration of the block. -/
theorem State.iterations_pc_of_eq {k : Nat} (hpos : 0 < k) (hk : k = (s.idxRcx (addrSizeOf s.codeCtx p)).toNat) :
    (s.iterations z p k).pc = s.pcAfter p := by
  obtain ⟨m, rfl⟩ := Nat.exists_eq_succ_of_ne_zero hpos.ne'
  have hcount := State.iterations_idxRcx_toNat (z := z) (k := m) (s := s) (p := p) (by omega)
  rw [State.iterations_succ, State.iterated_pc_of_count_one, State.pcAfter, State.iterations_pc_of_lt (by omega),
    State.pcAfter]
  rw [(sameEnv_iterations s z p m).codeCtx_eq]
  omega

end

/-! ### Executions one after the other -/

theorem execTimes_succ_eq_next {i : Instr} {k : Nat} {s t : State} (h : execTimes i (k + 1) s = .next t) :
    ∃ u, exec i s = .next u ∧ execTimes i k u = .next t := by
  rw [execTimes] at h
  cases hx : exec i s with
  | next u => rw [hx] at h; exact ⟨u, rfl, h⟩
  | fault f => rw [hx] at h; cases h
  | refused e => rw [hx] at h; cases h

/-- R93, R102: up to the count, the executions of a REP form that all complete are iterations, each of them admitted. -/
theorem execTimes_rep_next {i : Instr} {k : Nat} {s t : State} (hr : i.isRep = true)
    (hk : k ≤ (s.idxRcx (addrSizeOf s.codeCtx i.spelling)).toNat) (h : execTimes i k s = .next t) :
    t = s.iterations i.size i.spelling k ∧
      ∀ j < k, SrcOk i.size i.spelling (s.iterations i.size i.spelling j) ∧
        DstOk i.size i.spelling (s.iterations i.size i.spelling j) := by
  induction k generalizing s with
  | zero => cases h; exact ⟨rfl, fun j hj => absurd hj (Nat.not_lt_zero j)⟩
  | succ k ih =>
    obtain ⟨u, hx, hrest⟩ := execTimes_succ_eq_next h
    have hc : s.idxRcx (addrSizeOf s.codeCtx i.spelling) ≠ 0 := ne_zero_of_toNat_pos (by omega)
    obtain rfl : u = s.iterated i.size i.spelling := (exec_next_eq_after hx).trans (after_of_rep hr hc)
    have hleft := Nat.le_of_succ_le_succ (hk.trans_eq (State.iterated_idxRcx_toNat (z := i.size) hc).symm)
    obtain ⟨ht, hok⟩ := ih hleft hrest
    refine ⟨ht.trans (State.iterations_iterated ..), fun j hj => ?_⟩
    cases j with
    | zero =>
      have hmove := moveOk_of_exec_next hx fun _ => hc
      exact ⟨hmove.srcOk, hmove.dstOk⟩
    | succ j => exact hok j (Nat.lt_of_succ_lt_succ hj)

/-! ### The completed block as a copy -/

section
variable {s : State} {z : OpSize} {p : Spelling} {k : Nat}

theorem State.wf_blockMem (hwf : Memory.wf s.mem = true) (k : Nat) : Memory.wf (s.blockMem z p k) = true := by
  induction k with
  | zero => exact hwf
  | succ k ih => rw [State.blockMem_succ]; exact Memory.wf_writeAll ih _ _

/-- R46: a byte that no element of the block has as its destination stays. -/
theorem State.read_blockMem_of_notMem {a : Nat} (ha : ∀ j < k, a ∉ s.blockDst z p j) :
    Memory.read (s.blockMem z p k) a = Memory.read s.mem a := by
  induction k with
  | zero => rfl
  | succ k ih =>
    rw [State.blockMem_succ, Memory.read_writeAll_other _ _ (ha k (Nat.lt_succ_self k)),
      ih fun j hj => ha j (Nat.lt_succ_of_lt hj)]

/-- Bytes that no element of the block has as its destination stay, as a list. -/
theorem State.readAll_blockMem_of_notMem {as : List Nat} (has : ∀ a ∈ as, ∀ j < k, a ∉ s.blockDst z p j) :
    Memory.readAll (s.blockMem z p k) as = Memory.readAll s.mem as :=
  List.map_congr_left fun a ha => State.read_blockMem_of_notMem (has a ha)

/-- R102: where no destination byte is a source byte or the destination byte of another element, each element ends up as
the source bytes were. -/
theorem State.readAll_blockMem (hwf : Memory.wf s.mem = true)
    (hlen : ∀ j < k, (s.blockSrc z p j).length = (s.blockDst z p j).length)
    (hdisj : ∀ j < k, ∀ l < k, ∀ a ∈ s.blockDst z p j, a ∉ s.blockSrc z p l)
    (hdst : ∀ j < k, ∀ l < k, j ≠ l → ∀ a ∈ s.blockDst z p j, a ∉ s.blockDst z p l)
    (hnodup : ∀ j < k, (s.blockDst z p j).Nodup) :
    ∀ j < k, Memory.readAll (s.blockMem z p k) (s.blockDst z p j) = Memory.readAll s.mem (s.blockSrc z p j) := by
  induction k with
  | zero => exact fun j hj => absurd hj (Nat.not_lt_zero j)
  | succ k ih =>
    have hk := Nat.lt_succ_self k
    intro j hj
    rw [State.blockMem_succ]
    by_cases hjk : j = k
    · subst hjk
      rw [Memory.readAll_writeAll (State.wf_blockMem hwf j) (hnodup j hk)
        ((Memory.readAll_length ..).trans (hlen j hk))]
      exact State.readAll_blockMem_of_notMem fun a ha l hl hm => hdisj l (Nat.lt_succ_of_lt hl) j hk a hm ha
    · have hlt : j < k := by omega
      have hearlier := ih (fun l hl => hlen l (Nat.lt_succ_of_lt hl))
        (fun l hl m hm => hdisj l (Nat.lt_succ_of_lt hl) m (Nat.lt_succ_of_lt hm))
        (fun l hl m hm => hdst l (Nat.lt_succ_of_lt hl) m (Nat.lt_succ_of_lt hm))
        (fun l hl => hnodup l (Nat.lt_succ_of_lt hl)) j hlt
      rw [← hearlier]
      exact List.map_congr_left fun a ha => Memory.read_writeAll_other _ _ (hdst j hj k hk hjk a ha)

end

/-! ### The instruction's bytes between two iterations -/

theorem take_codeAddrsFrom (s : State) (k m i : Nat) :
    (s.codeAddrsFrom i (k + m)).take k = s.codeAddrsFrom i k := by
  induction k generalizing i with
  | zero => rfl
  | succ k ih =>
    rw [Nat.add_right_comm, State.codeAddrsFrom, State.codeAddrsFrom]
    cases s.codeAddr i with
    | none => rfl
    | some a => simp only [List.take_succ_cons, ih]

/-- R50: the bytes of the instruction are the first of the bytes fetched. -/
theorem take_fetchBytes (s : State) {k : Nat} (hk : k ≤ maxInsnBytes) :
    s.fetchBytes.take k = Memory.readAll s.mem (s.codeAddrs k) := by
  obtain ⟨m, hm⟩ := Nat.exists_eq_add_of_le hk
  rw [State.fetchBytes, Memory.readAll, ← List.map_take, hm, State.codeAddrs, take_codeAddrsFrom]
  rfl

/-- R74: the decoder's answer depends on the instruction's own bytes alone. -/
theorem decode_of_take_eq {c : CodeCtx} {bytes bytes' : List Byte} {i : Instr} (h : decode c bytes = .insn i)
    (hsame : bytes'.take i.spelling.len = bytes.take i.spelling.len) : decode c bytes' = .insn i := by
  obtain ⟨hwf, hno, rest, rfl⟩ := decode_insn h
  rw [← encode_length i, List.take_left] at hsame
  rw [← List.take_append_drop (encode i).length bytes', hsame, decode_encode _ hwf, hno]

section
variable {i : Instr} {s t : State}

/-- R50: the same instruction is decoded as long as `pc` and its own bytes stay. -/
theorem fetchDecode_of_ownBytes (henv : SameEnv s t) (hpc : t.pc = s.pc)
    (hown : ∀ a ∈ s.codeAddrs i.spelling.len, Memory.read t.mem a = Memory.read s.mem a)
    (hd : s.fetchDecode = .insn i) : t.fetchDecode = .insn i := by
  obtain ⟨hwf, -⟩ := decode_insn hd
  have hlen : i.spelling.len ≤ maxInsnBytes := len_le_of_wf ((Instr.wf_iff _ i).1 hwf).1
  rw [State.fetchDecode, henv.codeCtx_eq]
  refine decode_of_take_eq hd ?_
  rw [take_fetchBytes t hlen, take_fetchBytes s hlen, henv.codeAddrs_eq hpc]
  exact List.map_congr_left hown

/-- R50: an instruction that completes has not stored to its own bytes. -/
theorem notMem_dstBytes_of_exec_next (hx : exec i s = .next t) (hm : MovesElement i s) {a : Nat}
    (ha : a ∈ s.codeAddrs i.spelling.len) : a ∉ s.dstBytes i.size i.spelling := fun hd =>
  ((moveOk_of_exec_next hx hm).first (elementsOf_pos hm)).1 a hd ha

/-- R50: an iteration that leaves `pc` where it was leaves the instruction to be decoded again. -/
theorem fetchDecode_tick_of_exec_next (hx : exec i s = .next t) (hm : MovesElement i s) (hpc : t.pc = s.pc)
    (hd : s.fetchDecode = .insn i) : t.tick.fetchDecode = .insn i := by
  refine fetchDecode_of_ownBytes ((sameEnv_of_exec_next hx).trans (sameEnv_tick t)) hpc (fun a ha => ?_) hd
  rw [State.tick_mem, exec_next_eq_after hx]
  exact read_after_of_notMem (notMem_dstBytes_of_exec_next hx hm ha)

theorem storedCode_eq_false_iff : s.storedCode i = false ↔ ∀ a ∈ s.codeAddrs i.spelling.len, a ∉ s.stored := by
  rw [State.storedCode, ← Bool.not_eq_true, overlaps_iff]
  push Not
  rfl

/-- R50: an iteration that leaves `pc` where it was leaves the instruction's bytes not stored to. -/
theorem storedCode_tick_of_exec_next (hx : exec i s = .next t) (hm : MovesElement i s) (hpc : t.pc = s.pc)
    (hst : s.storedCode i = false) : t.tick.storedCode i = false := by
  have henv := (sameEnv_of_exec_next hx).trans (sameEnv_tick t)
  rw [storedCode_eq_false_iff, henv.codeAddrs_eq hpc, State.tick_stored, exec_next_eq_after hx]
  rw [storedCode_eq_false_iff] at hst
  intro a ha hmem
  rcases mem_stored_after_iff.1 hmem with h | ⟨-, h⟩
  · exact hst a ha h
  · exact notMem_dstBytes_of_exec_next hx hm ha h

end

/-! ### The counter of the free value -/

/-- The state with another value of the model's counter (log entry 6). -/
def State.withFreeIndex (s : State) (n : Nat) : State :=
  { s with freeIndex := n }

section
variable {s t : State} (h : SameEnv s t)
include h

/-- Whether an access is admitted depends on nothing an instruction writes. -/
theorem SameEnv.accessOk {A : AddrSize} {r : SegReg} {off : Word} {n : Nat} {k : AccessKind} (hn : 0 < n)
    (hok : AccessOk s A r off n k) : AccessOk t A r off n k := by
  have hcheck := (h.check_eq A r off n k).trans ((check_ok_iff s A r off hn k _).2 ⟨hok, rfl⟩)
  exact ((check_ok_iff t A r off hn k _).1 hcheck).1

/-- Whether an element can be moved depends on the index registers, on `pc` for the instruction's own bytes, and on
nothing else that an instruction writes. -/
theorem SameEnv.moveOk {z : OpSize} {p : Spelling} {c : Nat} (hpc : t.pc = s.pc)
    (hrsi : t.idxRsi (addrSizeOf s.codeCtx p) = s.idxRsi (addrSizeOf s.codeCtx p))
    (hrdi : t.idxRdi (addrSizeOf s.codeCtx p) = s.idxRdi (addrSizeOf s.codeCtx p))
    (hmove : MoveOk z p c s) : MoveOk z p c t where
  srcOk := by
    rw [SrcOk, h.codeCtx_eq, hrsi]
    exact h.accessOk (OpSize_bytes_pos z) hmove.srcOk
  dstOk := by
    rw [DstOk, h.codeCtx_eq, hrdi]
    exact h.accessOk (OpSize_bytes_pos z) hmove.dstOk
  launchOk := by
    have hl := (launchOk_iff s z p c).1 hmove.launchOk
    rw [launchOk_iff, h.codeCtx_eq, h.blockOnDevice_eq hrsi hrdi]
    simpa only [State.blockOnOwnBytes, h.codeAddrs_eq hpc, funext (h.blockStoresTo_eq hrdi z c)] using hl

end

section
variable {i : Instr} {s t : State}

theorem sameEnv_withFreeIndex (s : State) (n : Nat) : SameEnv s (s.withFreeIndex n) :=
  ⟨rfl, rfl, rfl, rfl, rfl, rfl, rfl, rfl⟩

theorem after_withFreeIndex (i : Instr) (s : State) (n : Nat) :
    (s.withFreeIndex n).after i = (s.after i).withFreeIndex n := by
  have hctx : (s.withFreeIndex n).codeCtx = s.codeCtx := rfl
  have hrcx : (s.withFreeIndex n).idxRcx = s.idxRcx := rfl
  unfold State.after
  rw [hctx, hrcx]
  split
  · split <;> rfl
  · rfl

/-- The counter takes no part in an instruction that raises nothing. -/
theorem exec_withFreeIndex (hx : exec i s = .next t) (n : Nat) :
    exec i (s.withFreeIndex n) = .next (t.withFreeIndex n) := by
  have henv := sameEnv_withFreeIndex s n
  rw [exec_next_eq_after hx, ← after_withFreeIndex]
  exact exec_of_startOk (henv.startOk rfl (exec_next hx).1) fun hm =>
    henv.moveOk rfl rfl rfl (moveOk_of_exec_next hx hm)

theorem execTimes_withFreeIndex {k : Nat} (h : execTimes i k s = .next t) (n : Nat) :
    execTimes i k (s.withFreeIndex n) = .next (t.withFreeIndex n) := by
  induction k generalizing s with
  | zero => cases h; rfl
  | succ k ih =>
    obtain ⟨u, hx, hrest⟩ := execTimes_succ_eq_next h
    rw [execTimes, exec_withFreeIndex hx]
    exact ih hrest

end

/-! ### The run over a REP form -/

section
variable {exit : Nat} {s t : State}

theorem runTo_of_exit (h : s.ipOffset = exit) (k : Nat) : runTo exit k s = .ended s := by
  cases k with
  | zero => exact if_pos h
  | succ k => exact if_pos h

theorem runTo_of_step (h : s.ipOffset ≠ exit) (hstep : step s = .next t) (k : Nat) :
    runTo exit (k + 1) s = runTo exit k t := by
  rw [runTo, if_neg h, hstep]

end

/-- R67. -/
theorem spelling_len_pos (p : Spelling) : 0 < p.len := Nat.succ_pos _

/-- R93: an iteration that is not the last takes one off the count and leaves `pc` where it was. -/
theorem exec_next_of_one_lt_count {i : Instr} {s t : State} (hr : i.isRep = true) (hx : exec i s = .next t)
    (hc : 1 < (s.idxRcx (addrSizeOf s.codeCtx i.spelling)).toNat) :
    MovesElement i s ∧ t.pc = s.pc ∧
      (t.idxRcx (addrSizeOf t.codeCtx i.spelling)).toNat + 1 = (s.idxRcx (addrSizeOf s.codeCtx i.spelling)).toNat := by
  have h0 : s.idxRcx (addrSizeOf s.codeCtx i.spelling) ≠ 0 := ne_zero_of_toNat_pos (by omega)
  have hdown := State.iterated_idxRcx_toNat (z := i.size) h0
  obtain rfl : t = s.iterated i.size i.spelling := (exec_next_eq_after hx).trans (after_of_rep hr h0)
  exact ⟨fun _ => h0, State.iterated_pc (ne_zero_of_toNat_pos (by omega)), hdown⟩

/-- R93, R102, R133: the run over a REP form follows its executions, one step for each. -/
theorem runTo_of_execTimes {i : Instr} {k : Nat} {s t : State} (hr : i.isRep = true) (hd : s.fetchDecode = .insn i)
    (hst : s.storedCode i = false) (hk : k = max 1 (s.idxRcx (addrSizeOf s.codeCtx i.spelling)).toNat)
    (h : execTimes i k s = .next t) :
    runTo (s.ipOffset + i.spelling.len) k s = .ended (t.withFreeIndex (s.freeIndex + k)) := by
  induction k generalizing s t with
  | zero => omega
  | succ k ih =>
    obtain ⟨u, hx, hrest⟩ := execTimes_succ_eq_next h
    have hlen := spelling_len_pos i.spelling
    have henv : SameEnv s u.tick := (sameEnv_of_exec_next hx).trans (sameEnv_tick u)
    have hu : u = s.after i := exec_next_eq_after hx
    have hfree : u.freeIndex = s.freeIndex := by rw [hu, after_freeIndex]
    rw [runTo_of_step (by omega) (step_of_exec_next hd hst hx)]
    rcases Nat.eq_zero_or_pos k with rfl | hpos
    case inl =>
      have hpc : u.tick.pc = s.pcAfter i.spelling := by
        rw [State.tick_pc, hu, after_pc_of_count_le_one hr (by omega)]
      have hexit : u.tick.ipOffset = s.ipOffset + i.spelling.len :=
        ipOffset_of_pc_eq_pcAfter henv hpc (lt_of_codeOffsetOk (exec_next hx).1.nextInCode)
      cases hrest
      rw [runTo_of_exit hexit, ← hfree]
      rfl
    case inr =>
      obtain ⟨hm, hpc, hdown⟩ := exec_next_of_one_lt_count hr hx (by omega)
      have hcount : k = max 1 (u.idxRcx (addrSizeOf u.codeCtx i.spelling)).toNat := by omega
      have hrun := ih (fetchDecode_tick_of_exec_next hx hm hpc hd) (storedCode_tick_of_exec_next hx hm hpc hst) hcount
        (execTimes_withFreeIndex hrest (u.freeIndex + 1))
      have hticks : u.tick.freeIndex + k = s.freeIndex + (k + 1) := by rw [State.tick_freeIndex, hfree]; omega
      rw [henv.ipOffset_eq hpc, hticks] at hrun
      exact hrun

/-! ### The end of the block -/

/-- A step of an index by `d` beside a count that goes down by one keeps the end of the block modulo `m`. -/
theorem end_of_step_emod {m d x y : Int} {c c' : Nat} (hx : y = (x + d) % m) (hc : c' + 1 = c) :
    (y + d * c') % m = (x + d * c) % m := by
  rw [hx, Int.emod_add_emod, ← hc]
  push_cast
  ring_nf

/-! ### The statements -/

/-- Settles O17: the start and the element move pass every check, and the state in which the iteration ends is the one
said, also in the bits that no claim reads. -/
theorem repIterationCompletes : Obligations.RepIterationCompletes := by
  intro i s hr hc hs hmove
  have hx : exec i s = .next (s.after i) := exec_of_moveOk hs (fun _ => hc) hmove
  rw [after_of_rep hr hc] at hx
  exact ⟨_, hx, SameVisible.refl _⟩

/-- Settles O18: the count is looked at after LOCK and before the operands. -/
theorem repWithZeroCountDoesNothing : Obligations.RepWithZeroCountDoesNothing := by
  intro i s hr hc
  have hm : ¬ MovesElement i s := not_movesElement_iff.2 ⟨hr, hc⟩
  refine ⟨fun hs => ?_, exec_of_lock⟩
  rw [exec_of_zeroCount hs hm, after_of_not_movesElement hm, State.pcAfter]

/-- Settles O29: each index steps by one element and the count goes down by one. -/
theorem repIterationConservesTheEnd : Obligations.RepIterationConservesTheEnd := by
  intro i s t hr hm hx A d
  obtain rfl := exec_next_eq_after hx
  have hcount : ((s.after i).idxRcx A).toNat + 1 = (s.idxRcx A).toNat := by
    rw [after_of_rep hr (hm hr)]
    exact State.iterated_idxRcx_toNat (hm hr)
  rw [after_idxRsi hm, after_idxRdi hm]
  exact ⟨end_of_step_emod (stepIndex_toNat ..) hcount, end_of_step_emod (stepIndex_toNat ..) hcount⟩

/-- Settles O27: the executions are iterations, and each part of the state after `k` iterations follows by induction on
`k`. -/
theorem repBlockAfterKIterations : Obligations.RepBlockAfterKIterations := by
  intro i s t k hr hpos A hk hx d
  obtain ⟨rfl, -⟩ := execTimes_rep_next hr hk hx
  refine ⟨?count, ?rsi, ?rdi, State.iterations_mem .., sameEnv_iterations .., ?pc⟩
  case count => exact Nat.eq_sub_of_add_eq (State.iterations_idxRcx_toNat hk)
  case rsi => rw [State.iterations_idxRsi]; exact indexAfter_toNat ..
  case rdi => rw [State.iterations_idxRdi]; exact indexAfter_toNat ..
  case pc =>
    split
    case isTrue he => exact State.iterations_pc_of_eq hpos he
    case isFalse hne => exact State.iterations_pc_of_lt (lt_of_le_of_ne hk hne)

/-- Settles O28: memory after the block is the element moves one after the other, and none of them writes a byte that
another one reads or writes. -/
theorem repBlockOfDisjointRangesIsACopy : Obligations.RepBlockOfDisjointRangesIsACopy := by
  intro i s t hwf hr A src dst c hx hdisj hdst hnodup
  obtain ⟨rfl, hok⟩ := execTimes_rep_next hr le_rfl hx
  have hlen : ∀ j < c, (s.blockSrc i.size i.spelling j).length = (s.blockDst i.size i.spelling j).length := by
    intro j hj
    obtain ⟨hsrc, hdst⟩ := hok j hj
    rw [← State.iterations_srcBytes, ← State.iterations_dstBytes, State.srcBytes, State.dstBytes,
      physBytes_length hsrc, physBytes_length hdst]
  rw [State.iterations_mem]
  exact ⟨State.readAll_blockMem hwf hlen hdisj hdst hnodup, fun a ha => State.read_blockMem_of_notMem ha⟩

/-- Settles O31: a step of the run is one execution, and the instruction's own bytes stay for the next one. -/
theorem runOfARepFormEndsAfterTheBlock : Obligations.RunOfARepFormEndsAfterTheBlock :=
  fun _ _ _ hd hr hst hx => ⟨_, runTo_of_execTimes hr hd hst rfl hx⟩

end Sys2Proof.Machine
end

section
/-! PROOFS. The exceptions, 60_exceptions.md: which exceptions an access raises and when it raises one alone (R111 to
R117), that an instruction reports one that applies (R105, R119), the exceptions of each mode (R106 to R110, R120), and
that the privilege level does not matter but for alignment checking and paging (R125). -/

namespace Sys2Proof.Machine

/-! ### The exceptions of one access -/

theorem ne_real_and_ne_long64_of_prot_or_compat {m : Mode} (h : m = .prot ∨ m = .compat) : m ≠ .real ∧ m ≠ .long64 := by
  rcases h with rfl | rfl <;> decide

/-- R106, R120: #GP and #SS have error code 0 in the other modes. -/
theorem segCode_of_ne_real {s : State} (hm : s.mode ≠ .real) : s.segCode = some 0 := by
  unfold State.segCode
  split
  case h_1 h => exact absurd h hm
  all_goals rfl

/-- R112, R114, R115: #SS is for accesses through SS alone. -/
theorem rangeFault_of_ne_ss {r : SegReg} (m : Mode) (hr : r ≠ .ss) :
    rangeFault m r = .gp (if m = .real then none else some 0) := if_neg hr

/-- R60, R115: in 64-bit mode an override to SS counts only where the parameter says so. -/
theorem srcSegOf_ne_ss {c : CodeCtx} (hm : c.mode = .long64) (hss : c.ssHonoured = false) (p : Spelling) :
    srcSegOf c p ≠ .ss := by
  cases ho : segOverride p.legacy with
  | none => simp [srcSegOf_of_no_override ho]
  | some r =>
    rw [srcSegOf_of_long64 ho hm, hss]
    cases r <;> simp

/-- R39: the segment registers a NULL selector counts for. -/
theorem nullSeg_iff (s : State) (r : SegReg) :
    s.nullSeg r = true ↔ (r = .ds ∨ r = .es ∨ r = .fs ∨ r = .gs) ∧ (s.segOf r).null = true := by
  cases r <;> simp [State.nullSeg]

section
variable {s : State} {A : AddrSize} {r : SegReg} {off : Word} {n : Nat} {k : AccessKind} {f g : Fault}

/-- R120: a segment-level exception is #GP, or #SS through SS, with the error code of the mode. -/
theorem SegRaises.eq_gp_or_ss (h : SegRaises s r off n k f) :
    f = .gp s.segCode ∨ (f = .ss s.segCode ∧ r = .ss) := by
  have hrange : f = rangeFault s.mode r → f = .gp s.segCode ∨ (f = .ss s.segCode ∧ r = .ss) := by
    rw [← segFault_eq]
    rintro rfl
    cases r <;> simp [State.segFault]
  obtain ⟨hm, -, rfl⟩ | ⟨-, -, hf⟩ | ⟨-, -, hf⟩ := h
  case inl => exact .inl (by rw [segCode_of_ne_real (ne_real_and_ne_long64_of_prot_or_compat hm).1])
  case inr.inl => exact hrange hf
  case inr.inr => exact hrange hf

/-- R119 item 2: a segment-level exception excludes #AC and #PF. -/
theorem AccessRaises.segRaises (h : AccessRaises s A r off n k f) (hg : SegRaises s r off n k g) :
    SegRaises s r off n k f :=
  h.resolve_right fun ⟨hno, _⟩ => hno g hg

/-- R117: what #AC needs. -/
theorem AccessRaises.of_ac {c : BitVec 32} (h : AccessRaises s A r off n k (.ac c)) :
    c = 0 ∧ s.alignCheckEnabled = true ∧ s.mode ≠ .real ∧ (s.mode = .v86 ∨ s.cpl = 3) ∧ (s.lin r off).toNat % n ≠ 0 := by
  obtain hseg | ⟨-, -, -, ⟨hc, hrest⟩ | ⟨_, _, _, _, -, -, -, hpf⟩⟩ := h
  · simpa using hseg.eq_gp_or_ss
  · exact ⟨by simpa using hc, hrest⟩
  · cases hpf

/-- R116: what #PF needs. -/
theorem AccessRaises.of_pf {c : BitVec 32} {a : Word} (h : AccessRaises s A r off n k (.pf c a)) :
    s.translate a k = .pageFault c := by
  obtain hseg | ⟨-, -, -, ⟨hac, -⟩ | ⟨_, _, _, _, -, htr, -, hpf⟩⟩ := h
  · simpa using hseg.eq_gp_or_ss
  · cases hac
  · cases hpf; exact htr

/-- R107: in real-address mode an access raises for the limit alone. -/
theorem AccessRaises.of_real (hm : s.mode = .real) (h : AccessRaises s A r off n k f) :
    (s.segOf r).inLimit off.toNat n = false ∧ f = rangeFault .real r := by
  obtain (⟨hm', -⟩ | ⟨-, hlim, hf⟩ | ⟨hm', -⟩) | ⟨-, -, -, ⟨-, -, hm', -⟩ | ⟨_, _, _, _, -, htr, -⟩⟩ := h
  case inl.inl => simp [hm] at hm'
  case inl.inr.inl => exact ⟨hlim, hm ▸ hf⟩
  case inl.inr.inr => simp [hm] at hm'
  case inr.inl => exact absurd hm hm'
  case inr.inr => rw [translate_of_flat (.inl hm)] at htr; cases htr

/-- R106, R108 to R110, R120: the exceptions of the other modes. -/
theorem AccessRaises.of_ne_real (hm : s.mode ≠ .real) (h : AccessRaises s A r off n k f) :
    f = .gp (some 0) ∨ (f = .ss (some 0) ∧ r = .ss) ∨ f = .ac 0 ∨ ∃ c a, f = .pf c a := by
  obtain hseg | ⟨-, -, -, ⟨hac, -⟩ | ⟨_, a, _, c, -, -, -, hpf⟩⟩ := h
  · exact (segCode_of_ne_real hm ▸ hseg.eq_gp_or_ss).imp_right .inl
  · exact .inr (.inr (.inl hac))
  · exact .inr (.inr (.inr ⟨c, a, hpf⟩))

/-- R42, R119: what the checks of an access list, the access alone would raise. -/
theorem accessRaises_of_mem_faults (hn : 0 < n) (h : f ∈ (s.check A r off n k).faults) :
    AccessRaises s A r off n k f := by
  cases hc : s.check A r off n k with
  | ok ph => rw [hc] at h; cases h
  | refused => rw [hc] at h; cases h
  | raises e es =>
    rw [hc] at h
    obtain hseg | ⟨ht, hr, hw, hlate⟩ := check_raises hc
    · exact .inl ((segRaises_iff ..).2 (hseg f h))
    · obtain ⟨hoff, hlin⟩ := (wraps_false_iff s A r off hn).1 hw
      refine .inr ⟨(no_segRaises_iff ..).2 ⟨ht, hr⟩, hoff, hlin, (hlate f h).imp (mem_alignFaults_iff ..).1 ?pageFault⟩
      rintro ⟨c, a, rfl, htr⟩
      obtain ⟨before, after, hsplit, hpf, hbefore⟩ := translateAll_error s k htr
      exact ⟨before, a, after, c, hsplit, hpf, fun x hx => (physOf_isSome_iff _).2 (hbefore x hx), rfl⟩

/-- R41, R42: an access of the wrong segment type is neither admitted nor refused. -/
theorem check_of_typeFaults_ne_nil (ht : s.typeFaults r k ≠ []) (hn : 0 < n) :
    ∃ g gs, s.check A r off n k = .raises g gs := by
  cases hc : s.check A r off n k with
  | raises g gs => exact ⟨g, gs, rfl⟩
  | ok ph =>
    have hok := ((check_ok_iff s A r off hn k ph).1 hc).1
    exact absurd ((no_segRaises_iff ..).1 hok.reaches.noSegFault).1 ht
  | refused => exact absurd (check_refused_iff.1 hc).1 ht

/-- R41: an access within the limit of a 4-GByte segment does not run past 2^32. -/
theorem Reaches.not_wraps4G (h : Reaches s A r off n k) : ¬ s.wraps4G r off n = true := by
  intro h4
  simp only [State.wraps4G, Bool.and_eq_true, bne_iff_ne, decide_eq_true_eq, beq_iff_eq] at h4
  obtain ⟨⟨hm, hpast⟩, htop⟩ := h4
  have hlast := inLimit_last (((rangeFaults_nil_iff ..).1 ((no_segRaises_iff ..).1 h.noSegFault).2).1 hm)
  omega

/-- R33, R116: the lowest byte that faults is the first one without a translation. -/
theorem find_of_lowest_pageFault {as before after : List Word} {a : Word} {c : BitVec 32}
    (hsplit : as = before ++ a :: after) (hbefore : ∀ x ∈ before, (physOf (s.translate x k)).isSome = true)
    (hpf : s.translate a k = .pageFault c) :
    as.find? (fun x => (physOf (s.translate x k)).isNone) = some a :=
  List.find?_eq_some_iff_append.2
    ⟨by simp [hpf], before, after, hsplit, fun x hx => by simpa using hbefore x hx⟩

end

/-! ### When an access raises one exception alone -/

/-- The checks of the access answer exceptions, and `f` is the only one that the access would raise. -/
structure RaisesOnly (s : State) (A : AddrSize) (r : SegReg) (off : Word) (n : Nat) (k : AccessKind) (f : Fault) :
    Prop where
  raises : ∃ g gs, s.check A r off n k = .raises g gs
  only : ∀ g, AccessRaises s A r off n k g → g = f

section
variable {s : State} {A : AddrSize} {r : SegReg} {off : Word} {n : Nat} {k : AccessKind}

/-- R112, R114. -/
theorem raisesOnly_of_limit (hn : 0 < n) (hm : s.mode ≠ .long64) (ht : s.typeFaults r k = [])
    (h4 : ¬ s.wraps4G r off n = true) (hlim : (s.segOf r).inLimit off.toNat n = false) :
    RaisesOnly s A r off n k (rangeFault s.mode r) := by
  have hseg : SegRaises s r off n k (rangeFault s.mode r) := .inr (.inl ⟨hm, hlim, rfl⟩)
  refine ⟨check_of_accessRaises (.inl hseg) hn h4, fun g hg => ?_⟩
  obtain ⟨hm', htype, -⟩ | ⟨-, -, rfl⟩ | ⟨hm', -⟩ := hg.segRaises hseg
  case inl =>
    obtain ⟨hnull, hwrong⟩ := (typeFaults_nil_iff ..).1 ht hm'
    simp [hnull, hwrong] at htype
  case inr.inl => rfl
  case inr.inr => exact absurd hm' hm

/-- R111, R113. Beside a limit violation through SS there could be a #SS. -/
theorem raisesOnly_of_type (hn : 0 < n) (hm : s.mode = .prot ∨ s.mode = .compat)
    (hss : r ≠ .ss ∨ (s.segOf r).inLimit off.toNat n = true) (htype : s.nullSeg r = true ∨ s.wrongType r k = true) :
    RaisesOnly s A r off n k (.gp (some 0)) := by
  have hseg : SegRaises s r off n k (.gp (some 0)) := .inl ⟨hm, htype, rfl⟩
  obtain ⟨hreal, hlong⟩ := ne_real_and_ne_long64_of_prot_or_compat hm
  constructor
  case raises =>
    refine check_of_typeFaults_ne_nil (fun ht => ?_) hn
    obtain ⟨hnull, hwrong⟩ := (typeFaults_nil_iff ..).1 ht hm
    simp [hnull, hwrong] at htype
  case only =>
    intro g hg
    obtain ⟨-, -, rfl⟩ | ⟨-, hlim, rfl⟩ | ⟨hm', -⟩ := hg.segRaises hseg
    case inl => rfl
    case inr.inl =>
      have hr : r ≠ .ss := hss.resolve_right (by simp [hlim])
      rw [rangeFault_of_ne_ss _ hr, if_neg hreal]
    case inr.inr => exact absurd hm' hlong

/-- R115. -/
theorem raisesOnly_of_nonCanonical (hn : 0 < n) (hm : s.mode = .long64)
    (hbyte : ∃ a ∈ linBytes (s.lin r off) n, canonical s.cfg.vaBits a = false) :
    RaisesOnly s A r off n k (rangeFault s.mode r) := by
  have hseg : SegRaises s r off n k (rangeFault s.mode r) := .inr (.inr ⟨hm, hbyte, rfl⟩)
  refine ⟨check_of_accessRaises (.inl hseg) hn (by simp [State.wraps4G, hm]), fun g hg => ?_⟩
  obtain ⟨hm', -⟩ | ⟨hm', -⟩ | ⟨-, -, rfl⟩ := hg.segRaises hseg
  case inl => simp [hm] at hm'
  case inr.inl => exact absurd hm hm'
  case inr.inr => rfl

/-- R117: an access that is admitted but for its alignment. -/
theorem raisesOnly_of_unaligned (hn : 0 < n) (hok : AccessOk { s with alignCheckEnabled := false } A r off n k)
    (hen : s.alignCheckEnabled = true) (hm : s.mode ≠ .real) (hl : s.mode = .v86 ∨ s.cpl = 3)
    (hun : (s.lin r off).toNat % n ≠ 0) : RaisesOnly s A r off n k (.ac 0) := by
  have hreach : Reaches s A r off n k := ⟨hok.reaches.noSegFault, hok.noWrap, hok.noLinearWrap⟩
  have hac : AccessRaises s A r off n k (.ac 0) :=
    .inr ⟨hreach.noSegFault, hreach.noWrap, hreach.noLinearWrap, .inl ⟨rfl, hen, hm, hl, hun⟩⟩
  refine ⟨check_of_accessRaises hac hn hreach.not_wraps4G, fun g hg => ?_⟩
  obtain hseg | ⟨-, -, -, ⟨rfl, -⟩ | ⟨before, a, after, c, hsplit, hpf, -⟩⟩ := hg
  case inl => exact absurd hseg (hreach.noSegFault g)
  case inr.inl => rfl
  case inr.inr =>
    have htr : (physOf (s.translate a k)).isSome = true :=
      hok.noPageFault a (hsplit ▸ List.mem_append_right before List.mem_cons_self)
    simp [hpf] at htr

/-- R116: an access that is admitted but for its page faults. -/
theorem raisesOnly_of_pageFault (hn : 0 < n) (hok : AccessOk (s.withTranslation []) A r off n k)
    {before after : List Word} {a : Word} {c : BitVec 32} (hsplit : linBytes (s.lin r off) n = before ++ a :: after)
    (hbefore : ∀ x ∈ before, (physOf (s.translate x k)).isSome = true) (hpf : s.translate a k = .pageFault c) :
    RaisesOnly s A r off n k (.pf c a) := by
  have hreach : Reaches s A r off n k := ⟨hok.reaches.noSegFault, hok.noWrap, hok.noLinearWrap⟩
  have hraises : AccessRaises s A r off n k (.pf c a) :=
    .inr ⟨hreach.noSegFault, hreach.noWrap, hreach.noLinearWrap, .inr ⟨before, a, after, c, hsplit, hpf, hbefore, rfl⟩⟩
  refine ⟨check_of_accessRaises hraises hn hreach.not_wraps4G, fun g hg => ?_⟩
  obtain hseg | ⟨-, -, -, ⟨-, hen, hm, hl, hun⟩ | ⟨before', a', after', c', hsplit', hpf', hbefore', rfl⟩⟩ := hg
  case inl => exact absurd hseg (hreach.noSegFault g)
  case inr.inl => exact absurd (hok.alignedOrUnchecked hen hm hl) hun
  case inr.inr =>
    have hsame : some a = some a' :=
      (find_of_lowest_pageFault hsplit hbefore hpf).symm.trans (find_of_lowest_pageFault hsplit' hbefore' hpf')
    cases hsame
    rw [hpf] at hpf'
    cases hpf'
    rfl

end

/-! ### The exception an instruction reports -/

/-- Settles O33: the exceptions the checks list are those the accesses would raise. -/
theorem reportedExceptionIsOneThatApplies : Obligations.ReportedExceptionIsOneThatApplies := by
  intro i s f h
  cases hlock : i.spelling.has .lock with
  | true =>
    rw [exec_of_lock hlock] at h
    cases h
    exact .inl ⟨rfl, rfl⟩
  | false =>
    obtain ⟨-, hlock'⟩ | ⟨hm, hmove⟩ := exec_fault h
    · rw [hlock] at hlock'
      cases hlock'
    · have hn := OpSize_bytes_pos i.size
      obtain ⟨hlaunch, hmem⟩ := movsElement_fault hmove
      exact .inr ⟨rfl, hm, hlaunch, hmem.imp (accessRaises_of_mem_faults hn) (accessRaises_of_mem_faults hn)⟩

section
variable {i : Instr} {s : State} {f : Fault}

/-- R105, R119: the exception is #UD for LOCK, or one that an access of the element raises. -/
theorem lock_or_raises_of_exec_fault (h : exec i s = .fault f) :
    (i.spelling.has .lock = true ∧ f = .ud) ∨ SrcRaises i.size i.spelling s f ∨ DstRaises i.size i.spelling s f :=
  (reportedExceptionIsOneThatApplies i s f h).imp_right fun ⟨_, _, _, hraises⟩ => hraises

/-- R119: an instruction that can start does not carry LOCK. -/
theorem StartOk.raises_of_exec_fault (hs : StartOk i.size i.spelling s) (h : exec i s = .fault f) :
    SrcRaises i.size i.spelling s f ∨ DstRaises i.size i.spelling s f :=
  (lock_or_raises_of_exec_fault h).resolve_left fun ⟨hlock, _⟩ => by simp [hs.noLock] at hlock

/-- An exception other than #UD is one that an access raises. -/
theorem exists_accessRaises_of_exec_fault (h : exec i s = .fault f) (hud : f ≠ .ud) :
    ∃ A r off k, AccessRaises s A r off i.size.bytes k f := by
  obtain ⟨-, rfl⟩ | hsrc | hdst := lock_or_raises_of_exec_fault h
  · exact absurd rfl hud
  · exact ⟨_, _, _, _, hsrc⟩
  · exact ⟨_, _, _, _, hdst⟩

variable (hs : StartOk i.size i.spelling s) (hm : MovesElement i s) (hl : LaunchOk i.size i.spelling (elementsOf i s) s)
include hs hm hl

/-- R119: where the destination is admitted, the one exception of the source is reported. -/
theorem exec_of_src_raisesOnly (hdst : DstOk i.size i.spelling s)
    (h : RaisesOnly s (addrSizeOf s.codeCtx i.spelling) (srcSegOf s.codeCtx i.spelling)
      (s.idxRsi (addrSizeOf s.codeCtx i.spelling)) i.size.bytes .read f) : exec i s = .fault f := by
  obtain ⟨e, es, hc⟩ := h.raises
  obtain ⟨g, hg⟩ := exec_of_elementMove_fault hs hm (elementMove_of_srcCheck_raises hl hc)
  obtain hsrc | hd := hs.raises_of_exec_fault hg
  · rw [hg, h.only g hsrc]
  · exact absurd hd (hdst.not_accessRaises g)

/-- R119: where the source is admitted, the one exception of the destination is reported. -/
theorem exec_of_dst_raisesOnly (hsrc : SrcOk i.size i.spelling s)
    (h : RaisesOnly s (addrSizeOf s.codeCtx i.spelling) .es (s.idxRdi (addrSizeOf s.codeCtx i.spelling)) i.size.bytes
      .write f) : exec i s = .fault f := by
  obtain ⟨e, es, hc⟩ := h.raises
  obtain ⟨g, hg⟩ := exec_of_elementMove_fault hs hm (elementMove_of_dstCheck_raises hl hsrc hc)
  obtain hr | hd := hs.raises_of_exec_fault hg
  · exact absurd hr (hsrc.not_accessRaises g)
  · rw [hg, h.only g hd]

end

/-! ### Another privilege level -/

/-- The state with another CPL. -/
def State.withCpl (s : State) (l : BitVec 2) : State :=
  { s with cpl := l }

section
variable (s : State) (l : BitVec 2)

theorem withCpl_codeCtx : (s.withCpl l).codeCtx = s.codeCtx := rfl
theorem withCpl_idxRsi (A : AddrSize) : (s.withCpl l).idxRsi A = s.idxRsi A := rfl
theorem withCpl_idxRdi (A : AddrSize) : (s.withCpl l).idxRdi A = s.idxRdi A := rfl
theorem withCpl_idxRcx (A : AddrSize) : (s.withCpl l).idxRcx A = s.idxRcx A := rfl
theorem withCpl_chooseFault (f : Fault) (fs : List Fault) : (s.withCpl l).chooseFault f fs = s.chooseFault f fs := rfl

end

/-- R117: without alignment checking no access raises #AC. -/
theorem alignFaults_of_unchecked {s : State} (h : s.alignCheckEnabled = false) (a : Word) (n : Nat) :
    s.alignFaults a n = [] :=
  (alignFaults_nil_iff ..).2 fun hen => by simp [h] at hen

section
variable {s : State} (hflat : s.cfg.translate = []) (l : BitVec 2)
include hflat

theorem translate_withCpl (a : Word) (k : AccessKind) : (s.withCpl l).translate a k = s.translate a k :=
  (translate_of_flat (s := s.withCpl l) (.inr hflat) a k).trans (translate_of_flat (.inr hflat) a k).symm

theorem translateAll_withCpl (k : AccessKind) (as : List Word) :
    (s.withCpl l).translateAll k as = s.translateAll k as := by
  induction as with
  | nil => rfl
  | cons a as ih => simp only [State.translateAll, translate_withCpl hflat, ih]

theorem physBytes_withCpl (r : SegReg) (off : Word) (n : Nat) (k : AccessKind) :
    (s.withCpl l).physBytes r off n k = s.physBytes r off n k := by
  simp only [State.physBytes, translate_withCpl hflat]
  rfl

theorem reached_withCpl (A : AddrSize) (r : SegReg) (off : Word) (n : Nat) (k : AccessKind) :
    (s.withCpl l).reached A r off n k = s.reached A r off n k := by
  simp only [State.reached, physBytes_withCpl hflat]
  rfl

theorem codeAddrs_withCpl (k : Nat) : (s.withCpl l).codeAddrs k = s.codeAddrs k := by
  have haddr : ∀ i, (s.withCpl l).codeAddr i = s.codeAddr i := fun i => by
    simp only [State.codeAddr, translate_withCpl hflat]
    rfl
  have hfrom : ∀ i, (s.withCpl l).codeAddrsFrom i k = s.codeAddrsFrom i k := by
    induction k with
    | zero => exact fun _ => rfl
    | succ k ih => exact fun i => by rw [State.codeAddrsFrom, State.codeAddrsFrom, haddr, ih]
  exact hfrom 0

/-- R45: the launch reaches the same devices. -/
theorem blockOnDevice_withCpl (z : OpSize) (A : AddrSize) (r : SegReg) (c : Nat) :
    (s.withCpl l).blockOnDevice z A r c = s.blockOnDevice z A r c := by
  simp only [State.blockOnDevice, State.srcElement, State.dstElement, reached_withCpl hflat]
  rfl

/-- R50: the launch stores to the same bytes of the instruction. -/
theorem blockOnOwnBytes_withCpl (z : OpSize) (A : AddrSize) (c len : Nat) :
    (s.withCpl l).blockOnOwnBytes z A c len = s.blockOnOwnBytes z A c len := by
  have hstores : (s.withCpl l).blockStoresTo z A c = s.blockStoresTo z A c := by
    funext x
    simp only [State.blockStoresTo, State.dstElement, reached_withCpl hflat]
    rfl
  rw [State.blockOnOwnBytes, State.blockOnOwnBytes, hstores, codeAddrs_withCpl hflat]

/-- R125: the state in which an instruction ends is the same but for the CPL, which it leaves alone. -/
theorem after_withCpl (i : Instr) : (s.withCpl l).after i = (s.after i).withCpl l := by
  have hmoved : (s.withCpl l).moved i.size i.spelling = (s.moved i.size i.spelling).withCpl l := by
    simp only [State.moved, State.srcBytes, State.dstBytes, physBytes_withCpl hflat]
    rfl
  unfold State.after State.iterated
  rw [hmoved, withCpl_codeCtx, withCpl_idxRcx]
  split
  · split <;> rfl
  · rfl

variable (hac : s.alignCheckEnabled = false)
include hac

theorem check_withCpl (A : AddrSize) (r : SegReg) (off : Word) (n : Nat) (k : AccessKind) :
    (s.withCpl l).check A r off n k = s.check A r off n k := by
  simp only [State.check, translateAll_withCpl hflat, alignFaults_of_unchecked hac,
    alignFaults_of_unchecked (s := s.withCpl l) hac]
  rfl

theorem stopOf_elementMove_withCpl (z : OpSize) (p : Spelling) (c : Nat) :
    stopOf ((s.withCpl l).elementMove z p c) = stopOf (s.elementMove z p c) := by
  simp only [State.elementMove, movsElement, withCpl_codeCtx, withCpl_idxRsi, withCpl_idxRdi, withCpl_chooseFault,
    blockOnDevice_withCpl hflat, blockOnOwnBytes_withCpl hflat, check_withCpl hflat l hac]
  split
  · rfl
  · split
    · rfl
    · split
      · rfl
      · rfl
      · split <;> rfl

theorem stopOf_exec_withCpl (i : Instr) : stopOf (exec i (s.withCpl l)) = stopOf (exec i s) := by
  have hbegin : begin i.size i.spelling (s.withCpl l) = begin i.size i.spelling s := rfl
  have hmove := stopOf_elementMove_withCpl hflat l hac i.size i.spelling
  rw [exec_eq, exec_eq]
  split
  · rw [stopOf_repMovs, stopOf_repMovs, hbegin, withCpl_codeCtx, withCpl_idxRcx]
    exact congrArg _ (congrArg _ (hmove _))
  · rw [stopOf_movsOnce, stopOf_movsOnce, hbegin]
    exact congrArg _ (hmove 1)

end

/-! ### The statements -/

/-- Settles O32: #UD comes before all else. -/
theorem lockRaisesUndefinedOpcode : Obligations.LockRaisesUndefinedOpcode :=
  fun _ _ => exec_of_lock

/-- Settles O35: the limit exception is the only one of the access. -/
theorem limitViolationRaisesGpOrSs : Obligations.LimitViolationRaisesGpOrSs := by
  intro i s hs hm hl hmode A r code
  have hn := OpSize_bytes_pos i.size
  exact ⟨fun hdst ht h4 hlim => exec_of_src_raisesOnly hs hm hl hdst (raisesOnly_of_limit hn hmode ht h4 hlim),
    fun hsrc ht h4 hlim => exec_of_dst_raisesOnly hs hm hl hsrc (raisesOnly_of_limit hn hmode ht h4 hlim)⟩

/-- Settles O36: beside the type exception only a limit exception can apply, which is the same #GP(0) but through SS. -/
theorem segmentTypeRaisesGp : Obligations.SegmentTypeRaisesGp := by
  intro i s hs hm hl hmode A r
  have hn := OpSize_bytes_pos i.size
  refine ⟨fun hdst hss htype => ?src, fun hsrc htype => ?dst⟩
  case src =>
    refine exec_of_src_raisesOnly hs hm hl hdst (raisesOnly_of_type hn hmode hss (htype.imp (nullSeg_iff s r).2 fun h => ?_))
    simp only [State.wrongType, r, h, Bool.not_false]
  case dst =>
    refine exec_of_dst_raisesOnly hs hm hl hsrc (raisesOnly_of_type hn hmode (.inl (by decide)) (htype.imp_right fun h => ?_))
    simp only [State.wrongType, State.segOf, h, Bool.not_false]

/-- Settles O37: in 64-bit mode the canonical-form exception is the only segment-level one. -/
theorem nonCanonicalAddressRaisesGpOrSs : Obligations.NonCanonicalAddressRaisesGpOrSs := by
  intro i s hs hm hl hmode A r
  have hn := OpSize_bytes_pos i.size
  refine ⟨fun hdst hbyte => ?src, fun hsrc hbyte => ?dst, fun hss => srcSegOf_ne_ss hmode hss i.spelling⟩
  case src =>
    have h := exec_of_src_raisesOnly hs hm hl hdst (raisesOnly_of_nonCanonical hn hmode hbyte)
    rwa [hmode] at h
  case dst =>
    have h := exec_of_dst_raisesOnly hs hm hl hsrc (raisesOnly_of_nonCanonical hn hmode hbyte)
    rwa [hmode] at h

/-- Settles O38: #AC comes from an access that is unaligned where alignment is checked, and of an access that is
otherwise admitted it is the only exception. -/
theorem unalignedAccessRaisesAc : Obligations.UnalignedAccessRaisesAc := by
  intro i s
  refine ⟨fun c h => ?reported, fun hs hm hl hen hmode hlevel => ⟨fun hdst hok hun => ?src, fun hsrc hok hun => ?dst⟩⟩
  case reported =>
    obtain ⟨A, r, off, k, hac⟩ := exists_accessRaises_of_exec_fault h (by simp)
    obtain ⟨hc, hen, hmode, hlevel, hun⟩ := hac.of_ac
    exact ⟨hc, hen, hmode, hlevel, fun hz => hun (by rw [hz]; exact Nat.mod_one _)⟩
  case src =>
    exact exec_of_src_raisesOnly hs hm hl hdst
      (raisesOnly_of_unaligned (OpSize_bytes_pos _) hok hen hmode hlevel hun)
  case dst =>
    exact exec_of_dst_raisesOnly hs hm hl hsrc
      (raisesOnly_of_unaligned (OpSize_bytes_pos _) hok hen hmode hlevel hun)

/-- Settles O39: real-address mode has no page faults, and of an access that is otherwise admitted the page fault of the
lowest byte is the only exception. -/
theorem pageFaultReportsTheLowestByte : Obligations.PageFaultReportsTheLowestByte := by
  intro i s
  refine ⟨fun c a h hmode => ?reported, fun hs hm hl => ?faults⟩
  case reported =>
    obtain ⟨A, r, off, k, hpf⟩ := exists_accessRaises_of_exec_fault h (by simp)
    have htr := hpf.of_pf
    rw [translate_of_flat (.inl hmode)] at htr
    cases htr
  case faults =>
    have hn := OpSize_bytes_pos i.size
    intro A r flat before after a c
    exact ⟨fun hdst hok hsplit hbefore hpf =>
        exec_of_src_raisesOnly hs hm hl hdst (raisesOnly_of_pageFault hn hok hsplit hbefore hpf),
      fun hsrc hok hsplit hbefore hpf =>
        exec_of_dst_raisesOnly hs hm hl hsrc (raisesOnly_of_pageFault hn hok hsplit hbefore hpf)⟩

/-- Settles O40: an access raises for the limit alone there, #SS through SS and #GP otherwise. -/
theorem realModeExceptions : Obligations.RealModeExceptions := by
  intro i s f hmode h A r
  obtain hlock | hsrc | hdst := lock_or_raises_of_exec_fault h
  case inl => exact .inl hlock.symm
  case inr.inl =>
    obtain ⟨hlim, rfl⟩ := hsrc.of_real hmode
    by_cases hr : r = .ss
    · have hss : srcSegOf s.codeCtx i.spelling = .ss := hr
      rw [hss] at hlim
      exact .inr (.inl ⟨if_pos hr, hr, hlim⟩)
    · exact .inr (.inr ⟨rangeFault_of_ne_ss _ hr, .inl ⟨hr, hlim⟩⟩)
  case inr.inr =>
    obtain ⟨hlim, rfl⟩ := hdst.of_real hmode
    exact .inr (.inr ⟨rfl, .inr hlim⟩)

/-- Settles O41: the exceptions of an access outside real-address mode; the destination goes through ES. -/
theorem errorCodesOutsideRealMode : Obligations.ErrorCodesOutsideRealMode := by
  intro i s f hmode h
  obtain ⟨-, hud⟩ | hsrc | hdst := lock_or_raises_of_exec_fault h
  case inl => exact .inl hud
  case inr.inl => exact .inr (hsrc.of_ne_real hmode)
  case inr.inr =>
    obtain hgp | ⟨-, hes⟩ | hrest := hdst.of_ne_real hmode
    · exact .inr (.inl hgp)
    · cases hes
    · exact .inr (.inr (.inr hrest))

/-- Settles O51: nothing an instruction asks of the CPL depends on it, so it stops alike, and where it completes it leaves
the CPL alone. -/
theorem privilegeLevelDoesNotMatter : Obligations.PrivilegeLevelDoesNotMatter := by
  intro i s l hac hflat
  have hstop := stopOf_exec_withCpl hflat l hac i
  cases hx : exec i s with
  | next t =>
    obtain ⟨u, hu⟩ := stopOf_eq_next_iff.1 (hstop.trans (stopOf_eq_next_iff.2 ⟨t, hx⟩))
    obtain rfl := exec_next_eq_after hx
    exact hu.trans (congrArg _ ((exec_next_eq_after hu).trans (after_withCpl hflat l i)))
  | fault f => exact stopOf_eq_fault_iff.1 (hstop.trans (stopOf_eq_fault_iff.2 hx))
  | refused e => exact stopOf_eq_refused_iff.1 (hstop.trans (stopOf_eq_refused_iff.2 hx))

end Sys2Proof.Machine
end

section
/-! PROOFS. Runs to an exit address, 70_reset_and_hazards.md R133: what successive steps and a bounded run answer, one
step at a time, and that the two meet the exit address in the same state. -/

namespace Sys2Proof.Machine

section
variable {exit k : Nat} {s t : State}

/-! ### Successive steps -/

theorem stepTimes_succ_eq_next_iff :
    stepTimes (k + 1) s = .next t ↔ ∃ u, step s = .next u ∧ stepTimes k u = .next t := by
  rw [stepTimes]
  cases step s <;> simp

/-- The state `t` is met after `k` steps from `s`, and is the first one met in which `pc` is the exit address. -/
def FirstMeets (exit k : Nat) (s t : State) : Prop :=
  stepTimes k s = .next t ∧ t.ipOffset = exit ∧ ∀ j < k, ∃ u, stepTimes j s = .next u ∧ u.ipOffset ≠ exit

theorem firstMeets_zero_iff : FirstMeets exit 0 s t ↔ s.ipOffset = exit ∧ s = t := by
  constructor
  · rintro ⟨⟨⟩, hexit, -⟩
    exact ⟨hexit, rfl⟩
  · rintro ⟨hexit, rfl⟩
    exact ⟨rfl, hexit, fun j hj => absurd hj (Nat.not_lt_zero j)⟩

theorem firstMeets_succ_iff :
    FirstMeets exit (k + 1) s t ↔ s.ipOffset ≠ exit ∧ ∃ u, step s = .next u ∧ FirstMeets exit k u t := by
  constructor
  · rintro ⟨hrun, hexit, hbefore⟩
    obtain ⟨_, ⟨⟩, hs⟩ := hbefore 0 (Nat.succ_pos k)
    obtain ⟨u, hu, hrest⟩ := stepTimes_succ_eq_next_iff.1 hrun
    refine ⟨hs, u, hu, hrest, hexit, fun j hj => ?_⟩
    obtain ⟨v, hv, hne⟩ := hbefore (j + 1) (Nat.succ_lt_succ hj)
    obtain ⟨u', hu', hv'⟩ := stepTimes_succ_eq_next_iff.1 hv
    cases hu.symm.trans hu'
    exact ⟨v, hv', hne⟩
  · rintro ⟨hs, u, hu, hrest, hexit, hbefore⟩
    refine ⟨stepTimes_succ_eq_next_iff.2 ⟨u, hu, hrest⟩, hexit, fun j hj => ?_⟩
    cases j with
    | zero => exact ⟨s, rfl, hs⟩
    | succ j =>
      obtain ⟨v, hv, hne⟩ := hbefore j (Nat.lt_of_succ_lt_succ hj)
      exact ⟨v, stepTimes_succ_eq_next_iff.2 ⟨u, hu, hv⟩, hne⟩

/-- The exit address is first met in one state only: whichever is met earlier is not passed by. -/
theorem FirstMeets.unique {j : Nat} {u : State} (ht : FirstMeets exit k s t) (hu : FirstMeets exit j s u) : t = u := by
  obtain ⟨htrun, htexit, htbefore⟩ := ht
  obtain ⟨hurun, huexit, hubefore⟩ := hu
  rcases lt_trichotomy k j with hlt | rfl | hgt
  · obtain ⟨v, hv, hne⟩ := hubefore k hlt
    cases htrun.symm.trans hv
    exact absurd htexit hne
  · cases htrun.symm.trans hurun
    rfl
  · obtain ⟨v, hv, hne⟩ := htbefore j hgt
    cases hurun.symm.trans hv
    exact absurd huexit hne

/-! ### The bounded run -/

theorem runTo_zero_eq_ended_iff : runTo exit 0 s = .ended t ↔ s.ipOffset = exit ∧ s = t := by
  rw [runTo]
  split <;> simp [*]

/-- R133: neither a fault nor a refusal is a final state. -/
theorem runTo_succ_eq_ended_iff :
    runTo exit (k + 1) s = .ended t ↔
      (s.ipOffset = exit ∧ s = t) ∨ s.ipOffset ≠ exit ∧ ∃ u, step s = .next u ∧ runTo exit k u = .ended t := by
  by_cases hs : s.ipOffset = exit
  · simp [runTo_of_exit hs, hs]
  · rw [runTo, if_neg hs]
    cases step s <;> simp [hs]

/-- R133: a run ends where its steps first meet the exit address, if its bound lets it come there. -/
theorem runTo_eq_ended_iff : runTo exit k s = .ended t ↔ ∃ j ≤ k, FirstMeets exit j s t := by
  induction k generalizing s with
  | zero => simp [runTo_zero_eq_ended_iff, firstMeets_zero_iff]
  | succ k ih =>
    rw [runTo_succ_eq_ended_iff]
    constructor
    · rintro (hend | ⟨hs, u, hu, hrun⟩)
      · exact ⟨0, Nat.zero_le _, firstMeets_zero_iff.2 hend⟩
      · obtain ⟨j, hj, hmeet⟩ := ih.1 hrun
        exact ⟨j + 1, Nat.succ_le_succ hj, firstMeets_succ_iff.2 ⟨hs, u, hu, hmeet⟩⟩
    · rintro ⟨j, hj, hmeet⟩
      cases j with
      | zero => exact .inl (firstMeets_zero_iff.1 hmeet)
      | succ j =>
        obtain ⟨hs, u, hu, hrest⟩ := firstMeets_succ_iff.1 hmeet
        exact .inr ⟨hs, u, hu, ih.2 ⟨j, Nat.le_of_succ_le_succ hj, hrest⟩⟩

theorem endsAt_iff : EndsAt exit s t ↔ ∃ k, FirstMeets exit k s t := by
  constructor
  · rintro ⟨_, hrun⟩
    obtain ⟨j, -, hmeet⟩ := runTo_eq_ended_iff.1 hrun
    exact ⟨j, hmeet⟩
  · rintro ⟨k, hmeet⟩
    exact ⟨k, runTo_eq_ended_iff.2 ⟨k, le_rfl, hmeet⟩⟩

end

/-! ### The statement -/

/-- Settles O30: the bounded run and the successive steps are compared one step at a time, and the first state met in which
`pc` is the exit address is one only. -/
theorem runEndsWhereItFirstMeetsTheExit : Obligations.RunEndsWhereItFirstMeetsTheExit := by
  refine fun exit s t => ⟨endsAt_iff, fun u ht hu => ?_⟩
  obtain ⟨_, htmeet⟩ := endsAt_iff.1 ht
  obtain ⟨_, humeet⟩ := endsAt_iff.1 hu
  exact htmeet.unique humeet

end Sys2Proof.Machine
end

section
/-! PROOFS. The state after reset and the code placed in it, 70_reset_and_hazards.md R129: the words of the opcode table
decode to their rows (30_encoding.md R73), code placed at `CS:pc` is what the next step fetches (20_memory.md R50), and the
state after reset meets the invariant. -/

namespace Sys2Proof

/-! ### The words of the opcode table -/

theorem bytesOfNat_length (k w : Nat) : (bytesOfNat k w).length = k := by
  induction k generalizing w with
  | zero => rfl
  | succ k ih => simp [bytesOfNat, ih]

theorem tableBytes_length (nbits w : Nat) : (tableBytes nbits w).length = maxInsnBytes :=
  bytesOfNat_length ..

theorem decodeTableWord_eq_some_iff {nbits w : Nat} {i : Instr} :
    decodeTableWord nbits w = some i ↔ decode tableCtx (tableBytes nbits w) = .insn i := by
  unfold decodeTableWord
  split <;> simp [*]

/-- A word whose bytes begin with the encoding of a row of 64-bit mode decodes to that row (R73). -/
theorem decodeTableWord_of_encode {nbits w : Nat} {i : Instr} {rest : List Byte} (hwf : i.wf tableCtx = true)
    (hbytes : tableBytes nbits w = encode i ++ rest) : decodeTableWord nbits w = some i.noOperands := by
  rw [decodeTableWord_eq_some_iff, hbytes]
  exact decode_encode rest hwf

/-! ### 64-bit code under another default size -/

section
variable {c c' : CodeCtx} (hc : c.mode = .long64) (hc' : c'.mode = .long64)
include hc hc'

/-- R57, R62: in 64-bit mode neither `DefaultSize16` nor `SsOverride64Honoured` has a say in which instructions exist. -/
theorem Instr.wf_eq_of_long64 (i : Instr) : i.wf c = i.wf c' := by
  have hsize : opSizeA5 c i.spelling = opSizeA5 c' i.spelling := by
    rw [opSizeA5_of_long64 _ hc, opSizeA5_of_long64 _ hc']
  simp only [Instr.wf, Spelling.wf, Instr.sizeOk, hc, hc', hsize]

/-- R69: nor in what bytes decode to. -/
theorem decode_insn_of_long64 {bytes : List Byte} {i : Instr} (h : decode c bytes = .insn i) :
    decode c' bytes = .insn i := by
  obtain ⟨hwf, hno, rest, rfl⟩ := decode_insn h
  rw [decode_encode rest (Instr.wf_eq_of_long64 hc hc' i ▸ hwf), hno]

end

/-! ### The statement about the table's words -/

/-- Settles O8: each word, and each byte string, begins with the encoding of a row that exists in its mode. -/
theorem wordsOfTheTableDecode : Obligations.WordsOfTheTableDecode := by
  refine ⟨?movsb, ?movsw, ?movsq, ?repMovsq, ?movsd32, ?repMovsd16⟩
  case movsb =>
    exact decodeTableWord_of_encode (i := .movsb ⟨[], none⟩) (rest := [0, 0, 0, 0, 0, 0]) (by decide) (by decide)
  case movsw =>
    exact decodeTableWord_of_encode (i := .movsw ⟨[.opSize], none⟩) (rest := [0, 0, 0, 0, 0]) (by decide) (by decide)
  case movsq =>
    exact decodeTableWord_of_encode (i := .movsq ⟨[], some 0x8⟩) (rest := [0, 0, 0, 0, 0]) (by decide) (by decide)
  case repMovsq =>
    exact decodeTableWord_of_encode (i := .repMovsq ⟨[.rep], some 0x8⟩) (rest := [0, 0, 0, 0]) (by decide) (by decide)
  case movsd32 => exact decode_encode (i := .movsd ⟨[], none⟩) [] (by decide)
  case repMovsd16 => exact decode_encode (i := .repMovsd ⟨[.rep, .opSize], none⟩) [] (by decide)

namespace Machine

/-! ### Code placed at `CS:pc` -/

section
variable {s : State} {bytes : List Byte}

theorem codeAddrs_loadCode (k : Nat) : (s.loadCode bytes).codeAddrs k = s.codeAddrs k :=
  (sameEnv_loadCode s bytes).codeAddrs_eq rfl k

theorem codeAddrs_subset (s : State) {k m : Nat} (h : k ≤ m) : s.codeAddrs k ⊆ s.codeAddrs m := by
  obtain ⟨d, rfl⟩ := Nat.exists_eq_add_of_le h
  rw [State.codeAddrs, ← take_codeAddrsFrom s k d 0]
  exact List.take_subset ..

/-- R50: the bytes placed count as not stored to (log entry 4). -/
theorem storedCode_loadCode {i : Instr} (h : i.spelling.len ≤ bytes.length) :
    (s.loadCode bytes).storedCode i = false := by
  rw [storedCode_eq_false_iff, codeAddrs_loadCode]
  intro a ha
  simp [codeAddrs_subset s h ha]

variable (hwf : Memory.wf s.mem = true) (hlen : bytes.length = maxInsnBytes)
  (hall : (s.codeAddrs maxInsnBytes).length = maxInsnBytes) (hnodup : (s.codeAddrs maxInsnBytes).Nodup)
include hwf hlen hall hnodup

/-- R50: where every byte can be fetched, each from an address of its own, the bytes placed are those fetched. -/
theorem fetchBytes_loadCode : (s.loadCode bytes).fetchBytes = bytes := by
  rw [State.fetchBytes, codeAddrs_loadCode, State.loadCode_mem, hlen]
  exact Memory.readAll_writeAll hwf hnodup (hlen.trans hall.symm)

/-- R11: code placed at `CS:pc` is what the next step runs. -/
theorem step_loadCode_of_exec_next {i : Instr} {t : State} (hd : decode s.codeCtx bytes = .insn i)
    (hx : exec i (s.loadCode bytes) = .next t) : step (s.loadCode bytes) = .next t.tick := by
  have hfetch : (s.loadCode bytes).fetchDecode = .insn i := by
    rw [State.fetchDecode, (sameEnv_loadCode s bytes).codeCtx_eq, fetchBytes_loadCode hwf hlen hall hnodup, hd]
  have hown : i.spelling.len ≤ bytes.length :=
    (len_le_of_wf ((Instr.wf_iff _ i).1 (decode_insn hd).1).1).trans_eq hlen.symm
  exact step_of_exec_next hfetch (storedCode_loadCode hown) hx

end

/-! ### The state after reset -/

/-- The state after reset in 64-bit mode, in which a word of the opcode table is placed (log entry 4). -/
def resetLong64 : State :=
  { State.reset with mode := .long64 }

theorem withFetchWord_reset (nbits w : Nat) :
    State.reset.withFetchWord nbits w = resetLong64.loadCode (tableBytes nbits w) := rfl

/-- R50: after reset there is no paging, and the bytes fetched stand one after the other. -/
theorem codeAddrs_resetLong64 : resetLong64.codeAddrs maxInsnBytes = List.range' 0xFFF0 maxInsnBytes :=
  codeAddrsFrom_of_flat (s := resetLong64) (i := 0) (.inr rfl) (by decide) (by decide)

/-! ### The statements about the state after reset -/

/-- Settles O15: the word is fetched back as it was placed, and decodes in 64-bit mode as in the table, whatever
`DefaultSize16` is after reset. -/
theorem resetRunsATableWord : Obligations.ResetRunsATableWord := by
  intro nbits w i hw t hx
  have hd : decode resetLong64.codeCtx (tableBytes nbits w) = .insn i :=
    decode_insn_of_long64 rfl rfl (decodeTableWord_eq_some_iff.1 hw)
  have hall : (resetLong64.codeAddrs maxInsnBytes).length = maxInsnBytes := by
    rw [codeAddrs_resetLong64, List.length_range']
  have hnodup : (resetLong64.codeAddrs maxInsnBytes).Nodup := by
    rw [codeAddrs_resetLong64]
    exact List.nodup_range'
  rw [withFetchWord_reset] at hx ⊢
  exact step_loadCode_of_exec_next rfl (tableBytes_length nbits w) hall hnodup hd hx

/-- Settles O53: memory and the record of stores are empty, 0xFFF0 is within the CS limit 0xFFFF, and CS has the base that
the invariant admits beside those of R23. -/
theorem resetMeetsInvariant : Obligations.ResetMeetsInvariant where
  memCanonical := rfl
  storedRising := rfl
  pcInCode := by decide
  segShape := by decide

end Machine

end Sys2Proof
end
